-- ==== Sys2Proof/Word.lean ====
section
/-! DEFINITION. The block's words: 16-bit port words (spec R59), 8-bit registers and data items, the 3-bit phase (R7). -/

namespace Sys2Proof

/-- A word on the command port or on the stimulus port (R59): exactly 16 bits. -/
abbrev Word := BitVec 16

/-- An expander register, a register address or a bus data item (R7): 8 bits. -/
abbrev Byte := BitVec 8

/-- The BlinkPhase counter (R7, R17): 3 bits. -/
abbrev Phase := BitVec 3

end Sys2Proof
end

