-- ==== Sys2Proof/Syntax.lean ====
section
/-! DEFINITION. The nine commands and stimuli of spec/opcode_table.json, and the names their operands use. -/

namespace Sys2Proof

/-- The two OutputChannel instances (R14): bank X is expander port A, bank D the direct pins. -/
inductive Bank
  | x
  | d
deriving DecidableEq, Repr

/-- The three blink rates (R18). -/
inductive Blink
  | long
  | med
  | short
deriving DecidableEq, Repr

/-- The five statuses of a channel (R15): OFF, ON, BLINK_LONG, BLINK_MED, BLINK_SHORT. -/
inductive Status
  | off
  | on
  | blink (rate : Blink)
deriving DecidableEq, Repr

/-- The channel operand `C` of UPDATE (R61): a channel number 0..0xFE, or the broadcast sentinel ALL. -/
inductive Target
  | chan (c : Byte)
  | all
deriving DecidableEq, Repr

/-- The flash modes `MD` (R61); 2 and 3 are reserved and have no name here. -/
inductive FlashMode
  | sweep
  | blink
deriving DecidableEq, Repr

/-- The four control lines `P` (R61, R99); `back` is the mode/back button. -/
inductive Line
  | select
  | up
  | down
  | back
deriving DecidableEq, Repr

/-- The edge kinds `K` (R61): a rising edge is a press (R11). -/
inductive EdgeKind
  | rise
  | fall
deriving DecidableEq, Repr

/-- The two input ports of the block (R59). -/
inductive Port
  | command
  | stimulus
deriving DecidableEq, Repr

/-- The twelve registers of the expander that the spec names (R30). -/
inductive ExpReg
  | iodirA
  | iodirB
  | ipolA
  | ipolB
  | gpintenA
  | gpintenB
  | gppuA
  | gppuB
  | gpioA
  | gpioB
  | olatA
  | olatB
deriving DecidableEq, Repr

/-- One constructor per row of spec/opcode_table.json (R63). The first seven come on the command port, the last two on
the stimulus port. -/
inductive Instr
  /-- INIT (R71). -/
  | init
  /-- WROUT M (R74). -/
  | wrout (m : Byte)
  /-- RDIN (R76). -/
  | rdin
  /-- UPDATE B, C, S (R79). -/
  | update (b : Bank) (c : Target) (st : Status)
  /-- FLASH B, MD (R94). -/
  | flash (b : Bank) (md : FlashMode)
  /-- POLLEV (R109). -/
  | pollev
  /-- SHUTDOWN (R110). -/
  | shutdown
  /-- TICK B (R87). -/
  | tick (b : Bank)
  /-- EDGE P, K (R100); its time t is the block clock at the step. -/
  | edge (p : Line) (k : EdgeKind)
deriving DecidableEq, Repr

/-- The port that carries an instruction (R59, R63). -/
def Instr.port : Instr → Port
  | .init => .command
  | .wrout _ => .command
  | .rdin => .command
  | .update _ _ _ => .command
  | .flash _ _ => .command
  | .pollev => .command
  | .shutdown => .command
  | .tick _ => .stimulus
  | .edge _ _ => .stimulus

/-- The bank whose renderer an instruction starts: TICK B and no other (R87). -/
def Instr.tickBank : Instr → Option Bank
  | .init => none
  | .wrout _ => none
  | .rdin => none
  | .update _ _ _ => none
  | .flash _ _ => none
  | .pollev => none
  | .shutdown => none
  | .tick b => some b
  | .edge _ _ => none

end Sys2Proof
end

