-- ==== Sys2Proof/Config.lean ====
section
/-! DEFINITION. The parameters of spec R6, carried by the state and never changed by a step, and the free values: opaque constants
that stand for what the spec draws from the environment. -/

namespace Sys2Proof

/-- One value for each of the four control lines. -/
structure PerLine (α : Type) where
  select : α
  up : α
  down : α
  back : α
deriving DecidableEq, Repr

/-- The addresses `REG_*` of the twelve expander registers (R30): an open parameter. -/
structure RegMap where
  iodirA : Byte
  iodirB : Byte
  ipolA : Byte
  ipolB : Byte
  gpintenA : Byte
  gpintenB : Byte
  gppuA : Byte
  gppuB : Byte
  gpioA : Byte
  gpioB : Byte
  olatA : Byte
  olatB : Byte
deriving DecidableEq, Repr

/-- The address of a named register. -/
def RegMap.addr (m : RegMap) : ExpReg → Byte
  | .iodirA => m.iodirA
  | .iodirB => m.iodirB
  | .ipolA => m.ipolA
  | .ipolB => m.ipolB
  | .gpintenA => m.gpintenA
  | .gpintenB => m.gpintenB
  | .gppuA => m.gppuA
  | .gppuB => m.gppuB
  | .gpioA => m.gpioA
  | .gpioB => m.gpioB
  | .olatA => m.olatA
  | .olatB => m.olatB

/-- The twelve registers, in the order of R30. -/
def ExpReg.every : List ExpReg :=
  [.iodirA, .iodirB, .ipolA, .ipolB, .gpintenA, .gpintenB, .gppuA, .gppuB, .gpioA, .gpioB, .olatA, .olatB]

/-- The parameters of R6 that are not fixed by the spec. The fixed ones are `Config.nX`, `Config.nXIn`, `Config.nIn` and
`Config.onLevel` below. -/
structure Config where
  /-- `N_D`, the number of directly wired output channels: OPEN, 1 to 8 (R56, D15). -/
  nD : Nat
  /-- `TICK_MS`: read by no rule, since the model has no period (R91, R149). -/
  tickMs : Nat
  /-- `DEBOUNCE_MS` (R102). -/
  debounceMs : Nat
  /-- `LONG_MIN_MS`, exclusive (R105). -/
  longMinMs : Nat
  /-- `LONG_MAX_MS`, exclusive (R105). -/
  longMaxMs : Nat
  /-- `LOOP_MS`, the consumer's sleep: outside the block, read by no rule. -/
  loopMs : Nat
  /-- `FLASH_STEP_MS`: OPEN; read by no rule, since a wait is only a point where other agents may step (R98). -/
  flashStepMs : Nat
  /-- `FLASH_REPEAT` at least 1 (R96): OPEN. -/
  flashRepeat : Nat
  /-- `SLAVE_ADDR`, 7 bits: OPEN; the device every transaction is addressed to (R39, D7). -/
  slaveAddr : BitVec 7
  /-- `REG_*`: OPEN (R30). -/
  reg : RegMap
  /-- `PIN_OUT[c]`, the platform pin of direct channel c, channel 0 first: OPEN. -/
  pinOut : List Nat
  /-- `PIN_IN[p]`: OPEN; the block sees these pins only as edge stimuli (R39). -/
  pinIn : PerLine Nat
  /-- `INPUT_ASSERTED_LEVEL`: OPEN; used by no rule of the block (R45). -/
  inputAssertedLevel : Bool
deriving DecidableEq, Repr

/-- `N_X` = 8: the expander-backed output channels (R6). -/
def Config.nX : Nat := 8

/-- `N_XIN` = 8: the expander input lines (R6). -/
def Config.nXIn : Nat := 8

/-- `N_IN` = 4: the monitored control lines (R6). -/
def Config.nIn : Nat := 4

/-- `ON_LEVEL` = 1: the level that lights a lamp (R6, R78). -/
def Config.onLevel : Bool := true

/-- The twelve register addresses, in the order of R30. -/
def RegMap.addrs (m : RegMap) : List Byte := ExpReg.every.map m.addr

/-- What R6, R30, R56 and R96 require of the parameters: `1 ≤ N_D ≤ 8`, one pin for each direct channel, the twelve
addresses pairwise distinct, `FLASH_REPEAT ≥ 1`. -/
abbrev Config.wf (k : Config) : Prop :=
  1 ≤ k.nD ∧ k.nD ≤ 8 ∧ k.pinOut.length = k.nD ∧ k.reg.addrs.Nodup ∧ 1 ≤ k.flashRepeat

/-- The addresses the test vectors use (R30): a common expander's map, general knowledge and no fact of the device. -/
def RegMap.vectors : RegMap where
  iodirA := 0x00#8
  iodirB := 0x01#8
  ipolA := 0x02#8
  ipolB := 0x03#8
  gpintenA := 0x04#8
  gpintenB := 0x05#8
  gppuA := 0x0C#8
  gppuB := 0x0D#8
  gpioA := 0x12#8
  gpioB := 0x13#8
  olatA := 0x14#8
  olatB := 0x15#8

/-- The test-vector values of the parameters (R6, 95_test_vectors.md section 0). DESIGN CHOICE (log 1): the spec gives no
value of `FLASH_STEP_MS`, `PIN_OUT`, `PIN_IN` and `INPUT_ASSERTED_LEVEL`; no rule reads them but for the pin number a pin
write names. -/
def Config.vectors : Config where
  nD := 4
  tickMs := 150
  debounceMs := 100
  longMinMs := 700
  longMaxMs := 3500
  loopMs := 10
  flashStepMs := 0
  flashRepeat := 2
  slaveAddr := 0x20#7
  reg := RegMap.vectors
  pinOut := [0, 1, 2, 3]
  pinIn := { select := 4, up := 5, down := 6, back := 7 }
  inputAssertedLevel := false

/-- FREE VALUE (log 2): what a register address of the expander reads as before the block has written it, R34's `draw byte` at
reset. -/
opaque Config.powerOn : Nat → Byte

/-- FREE VALUE (log 3): whether the n-th transaction that no listed draw decides succeeds, R43's `draw Bool`. -/
opaque Config.busOk : Nat → Bool

/-- FREE VALUE (log 3): whether a failed write reached its register all the same, R44's draw between the old and the written
value. -/
opaque Config.writeLanded : Nat → Bool

/-- FREE VALUE (log 3): the port-B levels a read of the input register returns, R45's `draw byte`. -/
opaque Config.portB : Nat → Byte

end Sys2Proof
end

