-- ==== Sys2Proof/WellFormed.lean ====
section
/-! DEFINITION. What an instruction must satisfy to have an encoding. Operands whose type has exactly the legal values need no check. -/

namespace Sys2Proof

/-- A channel number is 0x00..0xFE: 0xFF is the sentinel ALL and no channel number (R61). -/
def Target.wf : Target → Bool
  | .chan c => c != 0xFF#8
  | .all => true

/-- An instruction is well formed when each operand is one its format can spell (R60 to R62). The statuses 5 to 7, the
flash modes 2 and 3 and the reserved bits cannot be written as an `Instr` at all. -/
def Instr.wf : Instr → Bool
  | .init => true
  | .wrout _ => true
  | .rdin => true
  | .update _ c _ => c.wf
  | .flash _ _ => true
  | .pollev => true
  | .shutdown => true
  | .tick _ => true
  | .edge _ _ => true

end Sys2Proof
end

