-- ==== Sys2Proof/Decode.lean ====
section
/-! DEFINITION. Decoding the words of both ports (spec R60 to R66), the encoder (R60, R67), and the opcode map as rows (R63). -/

namespace Sys2Proof

/-- Why a word is no instruction of the port it came on, one constructor per clause of R64 and R65. -/
inductive Reject
  /-- `OP` is 0x0 or in 0x8..0xD. -/
  | unusedOpcode
  /-- A stimulus opcode on the command port, or a command opcode on the stimulus port. -/
  | wrongPort
  /-- A reserved bit of the word's format is 1. -/
  | reservedBit
  /-- `OP` = 0x4 and `S` is 5, 6 or 7. -/
  | reservedStatus
  /-- `OP` = 0x5 and `MD` is 2 or 3. -/
  | reservedMode
deriving DecidableEq, Repr

/-! ### Fields (R60, R61) -/

/-- `OP` = w[15:12]. -/
def opField (w : Word) : Nat := (w.extractLsb' 12 4).toNat

/-- `B` = w[11]: 0 is X, 1 is D. -/
def bankField (w : Word) : Bank := if w.getLsbD 11 then .d else .x

/-- `S` = w[10:8], with the codes of R62. -/
def statusField (w : Word) : Option Status :=
  match (w.extractLsb' 8 3).toNat with
  | 0 => some .off
  | 1 => some .on
  | 2 => some (.blink .long)
  | 3 => some (.blink .med)
  | 4 => some (.blink .short)
  | _ => none

/-- `C` = w[7:0]: 0xFF is ALL. -/
def targetField (w : Word) : Target :=
  let c := w.extractLsb' 0 8
  if c = 0xFF#8 then .all else .chan c

/-- `MD` = w[1:0]. -/
def modeField (w : Word) : Option FlashMode :=
  match (w.extractLsb' 0 2).toNat with
  | 0 => some .sweep
  | 1 => some .blink
  | _ => none

/-- `K` = w[2]: 1 is RISE. -/
def edgeField (w : Word) : EdgeKind := if w.getLsbD 2 then .rise else .fall

/-- `P` = w[1:0]. -/
def lineField (w : Word) : Line :=
  match (w.extractLsb' 0 2).toNat with
  | 0 => .select
  | 1 => .up
  | 2 => .down
  | _ => .back

/-! ### Decoding -/

/-- An instruction whose format's reserved bits `bits` must be 0 (R60). -/
def reservedZero {n : Nat} (bits : BitVec n) (i : Instr) : Except Reject Instr :=
  if bits = 0#n then .ok i else .error .reservedBit

/-- Decoding on the command port: a command, or one of the illegal words of R64. -/
def decodeCommand (w : Word) : Except Reject Instr :=
  match opField w with
  | 0x1 => reservedZero (w.extractLsb' 0 12) .init
  | 0x2 => reservedZero (w.extractLsb' 8 4) (.wrout (w.extractLsb' 0 8))
  | 0x3 => reservedZero (w.extractLsb' 0 12) .rdin
  | 0x4 =>
    match statusField w with
    | some st => .ok (.update (bankField w) (targetField w) st)
    | none => .error .reservedStatus
  | 0x5 =>
    match modeField w with
    | some md => reservedZero (w.extractLsb' 2 9) (.flash (bankField w) md)
    | none => .error .reservedMode
  | 0x6 => reservedZero (w.extractLsb' 0 12) .pollev
  | 0x7 => reservedZero (w.extractLsb' 0 12) .shutdown
  | 0xE => .error .wrongPort
  | 0xF => .error .wrongPort
  | _ => .error .unusedOpcode

/-- Decoding on the stimulus port: a stimulus, or a mis-spelled word (R65). -/
def decodeStimulus (w : Word) : Except Reject Instr :=
  match opField w with
  | 0xE => reservedZero (w.extractLsb' 0 11) (.tick (bankField w))
  | 0xF => reservedZero (w.extractLsb' 3 9) (.edge (lineField w) (edgeField w))
  | 0x1 => .error .wrongPort
  | 0x2 => .error .wrongPort
  | 0x3 => .error .wrongPort
  | 0x4 => .error .wrongPort
  | 0x5 => .error .wrongPort
  | 0x6 => .error .wrongPort
  | 0x7 => .error .wrongPort
  | _ => .error .unusedOpcode

/-- Decoding is total on every word of either port (R66). -/
def decode : Port → Word → Except Reject Instr
  | .command => decodeCommand
  | .stimulus => decodeStimulus

/-- The port whose opcodes hold this word's (R63): 0xE and 0xF belong to the stimulus port, all else to the command port. -/
def portOf (w : Word) : Port := if 0xE ≤ opField w then .stimulus else .command

/-- The instruction read from a table word: the block's words are 16 bits and the table's bit numbers are the word's own, so
the word goes to the decoder of its opcode's port as it stands. -/
def decodeTableWord (nbits w : Nat) : Option Instr :=
  if nbits ≤ 16 ∧ w < 2 ^ 16 then (decode (portOf (BitVec.ofNat 16 w)) (BitVec.ofNat 16 w)).toOption else none

/-! ### Encoding (R60 to R62, R67) -/

/-- The bit of a bank. -/
def Bank.code : Bank → BitVec 1
  | .x => 0#1
  | .d => 1#1

/-- The code of a status (R62). -/
def Status.code : Status → BitVec 3
  | .off => 0#3
  | .on => 1#3
  | .blink .long => 2#3
  | .blink .med => 3#3
  | .blink .short => 4#3

/-- The channel field: a channel number, or 0xFF for ALL (R61). -/
def Target.code : Target → Byte
  | .chan c => c
  | .all => 0xFF#8

/-- The code of a flash mode (R61). -/
def FlashMode.code : FlashMode → BitVec 2
  | .sweep => 0#2
  | .blink => 1#2

/-- The bit of an edge kind (R61). -/
def EdgeKind.code : EdgeKind → BitVec 1
  | .fall => 0#1
  | .rise => 1#1

/-- The code of a control line (R61). -/
def Line.code : Line → BitVec 2
  | .select => 0#2
  | .up => 1#2
  | .down => 2#2
  | .back => 3#2

/-- The word of an instruction: opcode first, then the fields of its format from high to low, reserved bits 0 (R60, R67). -/
def encode : Instr → Word
  | .init => 0x1#4 ++ 0#12
  | .wrout m => 0x2#4 ++ 0#4 ++ m
  | .rdin => 0x3#4 ++ 0#12
  | .update b c st => 0x4#4 ++ b.code ++ st.code ++ c.code
  | .flash b md => 0x5#4 ++ b.code ++ 0#9 ++ md.code
  | .pollev => 0x6#4 ++ 0#12
  | .shutdown => 0x7#4 ++ 0#12
  | .tick b => 0xE#4 ++ b.code ++ 0#11
  | .edge p k => 0xF#4 ++ 0#9 ++ k.code ++ p.code

/-! ### The opcode map (R63) -/

/-- One row of the opcode map: a word w matches when `w &&& mask = pattern`. -/
structure OpcodeRow where
  port : Port
  pattern : Word
  mask : Word
deriving DecidableEq, Repr

/-- The nine rows of R63 in the table's order. -/
def opcodeTable : List OpcodeRow :=
  [⟨.command, 0x1000#16, 0xFFFF#16⟩, ⟨.command, 0x2000#16, 0xFF00#16⟩, ⟨.command, 0x3000#16, 0xFFFF#16⟩,
   ⟨.command, 0x4000#16, 0xF000#16⟩, ⟨.command, 0x5000#16, 0xF7FC#16⟩, ⟨.command, 0x6000#16, 0xFFFF#16⟩,
   ⟨.command, 0x7000#16, 0xFFFF#16⟩, ⟨.stimulus, 0xE000#16, 0xF7FF#16⟩, ⟨.stimulus, 0xF000#16, 0xFFF8#16⟩]

/-- A word matches a row of the opcode map. -/
def OpcodeRow.accepts (r : OpcodeRow) (w : Word) : Bool := w &&& r.mask == r.pattern

/-- The row of an instruction. -/
def Instr.row : Instr → OpcodeRow
  | .init => ⟨.command, 0x1000#16, 0xFFFF#16⟩
  | .wrout _ => ⟨.command, 0x2000#16, 0xFF00#16⟩
  | .rdin => ⟨.command, 0x3000#16, 0xFFFF#16⟩
  | .update _ _ _ => ⟨.command, 0x4000#16, 0xF000#16⟩
  | .flash _ _ => ⟨.command, 0x5000#16, 0xF7FC#16⟩
  | .pollev => ⟨.command, 0x6000#16, 0xFFFF#16⟩
  | .shutdown => ⟨.command, 0x7000#16, 0xFFFF#16⟩
  | .tick _ => ⟨.stimulus, 0xE000#16, 0xF7FF#16⟩
  | .edge _ _ => ⟨.stimulus, 0xF000#16, 0xFFF8#16⟩

end Sys2Proof
end

