-- ==== Sys2Proof/Machine/State.lean ====
section
/-! DEFINITION. The block's state as plain data, the reasons a step can stop, and the state after reset (spec 10_state.md). -/

namespace Sys2Proof.Machine

/-- Why the machine stops with a fault. The block itself has no trap and no stuck behaviour (R116, 93 section 1). -/
inductive Fault
  /-- Raised by an agent that takes `LOCK[b]` while it is held. Safe: every body under a lock is one atomic step (R50), so no
  state that meets the invariant of Safety.lean holds a lock between steps, and there this fault never occurs. -/
  | lockHeld (b : Bank)
deriving DecidableEq, Repr

/-- Why a step has no meaning: the two refusals of R124, and the reason for an instruction without a meaning. -/
inductive Refusal
  /-- Raised by exec's arm of an instruction that has no meaning yet; no arm raises it now. Safe: the model stops. -/
  | notModelled (mnemonic : String)
  /-- `refuse(BroadcastBlink)`: UPDATE of ALL channels with a blink status (R84, R124). Safe: the spec gives it no step. -/
  | broadcastBlink
  /-- `refuse(IllegalStimulus)`: a mis-spelled word on the stimulus port (R65, R124). Safe: the spec gives it no step. -/
  | illegalStimulus (w : Word)
deriving DecidableEq, Repr

/-! ### Records the state is made of -/

/-- The agents whose steps a run interleaves (R129). -/
inductive Agent
  | host
  | renderer (b : Bank)
  | edge (p : Line)
deriving DecidableEq, Repr

/-- The kinds of event the InputMonitor produces (R28). -/
inductive EventKind
  | press
  | longHold
deriving DecidableEq, Repr

/-- A ButtonEvent record (R28): `t` is the time of the edge that produced it. -/
structure ButtonEvent where
  src : Line
  kind : EventKind
  t : Nat
deriving DecidableEq, Repr

/-- The direction of a bus transaction (R43). -/
inductive Dir
  | read
  | write
deriving DecidableEq, Repr

/-- A failed bus transaction: the register address and the direction (R43, R120). -/
structure BusError where
  reg : Byte
  dir : Dir
deriving DecidableEq, Repr

/-- The result codes of R118. -/
inductive ResultCode
  | ok
  | invalidChannel
  | busError
  | notInitialized
  | illegalCommand
  | halted
deriving DecidableEq, Repr

/-- The `info` field of a response (R117): {B, C} of an InvalidChannel, the word of an IllegalCommand. -/
inductive ResponseInfo
  | channel (b : Bank) (c : Byte)
  | word (w : Word)
deriving DecidableEq, Repr

/-- The response record of a host command (R117). -/
structure Response where
  code : ResultCode
  data : Option Byte := none
  event : Option ButtonEvent := none
  reg : Option Byte := none
  dir : Option Dir := none
  info : Option ResponseInfo := none
deriving DecidableEq, Repr

/-- One OutputChannel instance (R14): everything that is per bank. -/
structure BankState where
  /-- `STATUS[b][c]`, channel 0 first (R15). -/
  status : List Status
  /-- `PHASE[b]` (R17). -/
  phase : Phase
  /-- `FLASH_ACTIVE[b]` (R22). -/
  flashActive : Bool
  /-- `LOCK[b]`: free (`none`) or held by one agent (R29). -/
  lock : Option Agent
  /-- The steps T(s, c) the renderer has still to run in its present tick; empty when it is between ticks (R38, R88). -/
  pass : List (Blink × Nat)
deriving DecidableEq, Repr

/-- A host command that takes several steps, between two of them (R38, R98, R110). -/
inductive HostOp
  /-- FLASH on bank `b` with the masks still to apply; with none left, the restore step FR is next (R94). -/
  | flash (b : Bank) (masks : List Byte)
  /-- SHUTDOWN after step S1, with the error S1 kept: step S2 is next (R110). -/
  | shutdownPins (err : Option BusError)
  /-- SHUTDOWN after step S2: step S3 is next (R110). -/
  | shutdownHalt (err : Option BusError)
deriving DecidableEq, Repr

/-- What the environment draws for one bus transaction (R43 to R45). -/
structure BusDraw where
  /-- The transaction succeeds (R43). -/
  ok : Bool
  /-- A failed write has reached its register all the same (R44). -/
  landed : Bool
  /-- The levels of the port-B lines (R45). -/
  portB : Byte
deriving DecidableEq, Repr

/-- What one step is given to do. -/
inductive Activity
  /-- The host puts a word on the command port (R59). -/
  | command (w : Word)
  /-- The environment puts a word on the stimulus port (R59). -/
  | stimulus (w : Word)
  /-- The host agent takes the next step of a command in progress (R98, R110). -/
  | hostTurn
  /-- The renderer of bank b takes its next step T(s, c) (R88). -/
  | rendererTurn (b : Bank)
  /-- The block's context is created anew while the device runs (R136, R138). -/
  | reset
deriving DecidableEq, Repr

/-- One entry of the run's schedule: the time since the entry before it (R35), the consumer's `in_pause` at it (R36), and
which agent does what. -/
structure Slot where
  elapsed : Nat
  inPause : Bool
  activity : Activity
deriving DecidableEq, Repr

/-- What can be seen at the block's wires: bus transactions with the value read or written, and direct pin writes. -/
inductive IoEvent
  /-- A register read; the value is `none` when the transaction failed (R40). -/
  | busRead (slave : BitVec 7) (reg : Byte) (value : Option Byte)
  /-- A register write and whether it succeeded (R41). -/
  | busWrite (slave : BitVec 7) (reg value : Byte) (ok : Bool)
  /-- A write of a level to the pin of direct channel c (R55). -/
  | pinWrite (c pin : Nat) (level : Bool)
deriving DecidableEq, Repr

/-- The whole state: the spec's tuple of R12, the progress of agents inside an operation (R38), the inputs of a step (R35,
R36, R43 to R45), the parameters (R6), and the outputs (responses of R117 and the bus and pin trace). -/
@[ext]
structure State where
  /-- The parameters (R6); no step changes them. -/
  cfg : Config
  /-- The OutputChannel instance of expander port A (R14). -/
  bankX : BankState
  /-- The OutputChannel instance of the direct pins (R14). -/
  bankD : BankState
  /-- `DOUT[c]`, channel 0 first; `none` is the spec's ⊥ (R20). -/
  dout : List (Option Bool)
  /-- `INITIALIZED` (R21). -/
  initialized : Bool
  /-- `HALTED` (R23). -/
  halted : Bool
  /-- `LAST_EDGE[p]` (R25). -/
  lastEdge : PerLine (Option Nat)
  /-- `HOLD_START` (R26). -/
  holdStart : Option Nat
  /-- `EVQ`, oldest event first (R27). -/
  evq : List ButtonEvent
  /-- `EXP`, the expander's registers by address (R12, R39): the bytes the block's writes have left, addresses strictly
  rising; an address not listed still holds its power-on draw. -/
  mem : List Host.Cell
  /-- The host's command in progress, if it is one of several steps. -/
  host : Option HostOp
  /-- `now`, the block clock in ms (R35). -/
  now : Nat
  /-- `in_pause` (R36). -/
  inPause : Bool
  /-- The schedule: what host and environment do next, oldest first. -/
  inputs : List Slot
  /-- The draws of the coming bus transactions, the next one first. -/
  draws : List BusDraw
  /-- How many transactions were decided by the free values of Config, the list being empty. -/
  drawCount : Nat
  /-- The responses returned to the host, oldest first (R117). -/
  responses : List Response
  /-- The bus transactions and pin writes made, oldest first. -/
  trace : List IoEvent
deriving DecidableEq, Repr

/-- A bank after reset with `n` channels (R37): every status OFF, phase 0, no flash, lock free, the renderer between ticks. -/
def BankState.initial (n : Nat) : BankState where
  status := List.replicate n .off
  phase := 0#3
  flashActive := false
  lock := none
  pass := []

/-- The state after reset for given parameters (R37, R136). The inputs and outputs are empty. -/
def State.resetWith (k : Config) : State where
  cfg := k
  bankX := BankState.initial Config.nX
  bankD := BankState.initial k.nD
  dout := List.replicate k.nD none
  initialized := false
  halted := false
  lastEdge := { select := none, up := none, down := none, back := none }
  holdStart := none
  evq := []
  mem := []
  host := none
  now := 0
  inPause := false
  inputs := []
  draws := []
  drawCount := 0
  responses := []
  trace := []

/-- The state after reset at the test vectors' parameters (log 1). -/
def State.reset : State := State.resetWith Config.vectors

end Sys2Proof.Machine
end

