-- ==== Sys2Proof/Machine/Ops.lean ====
section
/-! DEFINITION. The shared operations: accessors, expander memory, draws, bus transactions, pin writes, locks, results. -/

namespace Sys2Proof.Machine

/-! ### Banks -/

/-- The state of a bank. -/
def State.bank (s : State) : Bank → BankState
  | .x => s.bankX
  | .d => s.bankD

/-- Replace the state of a bank. -/
def State.setBank (s : State) : Bank → BankState → State
  | .x, v => { s with bankX := v }
  | .d, v => { s with bankD := v }

/-- `STATUS[b] <- l`. -/
def State.setStatus (s : State) (b : Bank) (l : List Status) : State := s.setBank b { s.bank b with status := l }

/-- `PHASE[b] <- p`. -/
def State.setPhase (s : State) (b : Bank) (p : Phase) : State := s.setBank b { s.bank b with phase := p }

/-- `LOCK[b] <- l`. -/
def State.setLock (s : State) (b : Bank) (l : Option Agent) : State := s.setBank b { s.bank b with lock := l }

/-- The renderer's remaining steps. -/
def State.setPass (s : State) (b : Bank) (l : List (Blink × Nat)) : State := s.setBank b { s.bank b with pass := l }

/-! ### The four lines -/

/-- The value of a line. -/
def lineGet {α : Type} (v : PerLine α) : Line → α
  | .select => v.select
  | .up => v.up
  | .down => v.down
  | .back => v.back

/-- Replace the value of a line. -/
def lineSet {α : Type} (v : PerLine α) (p : Line) (a : α) : PerLine α :=
  match p with
  | .select => { v with select := a }
  | .up => { v with up := a }
  | .down => { v with down := a }
  | .back => { v with back := a }

/-! ### The expander register space, the block's only memory (R9, R39) -/

/-- The canonical form of a memory: addresses strictly rising and within the 8-bit register space. A listed byte is never
compared with what an unlisted address reads as, since that is a free value (log 2). -/
def Memory.wf : List Host.Cell → Bool
  | [] => true
  | (a, _) :: rest =>
    decide (a < 256) && (match rest with | [] => true | (b, _) :: _ => decide (a < b)) && Memory.wf rest

/-- What an address that is not listed reads as: its power-on draw (R34). -/
def Memory.unlisted (a : Nat) : Byte := Config.powerOn a

/-- `EXP[a]`: the listed byte, or the power-on draw. -/
def Memory.read : List Host.Cell → Nat → Byte
  | [], a => Memory.unlisted a
  | (k, v) :: rest, a => if k = a then v else Memory.read rest a

/-- `EXP[a] <- v`: the byte goes to its place in the rising order. -/
def Memory.write : List Host.Cell → Nat → Byte → List Host.Cell
  | [], a, v => [(a, v)]
  | (k, w) :: rest, a, v =>
    if a < k then (a, v) :: (k, w) :: rest
    else if a = k then (a, v) :: rest
    else (k, w) :: Memory.write rest a v

/-- The address of a named register under the state's register map (R30). -/
def State.addr (s : State) (r : ExpReg) : Byte := s.cfg.reg.addr r

/-- `EXP[r]`, the content of a named register. -/
def State.exp (s : State) (r : ExpReg) : Byte := Memory.read s.mem (s.addr r).toNat

/-- `EXP[r] <- v`. -/
def State.setExp (s : State) (r : ExpReg) (v : Byte) : State := { s with mem := Memory.write s.mem (s.addr r).toNat v }

/-! ### Draws (R43 to R45) -/

/-- The draw the free values give to the n-th transaction that no listed draw decides. -/
def freeDraw (n : Nat) : BusDraw := { ok := Config.busOk n, landed := Config.writeLanded n, portB := Config.portB n }

/-- The draw of the next bus transaction: the listed one, or a free one. -/
def State.nextDraw (s : State) : BusDraw :=
  match s.draws with
  | [] => freeDraw s.drawCount
  | d :: _ => d

/-- The next draw is used up. -/
def State.dropDraw (s : State) : State :=
  match s.draws with
  | [] => { s with drawCount := s.drawCount + 1 }
  | _ :: rest => { s with draws := rest }

/-- The state after `n` draws are used up. -/
def State.dropDraws (s : State) : Nat → State
  | 0 => s
  | n + 1 => s.dropDraw.dropDraws n

/-- The draw of the transaction `n` transactions from now. -/
def State.drawAt (s : State) (n : Nat) : BusDraw := (s.dropDraws n).nextDraw

/-! ### Bus transactions and pin writes -/

/-- Something is seen at the block's wires. -/
def State.emit (s : State) (e : IoEvent) : State := { s with trace := s.trace ++ [e] }

/-- What a successful read of a register returns: the port-B levels for the input register of port B (R45), the register's
content for every other (R46). -/
def State.readValue (s : State) (r : ExpReg) (d : BusDraw) : Byte :=
  match r with
  | .gpioB => d.portB
  | .iodirA | .iodirB | .ipolA | .ipolB | .gpintenA | .gpintenB | .gppuA | .gppuB | .gpioA | .olatA | .olatB => s.exp r

/-- `BusRead(r)` (R40): one transaction; a failed read changes no register (R44). -/
def busRead (r : ExpReg) (s : State) : State × Except BusError Byte :=
  let d := s.nextDraw
  let a := s.addr r
  if d.ok then
    (s.dropDraw.emit (.busRead s.cfg.slaveAddr a (some (s.readValue r d))), .ok (s.readValue r d))
  else
    (s.dropDraw.emit (.busRead s.cfg.slaveAddr a none), .error { reg := a, dir := .read })

/-- `BusWrite(r, v)` (R41): one transaction; a failed write leaves the old or the written value (R44). -/
def busWrite (r : ExpReg) (v : Byte) (s : State) : State × Option BusError :=
  let d := s.nextDraw
  let a := s.addr r
  let s1 := s.dropDraw.emit (.busWrite s.cfg.slaveAddr a v d.ok)
  if d.ok then (s1.setExp r v, none)
  else (if d.landed then s1.setExp r v else s1, some { reg := a, dir := .write })

/-- A list of register writes, in order; the first that fails ends it (R73, R120). -/
def busWrites : List (ExpReg × Byte) → State → State × Option BusError
  | [], s => (s, none)
  | (r, v) :: rest, s =>
    match busWrite r v s with
    | (s1, none) => busWrites rest s1
    | (s1, some e) => (s1, some e)

/-- `PinWrite(PIN_OUT[c], lvl)` (R55): it never fails, and DOUT records it. -/
def pinWrite (c : Nat) (lvl : Bool) (s : State) : State :=
  { s with dout := s.dout.set c (some lvl) }.emit (.pinWrite c (s.cfg.pinOut.getD c 0) lvl)

/-! ### Locks (R29, R50) -/

/-- `with LOCK[b]: body`, followed by `after` once the lock is free again: one atomic step of agent `a` (R50). -/
def withLock (b : Bank) (a : Agent) (body : State → State × Option BusError) (after : Option BusError → State → State)
    (s : State) : Host.Outcome State Fault Refusal :=
  match (s.bank b).lock with
  | some _ => .fault (.lockHeld b)
  | none =>
    let r := body (s.setLock b (some a))
    .next (after r.2 (r.1.setLock b none))

/-! ### Results: the block's only exceptions (R116 to R118) -/

/-- The error results of R118 with what each records. -/
inductive ErrorResult
  | invalidChannel (b : Bank) (c : Byte)
  | busError (e : BusError)
  | notInitialized
  | illegalCommand (w : Word)
  | halted
deriving DecidableEq, Repr

/-- The numbers of the result codes (R118). -/
def ResultCode.number : ResultCode → Nat
  | .ok => 0
  | .invalidChannel => 1
  | .busError => 2
  | .notInitialized => 3
  | .illegalCommand => 4
  | .halted => 5

/-- The response record of an error (R117, R118): the fields its row names, the others none. -/
def ErrorResult.response : ErrorResult → Response
  | .invalidChannel b c => { code := .invalidChannel, info := some (.channel b c) }
  | .busError e => { code := .busError, reg := some e.reg, dir := some e.dir }
  | .notInitialized => { code := .notInitialized }
  | .illegalCommand w => { code := .illegalCommand, info := some (.word w) }
  | .halted => { code := .halted }

/-- The plain OK response. -/
def Response.done : Response := { code := .ok }

/-- OK with the byte RDIN read. -/
def Response.withData (v : Byte) : Response := { code := .ok, data := some v }

/-- OK with the event POLLEV took, or none. -/
def Response.withEvent (e : Option ButtonEvent) : Response := { code := .ok, event := e }

/-- A command returns its response record to the host (R117). -/
def State.respond (s : State) (r : Response) : State := { s with responses := s.responses ++ [r] }

/-- `raise E(info)` (R9, R116): the command ends with the error's response. What it did before stands; no state is saved, no
handler runs, and there is no return from it (R127). -/
def State.raise (s : State) (e : ErrorResult) : State := s.respond e.response

/-- The end of a command whose last action may have failed on the bus: OK, or the BusError (R118, R120). -/
def finish (e : Option BusError) (s : State) : State :=
  match e with
  | none => s.respond .done
  | some b => s.raise (.busError b)

end Sys2Proof.Machine
end

