-- ==== Sys2Proof/Machine/Flags.lean ====
section
/-! DEFINITION. The flags INITIALIZED, FLASH_ACTIVE and HALTED (spec R21 to R24): their writes, and the checks a command makes of
them before it changes any state (R70, R125). -/

namespace Sys2Proof.Machine

/-- `INITIALIZED <- v`. -/
def State.setInitialized (s : State) (v : Bool) : State := { s with initialized := v }

/-- `HALTED <- v`. -/
def State.setHalted (s : State) (v : Bool) : State := { s with halted := v }

/-- `FLASH_ACTIVE[b] <- v`. -/
def State.setFlashActive (s : State) (b : Bank) (v : Bool) : State := s.setBank b { s.bank b with flashActive := v }

/-- `if HALTED = 1: raise Halted()` (R123). -/
def checkHalted (s : State) : Option ErrorResult := if s.halted then some .halted else none

/-- `if INITIALIZED = 0: raise NotInitialized()` (R121). -/
def checkInitialized (s : State) : Option ErrorResult := if s.initialized then none else some .notInitialized

/-- `if B = X and INITIALIZED = 0: raise NotInitialized()` (R85, R94). -/
def checkBankReady (b : Bank) (s : State) : Option ErrorResult :=
  match b with
  | .x => checkInitialized s
  | .d => none

/-- The first error of a list of checks, in the order they are made (R125). -/
def firstError : List (Option ErrorResult) → Option ErrorResult
  | [] => none
  | some e :: _ => some e
  | none :: rest => firstError rest

/-- Checks come before any state changes (R125): the first error is returned, else the command's body runs. -/
def guarded (checks : List (Option ErrorResult)) (s : State) (body : Host.Outcome State Fault Refusal) :
    Host.Outcome State Fault Refusal :=
  match firstError checks with
  | some e => .next (s.raise e)
  | none => body

end Sys2Proof.Machine
end

