-- ==== Sys2Proof/Machine/Operands.lean ====
section
/-! DEFINITION. Operands and levels: channel counts, levels and masks of a bank, flash sequences, the renderer's order, and the level
primitives ApplyBit and ApplyMask (spec R54 to R56, R78, R87, R95, R96). -/

namespace Sys2Proof.Machine

/-- `COUNT(b)` (R14). -/
def channelCount (k : Config) : Bank → Nat
  | .x => Config.nX
  | .d => k.nD

/-- `COUNT(b)` in a state. -/
def State.count (s : State) (b : Bank) : Nat := channelCount s.cfg b

/-- `if C != ALL and C >= COUNT(B): raise InvalidChannel(B, C)` (R79, R80, R119). -/
def checkChannel (b : Bank) (c : Target) (s : State) : Option ErrorResult :=
  match c with
  | .all => none
  | .chan n => if s.count b ≤ n.toNat then some (.invalidChannel b n) else none

/-! ### Levels -/

/-- The phase bit of a blink status (R18). -/
def blinkBit : Blink → Nat
  | .short => 0
  | .med => 1
  | .long => 2

/-- `subphase(b, s)` (R18): one bit of the phase. -/
def subphase (p : Phase) (r : Blink) : Bool := p.getLsbD (blinkBit r)

/-- `levelOf(b, s)` (R78). -/
def levelOf (p : Phase) : Status → Bool
  | .off => false
  | .on => true
  | .blink r => subphase p r

/-- `1 << c` (R8): the 8-bit mask with only bit c set. -/
def bitMask (c : Nat) : Byte := 1#8 <<< c

/-- `fullMask` for n channels (R78, R96): `(1 << n) - 1`. -/
def fullMask (n : Nat) : Byte := BitVec.ofNat 8 (2 ^ n - 1)

/-- The OR over the channels from `c` on of `levelOf << c` (R78). -/
def levelMask (p : Phase) : Nat → List Status → Byte
  | _, [] => 0#8
  | c, st :: rest => (if levelOf p st then bitMask c else 0#8) ||| levelMask p (c + 1) rest

/-- `statusMask(b)` (R78). -/
def State.statusMask (s : State) (b : Bank) : Byte := levelMask (s.bank b).phase 0 (s.bank b).status

/-- One bit of a latch value set to a level (R54). -/
def withBit (v : Byte) (c : Nat) (lvl : Bool) : Byte :=
  if lvl = Config.onLevel then v ||| bitMask c else v &&& ~~~bitMask c

/-! ### Level primitives -/

/-- `ApplyBitX(c, lvl)` (R54): the read-modify-write of the output latch; the write is issued even when nothing changes. -/
def applyBitX (c : Nat) (lvl : Bool) (s : State) : State × Option BusError :=
  match busRead .olatA s with
  | (s1, .error e) => (s1, some e)
  | (s1, .ok v) => busWrite .olatA (withBit v c lvl) s1

/-- `ApplyBit(b, c, lvl)` (R55, R56). -/
def applyBit (b : Bank) (c : Nat) (lvl : Bool) (s : State) : State × Option BusError :=
  match b with
  | .x => applyBitX c lvl s
  | .d => (pinWrite c lvl s, none)

/-- The pin writes of `ApplyMask(D, m)` for the channels of a list, in its order. -/
def pinWrites (m : Byte) : List Nat → State → State
  | [], s => s
  | c :: rest, s => pinWrites m rest (pinWrite c (m.getLsbD c) s)

/-- `ApplyMask(b, m)` (R56): one latch write without a read, or one pin write for each direct channel in ascending order. -/
def applyMask (b : Bank) (m : Byte) (s : State) : State × Option BusError :=
  match b with
  | .x => busWrite .olatA m s
  | .d => (pinWrites m (List.range (s.count .d)) s, none)

/-! ### Sequences -/

/-- The masks of SWEEP on n channels (R95): lit one by one in ascending order, then darkened one by one. -/
def sweepMasks (n : Nat) : List Byte :=
  (List.range n).map (fun k => fullMask (k + 1)) ++ (List.range n).map (fun k => fullMask n &&& ~~~fullMask (k + 1))

/-- The masks of BLINK on n channels with a repeat count (R96). -/
def blinkMasks (n : Nat) : Nat → List Byte
  | 0 => []
  | k + 1 => fullMask n :: 0#8 :: blinkMasks n k

/-- `flashSeq(MD, n)` (R95, R96). -/
def flashSeq (rep : Nat) (n : Nat) : FlashMode → List Byte
  | .sweep => sweepMasks n
  | .blink => blinkMasks n rep

/-- The steps T(s, c) of one tick (R87): LONG, MED, SHORT, and within each the channels in ascending order. -/
def passSteps (n : Nat) : List (Blink × Nat) :=
  (List.range n).map (fun c => (Blink.long, c)) ++ (List.range n).map (fun c => (Blink.med, c)) ++
    (List.range n).map (fun c => (Blink.short, c))

end Sys2Proof.Machine
end

