-- ==== Sys2Proof/Machine/OutputChannel.lean ====
section
/-! DEFINITION. The OutputChannel commands UPDATE and FLASH and the renderer's TICK (spec 41_output_channel.md). -/

namespace Sys2Proof.Machine

/-! ### UPDATE -/

/-- `STATUS[B][C] <- S` (R16): one element, no other. -/
def State.setChannelStatus (s : State) (b : Bank) (c : Nat) (st : Status) : State :=
  s.setStatus b ((s.bank b).status.set c st)

/-- Every status of a bank set (R83, R110). -/
def State.setAllStatus (s : State) (b : Bank) (st : Status) : State :=
  s.setStatus b (List.replicate (s.count b) st)

/-- Record the status, then apply its level (R81): the status is written first and stays when the apply fails. -/
def recordAndApply (b : Bank) (c : Nat) (st : Status) (lvl : Bool) (s : State) : State × Option BusError :=
  applyBit b c lvl (s.setChannelStatus b c st)

/-- Record a status for every channel, then apply the whole bank with one ApplyMask (R83). -/
def recordAndApplyAll (b : Bank) (st : Status) (m : Byte) (s : State) : State × Option BusError :=
  applyMask b m (s.setAllStatus b st)

/-- UPDATE of one channel that has passed its checks: ON and OFF at once under the lock (R81), a blink status only recorded
(R82). -/
def updateChannel (b : Bank) (c : Nat) (st : Status) (s : State) : Host.Outcome State Fault Refusal :=
  match st with
  | .off => withLock b .host (recordAndApply b c .off false) finish s
  | .on => withLock b .host (recordAndApply b c .on true) finish s
  | .blink r => .next ((s.setChannelStatus b c (.blink r)).respond .done)

/-- UPDATE of ALL channels that has passed its checks: ON and OFF for the whole bank (R83); a blink status has no meaning
(R84). -/
def updateAll (b : Bank) (st : Status) (s : State) : Host.Outcome State Fault Refusal :=
  match st with
  | .off => withLock b .host (recordAndApplyAll b .off 0x00#8) finish s
  | .on => withLock b .host (recordAndApplyAll b .on (fullMask (s.count b))) finish s
  | .blink _ => .refused .broadcastBlink

/-- UPDATE B, C, S (R79): the checks in the order of R125, then the channel or the whole bank. -/
def execUpdate (b : Bank) (c : Target) (st : Status) (s : State) : Host.Outcome State Fault Refusal :=
  guarded [checkHalted s, checkChannel b c s, checkBankReady b s] s
    (match c with
     | .chan n => updateChannel b n.toNat st s
     | .all => updateAll b st s)

/-! ### TICK -/

/-- TICK B (R87, R90): step T0. Halted, it does nothing; else the phase advances modulo 8, and the steps T(s, c) of the pass
lie before the renderer, which takes them one by one (`rendererStep`). A tick is not started while the pass before it
runs (R88): the step function sees to that. -/
def execTick (b : Bank) (s : State) : Host.Outcome State Fault Refusal :=
  .next (if s.halted then s else (s.setPhase b ((s.bank b).phase + 1#3)).setPass b (passSteps (s.count b)))

/-- The body of step T(s, c) (R87): the level is applied only to a channel that holds the blink status at this very step, and
neither halted nor during a flash. -/
def renderChannel (b : Bank) (r : Blink) (c : Nat) (s : State) : State × Option BusError :=
  if s.halted = false ∧ (s.bank b).flashActive = false ∧ (s.bank b).status[c]? = some (.blink r) then
    applyBit b c (subphase (s.bank b).phase r) s
  else (s, none)

/-- The end of step T(s, c): on a BusError the rest of the tick is skipped and the renderer drops the error (R89). -/
def finishRender (b : Bank) (rest : List (Blink × Nat)) (e : Option BusError) (s : State) : State :=
  match e with
  | none => s.setPass b rest
  | some _ => s.setPass b []

/-- The renderer of bank b takes the next step of its tick (R88); between ticks it has none. -/
def rendererStep (b : Bank) (s : State) : Host.Outcome State Fault Refusal :=
  match (s.bank b).pass with
  | [] => .next s
  | (r, c) :: rest => withLock b (.renderer b) (renderChannel b r c) (finishRender b rest) s

/-! ### FLASH -/

/-- `FLASH_ACTIVE[b]` and the host's place in the sequence. -/
def State.setHost (s : State) (o : Option HostOp) : State := { s with host := o }

/-- FLASH B, MD (R94): the checks and step F0. The masks and the restore are the host's next steps (`flashStep`); the
response comes with the last one. -/
def execFlash (b : Bank) (md : FlashMode) (s : State) : Host.Outcome State Fault Refusal :=
  guarded [checkHalted s, checkBankReady b s] s
    (.next ((s.setFlashActive b true).setHost (some (.flash b (flashSeq s.cfg.flashRepeat (s.count b) md)))))

/-- The end of a flash, by the restore step or by an error (R94, R97): FLASH_ACTIVE is cleared and the host is free. -/
def endFlash (b : Bank) (e : Option BusError) (s : State) : State :=
  finish e ((s.setFlashActive b false).setHost none)

/-- The end of a mask step: on with the remaining masks, or the flash is over with the error (R97). -/
def finishMask (b : Bank) (rest : List Byte) (e : Option BusError) (s : State) : State :=
  match e with
  | none => s.setHost (some (.flash b rest))
  | some x => endFlash b (some x) s

/-- The restore: every channel to the level its status gives now (R94). -/
def restoreBank (b : Bank) (s : State) : State × Option BusError := applyMask b (s.statusMask b) s

/-- A step of FLASH after F0 (R94): the next mask, or FR when none is left. -/
def flashStep (b : Bank) (masks : List Byte) (s : State) : Host.Outcome State Fault Refusal :=
  match masks with
  | m :: rest => withLock b .host (applyMask b m) (finishMask b rest) s
  | [] => withLock b .host (restoreBank b) (endFlash b) s

end Sys2Proof.Machine
end

