-- ==== Sys2Proof/Machine/System.lean ====
section
/-! DEFINITION. SHUTDOWN, illegal command words, and a reset while the device runs (spec 43_system.md, R136, R138). -/

namespace Sys2Proof.Machine

/-- The body of step S1 (R110): every bank-X status OFF, and the latch written 0x00 if the expander was initialized. -/
def shutdownExpander (s : State) : State × Option BusError :=
  if s.initialized then applyMask .x 0x00#8 (s.setAllStatus .x .off) else (s.setAllStatus .x .off, none)

/-- The body of step S2 (R110): every bank-D status OFF and every direct pin 0. -/
def shutdownDirect (s : State) : State × Option BusError := applyMask .d 0x00#8 (s.setAllStatus .d .off)

/-- SHUTDOWN (R110, R111): halted, OK and no change; else step S1, whose BusError is kept for the response. S2 and S3 are the
host's next steps (`shutdownPinsStep`, `shutdownHaltStep`). -/
def execShutdown (s : State) : Host.Outcome State Fault Refusal :=
  if s.halted then .next (s.respond .done)
  else withLock .x .host shutdownExpander (fun e t => t.setHost (some (.shutdownPins e))) s

/-- Step S2 of SHUTDOWN (R110). -/
def shutdownPinsStep (err : Option BusError) (s : State) : Host.Outcome State Fault Refusal :=
  withLock .d .host shutdownDirect (fun _ t => t.setHost (some (.shutdownHalt err))) s

/-- Step S3 of SHUTDOWN (R110): `HALTED <- 1`, then the response, which is S1's error if there was one. -/
def shutdownHaltStep (err : Option BusError) (s : State) : Host.Outcome State Fault Refusal :=
  .next (finish err ((s.setHalted true).setHost none))

/-- An illegal command word (R113, R122): IllegalCommand with the word, no state changed, and HALTED not examined. -/
def illegalCommand (w : Word) (s : State) : Host.Outcome State Fault Refusal := .next (s.raise (.illegalCommand w))

/-- A reset while the device runs (R136, R138): every part of the block's state takes its value of R37; the expander keeps its
registers, and the clock, the schedule and what has been returned or seen are not the block's state. -/
def State.restart (s : State) : State :=
  { State.resetWith s.cfg with
    mem := s.mem, now := s.now, inPause := s.inPause, inputs := s.inputs, draws := s.draws, drawCount := s.drawCount,
    responses := s.responses, trace := s.trace }

end Sys2Proof.Machine
end

