-- ==== Sys2Proof/Machine/Agents.lean ====
section
/-! DEFINITION. The agents' turns (spec R88, R98, R129): which agent a scheduled activity must wait for, and the next step of an
agent inside an operation. -/

namespace Sys2Proof.Machine

/-- The host's next step of a command in progress (R98, R110); with none in progress there is nothing to do. -/
def hostStep (s : State) : Host.Outcome State Fault Refusal :=
  match s.host with
  | none => .next s
  | some (.flash b masks) => flashStep b masks s
  | some (.shutdownPins err) => shutdownPinsStep err s
  | some (.shutdownHalt err) => shutdownHaltStep err s

/-- The next step of an agent inside an operation. An edge agent's operation is a single step, so it is never inside one. -/
def agentStep (a : Agent) (s : State) : Host.Outcome State Fault Refusal :=
  match a with
  | .host => hostStep s
  | .renderer b => rendererStep b s
  | .edge _ => .next s

/-- The bank whose renderer a stimulus word starts. -/
def stimulusBank (w : Word) : Option Bank :=
  match decodeStimulus w with
  | .ok i => i.tickBank
  | .error _ => none

/-- The agent an activity has to wait for: the host issues no command before the one in progress has returned (R10, R98),
and a tick of a bank does not start before the tick in progress has ended (R88). -/
def State.waitsFor (s : State) (a : Activity) : Option Agent :=
  match a with
  | .command _ => if s.host.isSome then some .host else none
  | .stimulus w =>
    match stimulusBank w with
    | none => none
    | some b => if (s.bank b).pass.isEmpty then none else some (.renderer b)
  | .hostTurn => none
  | .rendererTurn _ => none
  | .reset => none

/-- The schedule's next entry is taken up: the clock advances by the time since the entry before it, so `now` never decreases
(R35), and `in_pause` takes the consumer's level (R36). -/
def State.takeSlot (s : State) (slot : Slot) (rest : List Slot) : State :=
  { s with now := s.now + slot.elapsed, inPause := slot.inPause, inputs := rest }

/-- The state in which an agent is at the end of its operation: where `withFetchWord` puts the machine when the word it places
would otherwise have to wait. -/
def State.released (s : State) (a : Option Agent) : State :=
  match a with
  | none => s
  | some .host =>
    match s.host with
    | some (.flash b _) => (s.setFlashActive b false).setHost none
    | some (.shutdownPins _) => s.setHost none
    | some (.shutdownHalt _) => s.setHost none
    | none => s
  | some (.renderer b) => s.setPass b []
  | some (.edge _) => s

/-- What a word does at the port that holds its opcode. -/
def portActivity (w : Word) : Activity :=
  match portOf w with
  | .command => .command w
  | .stimulus => .stimulus w

end Sys2Proof.Machine
end

