-- ==== Sys2Proof/Machine/InputMonitor.lean ====
section
/-! DEFINITION. The InputMonitor: EDGE and POLLEV (spec 42_input_monitor.md). -/

namespace Sys2Proof.Machine

/-- An edge the monitor looks at (R101): every rising edge, and on BACK the falling ones too. -/
def observed (p : Line) (k : EdgeKind) : Bool :=
  match p, k with
  | _, .rise => true
  | .back, .fall => true
  | .select, .fall | .up, .fall | .down, .fall => false

/-- An observed edge at time t is inside the window of the last accepted edge on its line (R102). -/
def debounced (last : Option Nat) (window t : Nat) : Bool :=
  match last with
  | none => false
  | some u => decide (t - u < window)

/-- `enqueue(e)` (R9, R27). -/
def State.enqueue (s : State) (e : ButtonEvent) : State := { s with evq := s.evq ++ [e] }

/-- `HOLD_START <- h`. -/
def State.setHoldStart (s : State) (h : Option Nat) : State := { s with holdStart := h }

/-- An edge accepted at the present time (R102): `LAST_EDGE[P] <- t`. -/
def State.acceptEdge (s : State) (p : Line) : State := { s with lastEdge := lineSet s.lastEdge p (some s.now) }

/-- An accepted rising edge (R103, R104): one PRESS; on BACK the hold starts if the consumer is in PAUSE, and no hold is left
if it is not. -/
def pressEdge (p : Line) (s : State) : State :=
  let s1 := s.enqueue { src := p, kind := .press, t := s.now }
  if p = .back then s1.setHoldStart (if s.inPause then some s.now else none) else s1

/-- A hold of this length is a long hold (R105, R106): both thresholds are exclusive. -/
def isLongHold (k : Config) (e : Nat) : Bool := decide (k.longMinMs < e ∧ e < k.longMaxMs)

/-- An accepted falling edge of BACK (R105): the hold is classified and cleared. -/
def releaseEdge (s : State) : State :=
  match s.holdStart with
  | none => s
  | some h =>
    (if isLongHold s.cfg (s.now - h) then s.enqueue { src := .back, kind := .longHold, t := s.now } else s).setHoldStart none

/-- EDGE P, K at t = `now` (R100): one atomic step; it returns nothing to anyone. -/
def execEdge (p : Line) (k : EdgeKind) (s : State) : Host.Outcome State Fault Refusal :=
  .next
    (if s.halted then s
     else if observed p k = false then s
     else if debounced (lineGet s.lastEdge p) s.cfg.debounceMs s.now then s
     else
       match k with
       | .rise => pressEdge p (s.acceptEdge p)
       | .fall => releaseEdge (s.acceptEdge p))

/-- POLLEV (R109): the head of the queue, or OK with no event. -/
def execPollev (s : State) : Host.Outcome State Fault Refusal :=
  guarded [checkHalted s] s
    (match s.evq with
     | [] => .next (s.respond (.withEvent none))
     | e :: rest => .next ({ s with evq := rest }.respond (.withEvent (some e))))

end Sys2Proof.Machine
end

