-- ==== Sys2Proof/Machine/RegisterBus.lean ====
section
/-! DEFINITION. The RegisterBus commands INIT, WROUT and RDIN (spec 40_register_bus.md). -/

namespace Sys2Proof.Machine

/-- The four writes of INIT, in order (R71): port A all-output, port B all-input, port B pull-ups enabled, port B
change-interrupts disabled. -/
def initWrites : List (ExpReg × Byte) :=
  [(.iodirA, 0x00#8), (.iodirB, 0xFF#8), (.gppuB, 0xFF#8), (.gpintenB, 0x00#8)]

/-- The end of INIT: `INITIALIZED <- 1` only when all four writes succeeded; otherwise it keeps its value (R71, R73). -/
def finishInit (e : Option BusError) (s : State) : State :=
  match e with
  | none => (s.setInitialized true).respond .done
  | some b => s.raise (.busError b)

/-- INIT (R71 to R73): it checks HALTED only, and a re-run issues the same four writes again. -/
def execInit (s : State) : Host.Outcome State Fault Refusal :=
  guarded [checkHalted s] s
    (let r := busWrites initWrites s
     .next (finishInit r.2 r.1))

/-- WROUT M (R74, R75): the whole output latch, under `LOCK[X]`; the statuses keep their values. -/
def execWrout (m : Byte) (s : State) : Host.Outcome State Fault Refusal :=
  guarded [checkHalted s, checkInitialized s] s (withLock .x .host (busWrite .olatA m) finish s)

/-- The end of RDIN: OK with the byte read, or the BusError. -/
def finishRead (r : State × Except BusError Byte) : State :=
  match r.2 with
  | .ok v => r.1.respond (.withData v)
  | .error e => r.1.raise (.busError e)

/-- RDIN (R76): one read of port B's input register, without a lock. -/
def execRdin (s : State) : Host.Outcome State Fault Refusal :=
  guarded [checkHalted s, checkInitialized s] s (.next (finishRead (busRead .gpioB s)))

end Sys2Proof.Machine
end

