-- ==== Sys2Proof/Machine/Dispatch.lean ====
section
/-! DEFINITION. One arm per instruction. -/

namespace Sys2Proof.Machine

-- Each arm is one direct call of the instruction's meaning.
def exec (i : Instr) (s : State) : Host.Outcome State Fault Refusal :=
  match i with
  | .init => Sys2Proof.Machine.execInit s
  | .wrout m => Sys2Proof.Machine.execWrout m s
  | .rdin => Sys2Proof.Machine.execRdin s
  | .update b c st => Sys2Proof.Machine.execUpdate b c st s
  | .flash b md => Sys2Proof.Machine.execFlash b md s
  | .pollev => Sys2Proof.Machine.execPollev s
  | .shutdown => Sys2Proof.Machine.execShutdown s
  | .tick b => Sys2Proof.Machine.execTick b s
  | .edge p k => Sys2Proof.Machine.execEdge p k s

end Sys2Proof.Machine
end

