-- ==== Sys2Proof/Machine/Ports.lean ====
section
/-! DEFINITION. The two ports (spec R59, R64, R65): what a word does when it is taken up, and the activities of a run. -/

namespace Sys2Proof.Machine

/-- A word on the command port: a command is run, an illegal word returns IllegalCommand (R64, R113). -/
def runCommand (w : Word) (s : State) : Host.Outcome State Fault Refusal :=
  match decodeCommand w with
  | .ok i => exec i s
  | .error _ => illegalCommand w s

/-- A word on the stimulus port: a stimulus is run, a mis-spelled word is refused (R65). -/
def runStimulus (w : Word) (s : State) : Host.Outcome State Fault Refusal :=
  match decodeStimulus w with
  | .ok i => exec i s
  | .error _ => .refused (.illegalStimulus w)

/-- What a scheduled activity does when it need not wait. -/
def perform (a : Activity) (s : State) : Host.Outcome State Fault Refusal :=
  match a with
  | .command w => runCommand w s
  | .stimulus w => runStimulus w s
  | .hostTurn => hostStep s
  | .rendererTurn b => rendererStep b s
  | .reset => .next s.restart

/-- One step of a run whose schedule begins with `slot`: the activity, or, while it has to wait, the next step of the agent it
waits for, the entry staying where it is. -/
def runSlot (slot : Slot) (rest : List Slot) (s : State) : Host.Outcome State Fault Refusal :=
  match s.waitsFor slot.activity with
  | some a => agentStep a s
  | none => perform slot.activity (s.takeSlot slot rest)

/-- The entry that places a word at its port, at the present time and with `in_pause` as it is. -/
def State.wordSlot (s : State) (w : Word) : Slot := { elapsed := 0, inPause := s.inPause, activity := portActivity w }

end Sys2Proof.Machine
end

