-- ==== Sys2Proof/Machine/Step.lean ====
section
/-! DEFINITION. One step of a run (spec R52, R129), and how a word is placed as the next thing the machine takes up. -/

namespace Sys2Proof.Machine

/-- One atomic step of one agent (R52). With nothing on the schedule no agent steps and the state stays (log 5). -/
def step (s : State) : Host.Outcome State Fault Refusal :=
  match s.inputs with
  | [] => .next s
  | slot :: rest => runSlot slot rest s

/-- The state whose very next step runs the word: it stands first on the schedule, and the agent it would have to wait for is at
the end of its operation (log 5). -/
def State.withFetchWord (s : State) (nbits w : Nat) : State :=
  let word := BitVec.ofNat 16 (w % 2 ^ nbits)
  let t := s.released (s.waitsFor (portActivity word))
  { t with inputs := s.wordSlot word :: s.inputs }

end Sys2Proof.Machine
end

