-- ==== Sys2Proof/Safety.lean ====
section
/-! DEFINITION. What holds of every state a run reaches from reset, and the terms the statements use: levels, frames, whole runs of
one agent. -/

namespace Sys2Proof.Machine

/-! ### Levels -/

/-- The level the block has given a channel: bit c of the output latch on bank X (R20, R47), DOUT[c] on bank D, where `none` is
⊥ (R20). -/
def State.level (s : State) (b : Bank) (c : Nat) : Option Bool :=
  match b with
  | .x => some ((s.exp .olatA).getLsbD c)
  | .d => (s.dout[c]?).getD none

/-- The status of a channel is a blink status. -/
def isBlink : Status → Bool
  | .off => false
  | .on => false
  | .blink _ => true

/-- How many channels of a bank hold a blink status: an uninterrupted tick of bank X makes two transactions for each (R54, R87). -/
def State.blinkCount (s : State) (b : Bank) : Nat := (s.bank b).status.countP isBlink

/-- What an ApplyMask that succeeds shows at the wires (R56): one latch write without a read, or one pin write for each direct
channel in ascending order. -/
def State.maskTrace (s : State) (b : Bank) (m : Byte) : List IoEvent :=
  match b with
  | .x => [.busWrite s.cfg.slaveAddr (s.addr .olatA) m true]
  | .d => (List.range s.cfg.nD).map (fun c => .pinWrite c (s.cfg.pinOut.getD c 0) (m.getLsbD c))

/-! ### The invariant -/

/-- The parameters meet R6, each bank has its channels (R14, R15, R20), no lock is held between steps (R29, R50), and the memory
is in its canonical form. -/
def State.Shape (s : State) : Prop :=
  s.cfg.wf ∧ s.bankX.status.length = Config.nX ∧ s.bankD.status.length = s.cfg.nD ∧ s.dout.length = s.cfg.nD ∧
    s.bankX.lock = none ∧ s.bankD.lock = none ∧ Memory.wf s.mem = true

/-- The renderer's remaining steps are the end of a tick's steps (R87, R88). -/
def State.PassInOrder (s : State) : Prop := ∀ b : Bank, (s.bank b).pass <:+ passSteps (s.count b)

/-- `FLASH_ACTIVE[b]` is 1 exactly while a FLASH on bank b is in progress (R22), and its remaining masks are the end of a flash
sequence (R94 to R96). -/
def State.FlashInOrder (s : State) : Prop :=
  (∀ b : Bank, (s.bank b).flashActive = true ↔ ∃ masks, s.host = some (.flash b masks)) ∧
    ∀ b masks, s.host = some (.flash b masks) → ∃ md, masks <:+ flashSeq s.cfg.flashRepeat (s.count b) md

/-- No accepted edge, hold start or queued event is later than the clock, the events are queued in the order of their times, and a
hold start is the time of the last accepted edge of BACK (R25 to R28, R35). -/
def State.TimesInOrder (s : State) : Prop :=
  (∀ p t, lineGet s.lastEdge p = some t → t ≤ s.now) ∧
    (∀ t, s.holdStart = some t → s.lastEdge.back = some t) ∧
    (∀ e ∈ s.evq, e.t ≤ s.now) ∧ s.evq.Pairwise (fun e f => e.t ≤ f.t)

/-- Before INIT has succeeded no bank-X channel holds a blink status, and no FLASH of bank X is in progress (R85, R94). -/
def State.QuietBeforeInit (s : State) : Prop :=
  s.initialized = false →
    (∀ st ∈ s.bankX.status, isBlink st = false) ∧ ∀ masks, s.host ≠ some (.flash .x masks)

/-- Every status of a bank is OFF. -/
def BankState.AllOff (v : BankState) : Prop := ∀ st ∈ v.status, st = .off

/-- SHUTDOWN's progress and its end (R110, R112): after S1 bank X is OFF; after S2 bank D is OFF too and its pins are 0; halted,
both hold and the host has no command in progress. -/
def State.DarkWhenHalted (s : State) : Prop :=
  (∀ e, s.host = some (.shutdownPins e) → s.bankX.AllOff) ∧
    ((s.halted = true ∨ ∃ e, s.host = some (.shutdownHalt e)) →
      s.bankX.AllOff ∧ s.bankD.AllOff ∧ ∀ v ∈ s.dout, v = some false) ∧
    (s.halted = true → s.host = none)

/-- Everything above. -/
structure State.Inv (s : State) : Prop where
  shape : s.Shape
  passInOrder : s.PassInOrder
  flashInOrder : s.FlashInOrder
  timesInOrder : s.TimesInOrder
  quietBeforeInit : s.QuietBeforeInit
  darkWhenHalted : s.DarkWhenHalted

/-! ### Frames: everything but the fields named keeps its value -/

/-- Only the response list may differ. -/
def OnlyResponse (s t : State) : Prop := t = { s with responses := t.responses }

/-- Only what a bus transaction and a response touch may differ: expander memory, draws, trace, responses. -/
def OnlyBus (s t : State) : Prop :=
  t = { s with mem := t.mem, draws := t.draws, drawCount := t.drawCount, trace := t.trace, responses := t.responses }

/-- Only what pin writes and a response touch may differ: DOUT, trace, responses. -/
def OnlyPins (s t : State) : Prop := t = { s with dout := t.dout, trace := t.trace, responses := t.responses }

/-- Only the expander memory at the address of one register may differ. -/
def OnlyRegister (r : ExpReg) (s t : State) : Prop :=
  ∀ a, a ≠ (s.addr r).toNat → Memory.read t.mem a = Memory.read s.mem a

/-- The two states' statuses of a bank differ at most at one channel. -/
def OnlyStatusAt (b : Bank) (c : Nat) (s t : State) : Prop :=
  (∀ j, j ≠ c → (t.bank b).status[j]? = (s.bank b).status[j]?) ∧
    t.bank b = { s.bank b with status := (t.bank b).status }

/-- The bank that is not b. -/
def otherBank : Bank → Bank
  | .x => .d
  | .d => .x

/-- Everything outside the two banks' records, the outputs, the draws, expander memory, DOUT and the host's progress keeps its
value. -/
def OnlyChannels (s t : State) : Prop :=
  t = { s with
    bankX := t.bankX, bankD := t.bankD, dout := t.dout, mem := t.mem, host := t.host, draws := t.draws,
    drawCount := t.drawCount, trace := t.trace, responses := t.responses }

/-! ### Whole runs of one agent -/

/-- Continue with the state an outcome answers, or stop with its fault or refusal. -/
def andThen (o : Host.Outcome State Fault Refusal) (f : State → Host.Outcome State Fault Refusal) :
    Host.Outcome State Fault Refusal :=
  match o with
  | .next s => f s
  | .fault r => .fault r
  | .refused r => .refused r

/-- n turns of the host, no other agent stepping between. -/
def hostRun : Nat → State → Host.Outcome State Fault Refusal
  | 0, s => .next s
  | n + 1, s => andThen (hostStep s) (hostRun n)

/-- n turns of the renderer of bank b, no other agent stepping between. -/
def rendererRun (b : Bank) : Nat → State → Host.Outcome State Fault Refusal
  | 0, s => .next s
  | n + 1, s => andThen (rendererStep b s) (rendererRun b n)

/-- One whole tick of bank b: T0 and its 3·COUNT(b) steps T(s, c) (R88). -/
def wholeTick (b : Bank) (s : State) : Host.Outcome State Fault Refusal :=
  andThen (exec (.tick b) s) (rendererRun b (3 * s.count b))

/-- k whole ticks of bank b. -/
def wholeTicks (b : Bank) : Nat → State → Host.Outcome State Fault Refusal
  | 0, s => .next s
  | k + 1, s => andThen (wholeTick b s) (wholeTicks b k)

/-- The next n bus transactions all succeed. -/
def State.BusGood (s : State) (n : Nat) : Prop := ∀ k, k < n → (s.drawAt k).ok = true

end Sys2Proof.Machine
end

