-- ==== Sys2Proof/Certificates/Slice0/Obligations.lean ====
section
/-! DEFINITION. The statements for the provers. Each docstring names the rule of spec/ it formalises. -/

open Sys2Proof Sys2Proof.Machine

/-! ### Encoding -/

/-- Words of 95_test_vectors.md section 2.1 decode to the instruction they stand for. That a table word is read at its opcode's port, the
clause of decodeTableWord, is the model's reading (log 15). -/
def Obligations.VectorWordsDecode : Prop :=
  decode .command 0x1000#16 = .ok .init ∧ decode .command 0x20A5#16 = .ok (.wrout 0xA5#8) ∧
    decode .command 0x3000#16 = .ok .rdin ∧ decode .command 0x4303#16 = .ok (.update .x (.chan 3#8) (.blink .med)) ∧
    decode .command 0x49FF#16 = .ok (.update .d .all .on) ∧ decode .command 0x5801#16 = .ok (.flash .d .blink) ∧
    decode .command 0x6000#16 = .ok .pollev ∧ decode .command 0x7000#16 = .ok .shutdown ∧
    decode .stimulus 0xE800#16 = .ok (.tick .d) ∧ decode .stimulus 0xF007#16 = .ok (.edge .back .rise) ∧
    decodeTableWord 16 0xF003 = some (.edge .back .fall) ∧ decode .command 0xF007#16 = .error .wrongPort

/-- Decoding the encoding of a well-formed instruction gives it back, with every operand value (R60, R61, R62, R67). -/
def Obligations.DecodeEncodeRoundTrip : Prop :=
  ∀ i : Instr, i.wf = true → decode i.port (encode i) = .ok i

/-- A word that decodes is the one encoding of what it decodes to, which is well formed and of that port (R66). -/
def Obligations.DecodedWordIsItsEncoding : Prop :=
  ∀ (p : Port) (w : Word) (i : Instr), decode p w = .ok i → encode i = w ∧ i.wf = true ∧ i.port = p

/-- Decoding is total and unique (R66): a word is a legal instruction of a port, or it is rejected there, and the two ports never
both take it; no two rows of the opcode map match one word. -/
def Obligations.WordMatchesAtMostOneRow : Prop :=
  (∀ p w, (∃ i, decode p w = .ok i) ∨ ∃ r, decode p w = .error r) ∧
    (∀ w i j, decode .command w = .ok i → decode .stimulus w ≠ .ok j) ∧
    (∀ (w : Word) (r q : OpcodeRow), r ∈ opcodeTable → q ∈ opcodeTable →
      r.accepts w = true → q.accepts w = true → r = q) ∧
    ∀ (p : Port) (w : Word) (i : Instr), decode p w = .ok i → i.row.accepts w = true ∧ i.row.port = p

/-- The illegal command words (R64), in numbers: `w / 4096` is OP, `w / 256 % 8` is S, `w % 4` is MD, and the remaining quotients
are the reserved bits of each format. Such a word changes no state and returns IllegalCommand with the word (R113, R122). -/
def Obligations.IllegalCommandWords : Prop :=
  ∀ w : Word,
    ((∀ i, decodeCommand w ≠ .ok i) ↔
      w.toNat / 4096 = 0 ∨ 8 ≤ w.toNat / 4096 ∨
        ((w.toNat / 4096 = 1 ∨ w.toNat / 4096 = 3 ∨ w.toNat / 4096 = 6 ∨ w.toNat / 4096 = 7) ∧ w.toNat % 4096 ≠ 0) ∨
        (w.toNat / 4096 = 2 ∧ w.toNat / 256 % 16 ≠ 0) ∨
        (w.toNat / 4096 = 5 ∧ w.toNat / 4 % 512 ≠ 0) ∨
        (w.toNat / 4096 = 4 ∧ 5 ≤ w.toNat / 256 % 8) ∨
        (w.toNat / 4096 = 5 ∧ 2 ≤ w.toNat % 4)) ∧
      ((∀ i, decodeCommand w ≠ .ok i) → ∀ s : State,
        runCommand w s =
          .next { s with responses := s.responses ++ [{ code := .illegalCommand, info := some (.word w) }] })

/-- The mis-spelled stimulus words (R65): OP is neither 0xE nor 0xF, or a reserved bit is set. Such a word is refused. -/
def Obligations.IllegalStimulusWords : Prop :=
  ∀ w : Word,
    ((∀ i, decodeStimulus w ≠ .ok i) ↔
      w.toNat / 4096 < 14 ∨ (w.toNat / 4096 = 14 ∧ w.toNat % 2048 ≠ 0) ∨
        (w.toNat / 4096 = 15 ∧ w.toNat / 8 % 512 ≠ 0)) ∧
      ((∀ i, decodeStimulus w ≠ .ok i) → ∀ s : State, runStimulus w s = .refused (.illegalStimulus w))

/-! ### Steps -/

/-- A step that takes up a command word runs the decoded command, at the clock and `in_pause` of its entry. That a step is taken from a
schedule is the model's form (log 5), and so are the clock and `in_pause` as what an entry sets (log 8). -/
def Obligations.StepRunsDecodedCommand : Prop :=
  ∀ (s : State) (slot : Slot) (rest : List Slot) (w : Word) (i : Instr),
    s.inputs = slot :: rest → slot.activity = .command w → s.host = none → decode .command w = .ok i →
      step s = exec i { s with now := s.now + slot.elapsed, inPause := slot.inPause, inputs := rest }

/-- A step that takes up a stimulus word runs the decoded stimulus; a TICK is taken up when its bank's renderer is between ticks, which
is the model's reading of R88 (log 6). The schedule is the model's form (log 5), and so are the clock and `in_pause` as what an entry
sets (log 8). -/
def Obligations.StepRunsDecodedStimulus : Prop :=
  ∀ (s : State) (slot : Slot) (rest : List Slot) (w : Word) (i : Instr),
    s.inputs = slot :: rest → slot.activity = .stimulus w → decode .stimulus w = .ok i →
      (∀ b, i = .tick b → (s.bank b).pass = []) →
      step s = exec i { s with now := s.now + slot.elapsed, inPause := slot.inPause, inputs := rest }

/-- With no agent inside an operation, a legal word placed by withFetchWord (log 5, the model's) is run by the very next step, on the state
as it was. -/
def Obligations.FetchedWordRunsNext : Prop :=
  ∀ (s : State) (w : Word) (i : Instr),
    s.host = none → s.bankX.pass = [] → s.bankD.pass = [] → decode (portOf w) w = .ok i →
      step (s.withFetchWord 16 w.toNat) = exec i s

/-- Agents inside an operation finish it first: while a FLASH or SHUTDOWN is in progress a command word, legal or not, stays on the
schedule and the host takes its next step (R10, R98); while a tick of a bank runs, a TICK of that bank stays and the renderer takes
its next step (R88). That they wait on a schedule is the model's form (logs 5 and 6). -/
def Obligations.BusyAgentsFinishFirst : Prop :=
  ∀ (s : State) (slot : Slot) (rest : List Slot), s.inputs = slot :: rest →
    (∀ w op, slot.activity = .command w → s.host = some op →
      step s = hostStep s ∧ ∀ t, step s = .next t → t.inputs = s.inputs ∧ t.now = s.now) ∧
    ∀ w b, slot.activity = .stimulus w → decode .stimulus w = .ok (.tick b) → (s.bank b).pass ≠ [] →
      step s = rendererStep b s ∧ ∀ t, step s = .next t → t.inputs = s.inputs ∧ t.now = s.now

/-! ### RegisterBus -/

/-- INIT with its four transactions succeeding (R71, R72), at the first run and at any later one: the four registers, the four writes
in order, INITIALIZED, OK, and nothing else. -/
def Obligations.InitConfiguresExpander : Prop :=
  ∀ s : State, s.cfg.wf → s.halted = false → s.BusGood 4 →
    ∃ t, exec .init s = .next t ∧ t.initialized = true ∧
      t.exp .iodirA = 0x00#8 ∧ t.exp .iodirB = 0xFF#8 ∧ t.exp .gppuB = 0xFF#8 ∧ t.exp .gpintenB = 0x00#8 ∧
      (∀ a, a ≠ (s.addr .iodirA).toNat → a ≠ (s.addr .iodirB).toNat → a ≠ (s.addr .gppuB).toNat →
        a ≠ (s.addr .gpintenB).toNat → Memory.read t.mem a = Memory.read s.mem a) ∧
      t.trace = s.trace ++
        [.busWrite s.cfg.slaveAddr (s.addr .iodirA) 0x00#8 true, .busWrite s.cfg.slaveAddr (s.addr .iodirB) 0xFF#8 true,
          .busWrite s.cfg.slaveAddr (s.addr .gppuB) 0xFF#8 true, .busWrite s.cfg.slaveAddr (s.addr .gpintenB) 0x00#8 true] ∧
      t.responses = s.responses ++ [{ code := .ok }] ∧ OnlyBus { s with initialized := true } t

/-- INIT whose write number k fails (R73): the writes before it stand, its own register holds the draw of R44, the writes after it are
not issued, INITIALIZED keeps its value, and the error names the register and WRITE. -/
def Obligations.InitStopsAtFailedWrite : Prop :=
  ∀ (s : State) (k : Nat), s.cfg.wf → s.halted = false → k < 4 → s.BusGood k → (s.drawAt k).ok = false →
    let l : List (ExpReg × Byte) := [(.iodirA, 0x00#8), (.iodirB, 0xFF#8), (.gppuB, 0xFF#8), (.gpintenB, 0x00#8)]
    ∃ t, exec .init s = .next t ∧
      (∀ j r v, j < k → l[j]? = some (r, v) → t.exp r = v) ∧
      (∀ r v, l[k]? = some (r, v) →
        (t.exp r = if (s.drawAt k).landed then v else s.exp r) ∧
        t.responses = s.responses ++ [{ code := .busError, reg := some (s.addr r), dir := some .write }]) ∧
      (∀ j r v, k < j → l[j]? = some (r, v) → t.exp r = s.exp r) ∧
      (∀ a, (∀ p ∈ l, a ≠ (s.addr p.1).toNat) → Memory.read t.mem a = Memory.read s.mem a) ∧
      t.trace = s.trace ++ ((l.take k).map (fun p => .busWrite s.cfg.slaveAddr (s.addr p.1) p.2 true) ++
        ((l.drop k).take 1).map (fun p => .busWrite s.cfg.slaveAddr (s.addr p.1) p.2 false)) ∧ OnlyBus s t

/-- WROUT M with its transaction succeeding (R74, R75): the latch holds M by one write, OK; statuses and all else keep their value. -/
def Obligations.WroutWritesLatch : Prop :=
  ∀ (s : State) (m : Byte), s.halted = false → s.initialized = true → s.bankX.lock = none → s.BusGood 1 →
    ∃ t, exec (.wrout m) s = .next t ∧ t.exp .olatA = m ∧ OnlyRegister .olatA s t ∧
      t.trace = s.trace ++ [.busWrite s.cfg.slaveAddr (s.addr .olatA) m true] ∧
      t.responses = s.responses ++ [{ code := .ok }] ∧ OnlyBus s t

/-- RDIN with its transaction succeeding (R45, R76): OK with the drawn port-B levels, whatever they are, by one read; no register
changes. -/
def Obligations.RdinReturnsPortB : Prop :=
  ∀ s : State, s.halted = false → s.initialized = true → s.BusGood 1 →
    ∃ t, exec .rdin s = .next t ∧ t.mem = s.mem ∧
      t.trace = s.trace ++ [.busRead s.cfg.slaveAddr (s.addr .gpioB) (some s.nextDraw.portB)] ∧
      t.responses = s.responses ++ [{ code := .ok, data := some s.nextDraw.portB }] ∧ OnlyBus s t

/-- A failed transaction (R44): a failed write leaves its register with the old or the written value and no other register changed; a
failed read changes no register; the error names the register address and the direction (R43). -/
def Obligations.FailedTransactionEffects : Prop :=
  ∀ (s : State) (r : ExpReg) (v : Byte), s.nextDraw.ok = false →
    (busWrite r v s).2 = some { reg := s.addr r, dir := .write } ∧
    ((busWrite r v s).1.exp r = if s.nextDraw.landed then v else s.exp r) ∧
    OnlyRegister r s (busWrite r v s).1 ∧
    (busRead r s).2 = .error { reg := s.addr r, dir := .read } ∧ (busRead r s).1.mem = s.mem

/-- WROUT and RDIN whose transaction fails (R74, R76, R120): the command returns the BusError, and nothing but the latch (WROUT) may
have changed. -/
def Obligations.BusErrorGoesToCaller : Prop :=
  ∀ s : State, s.halted = false → s.initialized = true → s.nextDraw.ok = false →
    (∀ m, s.bankX.lock = none → ∃ t, exec (.wrout m) s = .next t ∧
      (t.exp .olatA = if s.nextDraw.landed then m else s.exp .olatA) ∧ OnlyRegister .olatA s t ∧
      t.responses = s.responses ++ [{ code := .busError, reg := some (s.addr .olatA), dir := some .write }] ∧
      OnlyBus s t) ∧
    ∃ t, exec .rdin s = .next t ∧ t.mem = s.mem ∧
      t.responses = s.responses ++ [{ code := .busError, reg := some (s.addr .gpioB), dir := some .read }] ∧ OnlyBus s t

/-! ### Checks -/

/-- NotInitialized (R121): WROUT, RDIN, and UPDATE and FLASH on bank X, when INITIALIZED = 0; no state changes. For UPDATE the channel
is in range or ALL, and the block is not halted, since those errors come first (R125). -/
def Obligations.NotInitializedCommands : Prop :=
  ∀ (s : State) (i : Instr), s.halted = false → s.initialized = false →
    ((∃ m, i = .wrout m) ∨ i = .rdin ∨ (∃ md, i = .flash .x md) ∨
      ∃ c st, i = .update .x c st ∧ (c = .all ∨ ∃ n : Byte, c = .chan n ∧ n.toNat < 8)) →
    exec i s = .next { s with responses := s.responses ++ [{ code := .notInitialized }] }

/-- Halted (R123): every host command other than SHUTDOWN, once HALTED = 1; no state changes. -/
def Obligations.HaltedCommands : Prop :=
  ∀ (s : State) (i : Instr), s.halted = true → i.port = .command → i ≠ .shutdown →
    exec i s = .next { s with responses := s.responses ++ [{ code := .halted }] }

/-- The checks of UPDATE in their order (R80, R84, R119, R125): an out-of-range channel, even before INIT; then INITIALIZED on bank X;
then the refusal of a broadcast blink. None changes any state. -/
def Obligations.UpdateChecksInOrder : Prop :=
  ∀ (s : State) (b : Bank) (st : Status), s.halted = false →
    (∀ n : Byte, n ≠ 0xFF#8 → s.count b ≤ n.toNat →
      exec (.update b (.chan n) st) s = .next
        { s with responses := s.responses ++ [{ code := .invalidChannel, info := some (.channel b n) }] }) ∧
    (∀ n : Byte, n.toNat < s.count b → b = .x → s.initialized = false →
      exec (.update b (.chan n) st) s = .next { s with responses := s.responses ++ [{ code := .notInitialized }] }) ∧
    (b = .x → s.initialized = false →
      exec (.update b .all st) s = .next { s with responses := s.responses ++ [{ code := .notInitialized }] }) ∧
    ∀ r, (b = .x → s.initialized = true) → exec (.update b .all (.blink r)) s = .refused .broadcastBlink

/-! ### UPDATE -/

/-- UPDATE X, C, ON or OFF with its transactions succeeding (R54, R79, R81, R86): the status and bit C of the latch, by one read and one
write, also when nothing changes; the other seven bits, the other statuses and all else keep their value. -/
def Obligations.UpdateExpanderLamp : Prop :=
  ∀ (s : State) (c : Byte) (st : Status) (lvl : Bool),
    (st = .on ∧ lvl = true ∨ st = .off ∧ lvl = false) → c.toNat < 8 → s.bankX.status.length = 8 →
    s.halted = false → s.initialized = true → s.bankX.lock = none → s.BusGood 2 →
    ∃ t, exec (.update .x (.chan c) st) s = .next t ∧ t.bankX.status[c.toNat]? = some st ∧ OnlyStatusAt .x c.toNat s t ∧
      t.level .x c.toNat = some lvl ∧ (∀ j, j < 8 → j ≠ c.toNat → t.level .x j = s.level .x j) ∧ OnlyRegister .olatA s t ∧
      t.trace = s.trace ++ [.busRead s.cfg.slaveAddr (s.addr .olatA) (some (s.exp .olatA)),
        .busWrite s.cfg.slaveAddr (s.addr .olatA) (t.exp .olatA) true] ∧
      t.responses = s.responses ++ [{ code := .ok }] ∧ OnlyBus { s with bankX := t.bankX } t

/-- UPDATE X, C, ON or OFF whose read or write fails (R81): the status keeps the new value; after a failed read no register has changed,
after a failed write the latch is as before or has bit C set to the level; the error goes to the host. -/
def Obligations.UpdateKeepsStatusOnBusError : Prop :=
  ∀ (s : State) (c : Byte) (st : Status) (lvl : Bool),
    (st = .on ∧ lvl = true ∨ st = .off ∧ lvl = false) → c.toNat < 8 → s.bankX.status.length = 8 →
    s.halted = false → s.initialized = true → s.bankX.lock = none → s.nextDraw.ok = false ∨ (s.drawAt 1).ok = false →
    ∃ t, exec (.update .x (.chan c) st) s = .next t ∧ t.bankX.status[c.toNat]? = some st ∧ OnlyStatusAt .x c.toNat s t ∧
      (s.nextDraw.ok = false → t.mem = s.mem ∧
        t.responses = s.responses ++ [{ code := .busError, reg := some (s.addr .olatA), dir := some .read }]) ∧
      (s.nextDraw.ok = true →
        (t.exp .olatA = if (s.drawAt 1).landed then withBit (s.exp .olatA) c.toNat lvl else s.exp .olatA) ∧
        t.responses = s.responses ++ [{ code := .busError, reg := some (s.addr .olatA), dir := some .write }]) ∧
      OnlyRegister .olatA s t ∧ OnlyBus { s with bankX := t.bankX } t

/-- UPDATE D, C, ON or OFF (R55, R79, R85): the status and the pin, by one pin write; INITIALIZED does not matter and no bus
transaction is made. -/
def Obligations.UpdateDirectLamp : Prop :=
  ∀ (s : State) (c : Byte) (st : Status) (lvl : Bool),
    (st = .on ∧ lvl = true ∨ st = .off ∧ lvl = false) → c.toNat < s.cfg.nD → s.bankD.status.length = s.cfg.nD →
    s.dout.length = s.cfg.nD → s.halted = false → s.bankD.lock = none →
    ∃ t, exec (.update .d (.chan c) st) s = .next t ∧ t.bankD.status[c.toNat]? = some st ∧ OnlyStatusAt .d c.toNat s t ∧
      t.level .d c.toNat = some lvl ∧ (∀ j, j ≠ c.toNat → t.dout[j]? = s.dout[j]?) ∧
      t.trace = s.trace ++ [.pinWrite c.toNat (s.cfg.pinOut.getD c.toNat 0) lvl] ∧
      t.responses = s.responses ++ [{ code := .ok }] ∧ OnlyPins { s with bankD := t.bankD } t

/-- UPDATE of one channel with a blink status (R82), on either bank: the status and OK, no bus transaction, no pin write, the lamp as it
was. -/
def Obligations.UpdateBlinkOnlyRecords : Prop :=
  ∀ (s : State) (b : Bank) (c : Byte) (r : Blink), c.toNat < s.count b → (s.bank b).status.length = s.count b →
    s.halted = false → (b = .x → s.initialized = true) →
    ∃ t, exec (.update b (.chan c) (.blink r)) s = .next t ∧ (t.bank b).status[c.toNat]? = some (.blink r) ∧
      OnlyStatusAt b c.toNat s t ∧ t.bank (otherBank b) = s.bank (otherBank b) ∧
      (∀ j, t.level b j = s.level b j) ∧ t.trace = s.trace ∧
      t.responses = s.responses ++ [{ code := .ok }] ∧
      OnlyResponse { s with bankX := t.bankX, bankD := t.bankD } t

/-- UPDATE of ALL channels with ON or OFF (R83): every status; on bank X one write of 0xFF or 0x00 without a read, on bank D one pin
write for each channel in ascending order; on a BusError the statuses keep the new value. -/
def Obligations.UpdateAllChannels : Prop :=
  ∀ (s : State) (st : Status) (lvl : Bool), (st = .on ∧ lvl = true ∨ st = .off ∧ lvl = false) → s.halted = false →
    (s.initialized = true → s.bankX.lock = none →
      ∃ t, exec (.update .x .all st) s = .next t ∧ t.bankX = { s.bankX with status := List.replicate 8 st } ∧
        t.trace = s.trace ++ [.busWrite s.cfg.slaveAddr (s.addr .olatA) (if lvl then 0xFF#8 else 0x00#8) s.nextDraw.ok] ∧
        (s.nextDraw.ok = true → t.exp .olatA = (if lvl then 0xFF#8 else 0x00#8) ∧
          t.responses = s.responses ++ [{ code := .ok }]) ∧
        (s.nextDraw.ok = false →
          (t.exp .olatA = if s.nextDraw.landed then (if lvl then 0xFF#8 else 0x00#8) else s.exp .olatA) ∧
          t.responses = s.responses ++ [{ code := .busError, reg := some (s.addr .olatA), dir := some .write }]) ∧
        OnlyRegister .olatA s t ∧ OnlyBus { s with bankX := t.bankX } t) ∧
    (s.bankD.lock = none → s.cfg.nD ≤ 8 → s.dout.length = s.cfg.nD →
      ∃ t, exec (.update .d .all st) s = .next t ∧
        t.bankD = { s.bankD with status := List.replicate s.cfg.nD st } ∧ t.dout = List.replicate s.cfg.nD (some lvl) ∧
        t.trace = s.trace ++ (List.range s.cfg.nD).map (fun c => .pinWrite c (s.cfg.pinOut.getD c 0) lvl) ∧
        t.responses = s.responses ++ [{ code := .ok }] ∧ OnlyPins { s with bankD := t.bankD } t)

/-! ### TICK -/

/-- TICK B, not halted (R17, R87): step T0 advances the phase modulo 8 and the steps T(s, c) lie ahead in the order LONG, MED, SHORT,
channels ascending; nothing else changes, and nothing is returned to the host. -/
def Obligations.TickStartsPass : Prop :=
  ∀ (s : State) (b : Bank), s.halted = false →
    ∃ t, exec (.tick b) s = .next t ∧ (t.bank b).phase.toNat = ((s.bank b).phase.toNat + 1) % 8 ∧
      (t.bank b).pass =
        [Blink.long, Blink.med, Blink.short].flatMap (fun r => (List.range (s.count b)).map (fun c => (r, c))) ∧
      t = s.setBank b { s.bank b with phase := (t.bank b).phase, pass := (t.bank b).pass }

/-- The renderer's step T(s, c) (R18, R78, R87, R88). On a channel that holds s at that step, neither halted nor in a flash, with its
transactions succeeding on bank X: the channel takes the phase bit of its rate; every other channel's level, all statuses, both phases
and all else keep their value. In every other case, in a tick already under way when a FLASH began or SHUTDOWN halted the block too, the
step changes nothing but the renderer's place. -/
def Obligations.RendererStepAppliesPhaseBit : Prop :=
  ∀ (s : State) (b : Bank) (r : Blink) (c : Nat) (rest : List (Blink × Nat)),
    (s.bank b).pass = (r, c) :: rest → (s.bank b).lock = none →
    (s.halted = false → (s.bank b).flashActive = false → (s.bank b).status[c]? = some (.blink r) →
      s.bankX.status.length = 8 → s.dout.length = s.bankD.status.length → (b = .x → s.BusGood 2) →
      ∃ t, rendererStep b s = .next t ∧
        t.level b c = some ((s.bank b).phase.getLsbD (if r = .short then 0 else if r = .med then 1 else 2)) ∧
        (∀ j, j < 8 → j ≠ c → t.level b j = s.level b j) ∧ (∀ j, t.level (otherBank b) j = s.level (otherBank b) j) ∧
        t.bank b = { s.bank b with pass := rest } ∧ t.bank (otherBank b) = s.bank (otherBank b) ∧
        t.responses = s.responses ∧ OnlyRegister .olatA s t ∧ OnlyChannels s t ∧ t.host = s.host) ∧
    (s.halted = true ∨ (s.bank b).flashActive = true ∨ (s.bank b).status[c]? ≠ some (.blink r) →
      rendererStep b s = .next (s.setBank b { s.bank b with pass := rest }))

/-- A BusError inside a tick (R89): the rest of the tick is skipped, the phase and the statuses stand, and the host is told nothing. -/
def Obligations.RendererDropsBusError : Prop :=
  ∀ (s : State) (r : Blink) (c : Nat) (rest : List (Blink × Nat)),
    s.bankX.pass = (r, c) :: rest → s.bankX.lock = none → s.halted = false → s.bankX.flashActive = false →
    s.bankX.status[c]? = some (.blink r) → s.nextDraw.ok = false ∨ (s.drawAt 1).ok = false →
    ∃ t, rendererStep .x s = .next t ∧ t.bankX = { s.bankX with pass := [] } ∧ OnlyRegister .olatA s t ∧
      t.responses = s.responses ∧ OnlyBus { s with bankX := t.bankX } t

/-- The corner cases of a whole tick (R90): with no channel of the bank blinking, or during a flash, or on bank X before INIT, it
only advances the phase; after SHUTDOWN it does nothing at all. Whatever a tick applies and whether its transactions succeed, the phase
it leaves is the next one, 0 after 7. -/
def Obligations.TickCornerCases : Prop :=
  ∀ (s : State) (b : Bank), (s.bank b).pass = [] → (s.bank b).lock = none →
    (s.halted = true → wholeTick b s = .next s) ∧
    (s.halted = false →
      ((∀ st ∈ (s.bank b).status, isBlink st = false) ∨ (s.bank b).flashActive = true ∨
        (b = .x ∧ s.initialized = false ∧ s.QuietBeforeInit)) →
      wholeTick b s = .next (s.setBank b { s.bank b with phase := (s.bank b).phase + 1#3 })) ∧
    (s.halted = false →
      ∃ t, wholeTick b s = .next t ∧ (t.bank b).phase.toNat = ((s.bank b).phase.toNat + 1) % 8 ∧
        ((s.bank b).phase = 7#3 → (t.bank b).phase = 0#3))

/-- One whole tick that no other agent interrupts, with no bus error in its own transactions, two for each blinking channel (R19, R78, R87,
R93): every blinking channel of the bank shows the new phase's bit of its rate, so channels of one rate agree; every ON or OFF channel
keeps its level; statuses and all else stay. -/
def Obligations.WholeTickShowsPhase : Prop :=
  ∀ (s : State) (b : Bank), s.Inv → s.halted = false → (s.bank b).flashActive = false → (s.bank b).pass = [] →
    (b = .x → s.BusGood (2 * s.blinkCount .x)) →
    ∃ t, wholeTick b s = .next t ∧
      t.bank b = { s.bank b with phase := (s.bank b).phase + 1#3 } ∧ t.bank (otherBank b) = s.bank (otherBank b) ∧
      (∀ c r, (s.bank b).status[c]? = some (.blink r) →
        t.level b c = some (subphase ((s.bank b).phase + 1#3) r)) ∧
      (∀ c st, (s.bank b).status[c]? = some st → isBlink st = false → t.level b c = s.level b c) ∧
      (∀ c, t.level (otherBank b) c = s.level (otherBank b) c) ∧ OnlyRegister .olatA s t ∧
      t.responses = s.responses ∧ t.host = s.host ∧ OnlyChannels s t

/-- The blink rates (R92): after the k-th whole tick of a bank since its phase was 0, with no bus error, a channel that holds blink
status s has bit `blinkBit(s)` of `k mod 8` as its level. -/
def Obligations.BlinkRatesOverTicks : Prop :=
  ∀ (s : State) (b : Bank) (k : Nat), s.Inv → s.halted = false → (s.bank b).flashActive = false → (s.bank b).pass = [] →
    (s.bank b).phase = 0#3 → (b = .x → s.BusGood (k * (2 * s.blinkCount .x))) →
    ∃ t, wholeTicks b k s = .next t ∧ (t.bank b).status = (s.bank b).status ∧ (t.bank b).phase.toNat = k % 8 ∧
      (0 < k → ∀ c r, (s.bank b).status[c]? = some (.blink r) →
        t.level b c = some ((k % 8).testBit (if r = .short then 0 else if r = .med then 1 else 2)))

/-- ON is steady (R93), one step at a time: a channel that holds ON before and after a step and was lit is lit, whatever the step is and
whether its transactions succeed, unless a FLASH of its bank is active or, on bank X, the step takes up a WROUT. -/
def Obligations.OnLampStaysLit : Prop :=
  ∀ (s t : State) (b : Bank) (c : Nat), s.Inv → step s = .next t → (s.bank b).status[c]? = some .on →
    (t.bank b).status[c]? = some .on → s.level b c = some true → (s.bank b).flashActive = false →
    (b = .x → ∀ slot rest w m, s.inputs = slot :: rest → slot.activity = .command w →
      decode .command w ≠ .ok (.wrout m)) →
    t.level b c = some true

/-! ### FLASH -/

/-- FLASH B, MD (R94): step F0 sets FLASH_ACTIVE and puts the sequence before the host; no lamp, status or phase changes, and there is
no response yet. On bank D it does not need INIT. -/
def Obligations.FlashStarts : Prop :=
  ∀ (s : State) (b : Bank) (md : FlashMode), s.halted = false → (b = .x → s.initialized = true) →
    exec (.flash b md) s = .next
      { s.setBank b { s.bank b with flashActive := true } with
        host := some (.flash b (flashSeq s.cfg.flashRepeat (s.count b) md)) }

/-- The SWEEP masks (R95): 2n of them, channels lit one by one in ascending order, then darkened one by one. -/
def Obligations.SweepSequence : Prop :=
  ∀ rep n : Nat, n ≤ 8 →
    (flashSeq rep n .sweep).length = 2 * n ∧
    (∀ k, k < n → (flashSeq rep n .sweep)[k]? = some (BitVec.ofNat 8 (2 ^ (k + 1) - 1))) ∧
    (∀ k, k < n → (flashSeq rep n .sweep)[n + k]? =
      some (BitVec.ofNat 8 (2 ^ n - 1) &&& ~~~BitVec.ofNat 8 (2 ^ (k + 1) - 1))) ∧
    (n = 8 → flashSeq rep n .sweep = [0x01#8, 0x03#8, 0x07#8, 0x0F#8, 0x1F#8, 0x3F#8, 0x7F#8, 0xFF#8,
      0xFE#8, 0xFC#8, 0xF8#8, 0xF0#8, 0xE0#8, 0xC0#8, 0x80#8, 0x00#8]) ∧
    (n = 4 → flashSeq rep n .sweep = [0x1#8, 0x3#8, 0x7#8, 0xF#8, 0xE#8, 0xC#8, 0x8#8, 0x0#8])

/-- The BLINK masks (R96): the full mask and 0x00, FLASH_REPEAT times, and FLASH_REPEAT is at least 1. -/
def Obligations.BlinkSequence : Prop :=
  ∀ (k : Config) (n : Nat), k.wf → 1 ≤ k.flashRepeat ∧ (flashSeq k.flashRepeat n .blink).length = 2 * k.flashRepeat ∧
    ∀ j, j < k.flashRepeat → (flashSeq k.flashRepeat n .blink)[2 * j]? = some (BitVec.ofNat 8 (2 ^ n - 1)) ∧
      (flashSeq k.flashRepeat n .blink)[2 * j + 1]? = some 0x00#8

/-- A step of FLASH on bank X whose latch write fails, a mask or the restore (R97): the same step clears FLASH_ACTIVE, the rest is
skipped, the latch is as the failed write left it, the statuses stand, and the error goes to the host. -/
def Obligations.FlashEndsOnBusError : Prop :=
  ∀ (s : State) (masks : List Byte), s.host = some (.flash .x masks) → s.bankX.lock = none → s.nextDraw.ok = false →
    ∃ t, hostStep s = .next t ∧ t.host = none ∧ t.bankX = { s.bankX with flashActive := false } ∧
      (t.exp .olatA = if s.nextDraw.landed then masks.headD (s.statusMask .x) else s.exp .olatA) ∧
      OnlyRegister .olatA s t ∧
      t.responses = s.responses ++ [{ code := .busError, reg := some (s.addr .olatA), dir := some .write }] ∧
      OnlyBus { s with bankX := t.bankX, host := none } t

/-- One step of FLASH after F0 that meets no bus error, from any state, whatever other agents have changed since F0 (R94, R98). A mask:
every channel of the bank takes its bit of it, and the host goes on to the remaining masks. The restore FR, with no mask left: every
channel takes the level its status gives at the phase there is at this step, FLASH_ACTIVE is 0, and OK is returned. The wires show one
latch write without a read, or one pin write for each direct channel in ascending order; statuses, phases and the other bank's levels
stay. -/
def Obligations.FlashStepApplies : Prop :=
  ∀ (s : State) (b : Bank) (masks : List Byte), s.host = some (.flash b masks) → (s.bank b).lock = none →
    (b = .x → s.nextDraw.ok = true) → (b = .d → s.dout.length = s.cfg.nD) →
    ∃ t, hostStep s = .next t ∧ (∀ c, t.level (otherBank b) c = s.level (otherBank b) c) ∧ OnlyRegister .olatA s t ∧
      t.bank (otherBank b) = s.bank (otherBank b) ∧ t.trace = s.trace ++ s.maskTrace b (masks.headD (s.statusMask b)) ∧
      OnlyChannels s t ∧
      (∀ m rest, masks = m :: rest →
        (∀ c, c < s.count b → t.level b c = some (m.getLsbD c)) ∧ t.bank b = s.bank b ∧
          t.host = some (.flash b rest) ∧ t.responses = s.responses) ∧
      (masks = [] →
        (∀ c st, c < s.count b → c < 8 → (s.bank b).status[c]? = some st →
          t.level b c = some (levelOf (s.bank b).phase st)) ∧
          t.bank b = { s.bank b with flashActive := false } ∧ t.host = none ∧
          t.responses = s.responses ++ [{ code := .ok }])

/-- A whole FLASH that no other agent interrupts, with no bus error (R94, R98): F0, one step for each mask, and the restore, after which
every channel of the bank has the level its status gives at the phase there is; statuses, phases and the other bank stay, FLASH_ACTIVE
is 0 and OK is returned. The wires show the masks and the restore: on bank X one latch write each, without a read, on bank D one pin
write for each channel of each, in ascending order. -/
def Obligations.WholeFlashRestores : Prop :=
  ∀ (s : State) (b : Bank) (md : FlashMode), s.Inv → s.halted = false → s.host = none → (b = .x → s.initialized = true) →
    let masks := flashSeq s.cfg.flashRepeat (s.count b) md
    (b = .x → s.BusGood (masks.length + 1)) →
    ∃ s0 t, exec (.flash b md) s = .next s0 ∧ hostRun (masks.length + 1) s0 = .next t ∧
      (∀ c st, (s.bank b).status[c]? = some st → t.level b c = some (levelOf (s.bank b).phase st)) ∧
      (∀ c, t.level (otherBank b) c = s.level (otherBank b) c) ∧ OnlyRegister .olatA s t ∧
      t.bank b = s.bank b ∧ t.bank (otherBank b) = s.bank (otherBank b) ∧ t.host = none ∧
      t.responses = s.responses ++ [{ code := .ok }] ∧
      t.trace = s.trace ++ (masks ++ [s.statusMask b]).flatMap (s.maskTrace b) ∧
      OnlyChannels s t

/-! ### InputMonitor -/

/-- Debounce and the edges observed (R101, R102): a falling edge of SELECT, UP or DOWN does nothing; any other edge within the window of
the last accepted edge on its line does nothing; otherwise it is accepted, which sets that line's LAST_EDGE to now and no other's. An
edge changes nothing but LAST_EDGE, HOLD_START and EVQ. -/
def Obligations.EdgeDebouncePerLine : Prop :=
  ∀ (s : State) (p : Line) (k : EdgeKind), s.halted = false →
    (p ≠ .back → k = .fall → exec (.edge p k) s = .next s) ∧
    (p = .back ∨ k = .rise →
      (∀ u, lineGet s.lastEdge p = some u → s.now - u < s.cfg.debounceMs → exec (.edge p k) s = .next s) ∧
      ((∀ u, lineGet s.lastEdge p = some u → s.cfg.debounceMs ≤ s.now - u) →
        ∃ t, exec (.edge p k) s = .next t ∧ lineGet t.lastEdge p = some s.now ∧
          (∀ q, q ≠ p → lineGet t.lastEdge q = lineGet s.lastEdge q) ∧
          t = { s with lastEdge := t.lastEdge, holdStart := t.holdStart, evq := t.evq }))

/-- An accepted rising edge (R103, R104): one PRESS of its line at now; on BACK, HOLD_START is now in PAUSE and none outside it,
whatever it was; on the other lines it stays. -/
def Obligations.PressAndHoldStart : Prop :=
  ∀ (s : State) (p : Line), s.halted = false →
    (∀ u, lineGet s.lastEdge p = some u → s.cfg.debounceMs ≤ s.now - u) →
    ∃ t, exec (.edge p .rise) s = .next t ∧ t.evq = s.evq ++ [{ src := p, kind := .press, t := s.now }] ∧
      (p = .back → t.holdStart = if s.inPause then some s.now else none) ∧
      (p ≠ .back → t.holdStart = s.holdStart) ∧
      lineGet t.lastEdge p = some s.now ∧ t = { s with lastEdge := t.lastEdge, holdStart := t.holdStart, evq := t.evq }

/-- An accepted falling edge of BACK (R105, R106): LONGHOLD exactly when the hold's length is strictly between the two thresholds,
whatever in_pause is; HOLD_START is cleared in every case. -/
def Obligations.LongHoldWindow : Prop :=
  ∀ s : State, s.halted = false → (∀ u, s.lastEdge.back = some u → s.cfg.debounceMs ≤ s.now - u) →
    ∃ t, exec (.edge .back .fall) s = .next t ∧ t.holdStart = none ∧ t.lastEdge.back = some s.now ∧
      (s.holdStart = none → t.evq = s.evq) ∧
      (∀ h, s.holdStart = some h → s.cfg.longMinMs < s.now - h → s.now - h < s.cfg.longMaxMs →
        t.evq = s.evq ++ [{ src := .back, kind := .longHold, t := s.now }]) ∧
      (∀ h, s.holdStart = some h → s.now - h ≤ s.cfg.longMinMs ∨ s.cfg.longMaxMs ≤ s.now - h → t.evq = s.evq) ∧
      t = { s with lastEdge := { s.lastEdge with back := some s.now }, holdStart := none, evq := t.evq }

/-- An accepted release of BACK ends a hold no shorter than the debounce window (R106): `e < DEBOUNCE_MS` cannot occur. -/
def Obligations.AcceptedReleaseOutlastsDebounce : Prop :=
  ∀ (s t : State) (h : Nat), s.Inv → s.halted = false → s.holdStart = some h → exec (.edge .back .fall) s = .next t →
    t.holdStart = none → s.cfg.debounceMs ≤ s.now - h ∧ h ≤ s.now

/-- POLLEV, word 0x6000 (R109): Halted after SHUTDOWN; else OK with the head of the queue, which is removed, or with no event from an
empty queue; it does not need INIT. -/
def Obligations.PollTakesOldestEvent : Prop :=
  (encode .pollev = 0x6000#16 ∧ decode .command 0x6000#16 = .ok .pollev) ∧ ∀ s : State,
    (s.halted = true → exec .pollev s = .next { s with responses := s.responses ++ [{ code := .halted }] }) ∧
    (s.halted = false → s.evq = [] → exec .pollev s = .next { s with responses := s.responses ++ [{ code := .ok }] }) ∧
    ∀ e rest, s.halted = false → s.evq = e :: rest →
      exec .pollev s = .next { s with evq := rest, responses := s.responses ++ [{ code := .ok, event := some e }] }

/-! ### SHUTDOWN -/

/-- SHUTDOWN's first step (R110, S1): every bank-X status OFF and, if INITIALIZED, one latch write of 0x00 whose error is kept, without a read
and as the one transaction of the step; no response yet; the rest of the path lies before the host whether the write failed or not. That
S1 is a step of its own is log 7. -/
def Obligations.ShutdownBegins : Prop :=
  ∀ s : State, s.halted = false → s.bankX.lock = none →
    ∃ t, exec .shutdown s = .next t ∧ t.bankX = { s.bankX with status := List.replicate 8 .off } ∧
      (s.initialized = false → t.mem = s.mem ∧ t.trace = s.trace ∧ t.host = some (.shutdownPins none)) ∧
      (s.initialized = true →
        t.trace = s.trace ++ [.busWrite s.cfg.slaveAddr (s.addr .olatA) 0x00#8 s.nextDraw.ok]) ∧
      (s.initialized = true → s.nextDraw.ok = true → t.exp .olatA = 0x00#8 ∧ t.host = some (.shutdownPins none)) ∧
      (s.initialized = true → s.nextDraw.ok = false →
        (t.exp .olatA = if s.nextDraw.landed then 0x00#8 else s.exp .olatA) ∧
        t.host = some (.shutdownPins (some { reg := s.addr .olatA, dir := .write }))) ∧
      OnlyRegister .olatA s t ∧ t.responses = s.responses ∧ OnlyBus { s with bankX := t.bankX, host := t.host } t

/-- The later steps of SHUTDOWN (R110), from any state, whatever other agents have changed since S1. S2: every bank-D status OFF and one
pin write of 0 for each direct channel in ascending order, no bus transaction. S3: HALTED, the host free, and OK or the error S1 kept.
That they are steps of their own is log 7. -/
def Obligations.ShutdownContinues : Prop :=
  (∀ (s : State) (err : Option BusError), s.host = some (.shutdownPins err) → s.bankD.lock = none →
    s.dout.length = s.cfg.nD →
    ∃ t, hostStep s = .next t ∧ t.bankD = { s.bankD with status := List.replicate s.cfg.nD .off } ∧
      t.dout = List.replicate s.cfg.nD (some false) ∧ t.host = some (.shutdownHalt err) ∧
      t.trace = s.trace ++ (List.range s.cfg.nD).map (fun c => .pinWrite c (s.cfg.pinOut.getD c 0) false) ∧
      t.responses = s.responses ∧ OnlyPins { s with bankD := t.bankD, host := t.host } t) ∧
  (∀ s : State, s.host = some (.shutdownHalt none) →
    hostStep s = .next { s with halted := true, host := none, responses := s.responses ++ [{ code := .ok }] }) ∧
  ∀ (s : State) (e : BusError), s.host = some (.shutdownHalt (some e)) →
    hostStep s = .next { s with
      halted := true, host := none,
      responses := s.responses ++ [{ code := .busError, reg := some e.reg, dir := some e.dir }] }

/-- The whole of SHUTDOWN that no other agent interrupts (R110): every status OFF, every direct pin 0, HALTED; the latch 0x00 if
initialized and the write succeeded, as it was before INIT, old or 0x00 after a failed write; OK or the kept BusError. That it is three
steps is log 7. -/
def Obligations.WholeShutdownHalts : Prop :=
  ∀ s : State, s.Inv → s.halted = false → s.host = none →
    ∃ s1 t, exec .shutdown s = .next s1 ∧ hostRun 2 s1 = .next t ∧ t.halted = true ∧ t.host = none ∧
      t.bankX = { s.bankX with status := List.replicate 8 .off } ∧
      t.bankD = { s.bankD with status := List.replicate s.cfg.nD .off } ∧
      t.dout = List.replicate s.cfg.nD (some false) ∧ OnlyRegister .olatA s t ∧
      (s.initialized = false → t.mem = s.mem ∧ t.responses = s.responses ++ [{ code := .ok }]) ∧
      (s.initialized = true → s.nextDraw.ok = true →
        t.exp .olatA = 0x00#8 ∧ t.responses = s.responses ++ [{ code := .ok }]) ∧
      (s.initialized = true → s.nextDraw.ok = false →
        (t.exp .olatA = if s.nextDraw.landed then 0x00#8 else s.exp .olatA) ∧
        t.responses = s.responses ++ [{ code := .busError, reg := some (s.addr .olatA), dir := some .write }]) ∧
      t.trace = s.trace ++
        (if s.initialized then [.busWrite s.cfg.slaveAddr (s.addr .olatA) 0x00#8 s.nextDraw.ok] else []) ++
        (List.range s.cfg.nD).map (fun c => .pinWrite c (s.cfg.pinOut.getD c 0) false) ∧
      OnlyChannels { s with halted := true } t

/-- SHUTDOWN when halted returns OK and changes nothing (R111), and SHUTDOWN cannot interrupt a FLASH: while one is in progress its word
waits. That it waits on a schedule, the FLASH taking its next step, is the model's form (logs 5 and 6). -/
def Obligations.ShutdownIdempotent : Prop :=
  (∀ s : State, s.halted = true → exec .shutdown s = .next { s with responses := s.responses ++ [{ code := .ok }] }) ∧
    ∀ (s : State) (slot : Slot) (rest : List Slot) (b : Bank) (masks : List Byte),
      s.inputs = slot :: rest → slot.activity = .command (encode .shutdown) → s.host = some (.flash b masks) →
      step s = flashStep b masks s

/-- Halted until reset (R107, R112): every host command but SHUTDOWN returns Halted, TICK and EDGE do nothing, and no step but a reset
leaves the halted state or changes a status, a phase, a pin, the expander, the queue or the edge times. -/
def Obligations.HaltedUntilReset : Prop :=
  ∀ s : State, s.halted = true →
    (∀ i : Instr, i.port = .command → i ≠ .shutdown →
      exec i s = .next { s with responses := s.responses ++ [{ code := .halted }] }) ∧
    (∀ b, exec (.tick b) s = .next s) ∧ (∀ p k, exec (.edge p k) s = .next s) ∧
    (s.Inv → ∀ t slot rest, s.inputs = slot :: rest → slot.activity ≠ .reset → step s = .next t →
      t = { s with
        bankX := { s.bankX with pass := t.bankX.pass }, bankD := { s.bankD with pass := t.bankD.pass }, now := t.now,
        inPause := t.inPause, inputs := t.inputs, responses := t.responses })

/-! ### Reset -/

/-- The values after reset (R37), for any parameters; every expander register is its power-on draw. -/
def Obligations.ResetValues : Prop :=
  ∀ k : Config,
    (∀ c, c < 8 → (State.resetWith k).bankX.status[c]? = some .off) ∧
    (∀ c, c < k.nD → (State.resetWith k).bankD.status[c]? = some .off) ∧
    (∀ b, ((State.resetWith k).bank b).phase = 0#3 ∧ ((State.resetWith k).bank b).flashActive = false ∧
      ((State.resetWith k).bank b).lock = none) ∧
    (∀ c, c < k.nD → (State.resetWith k).dout[c]? = some none) ∧
    (State.resetWith k).initialized = false ∧ (State.resetWith k).halted = false ∧
    (∀ p, lineGet (State.resetWith k).lastEdge p = none) ∧ (State.resetWith k).holdStart = none ∧
    (State.resetWith k).evq = [] ∧
    ∀ r, (State.resetWith k).exp r = Config.powerOn (k.reg.addr r).toNat

/-- A reset while the device runs (R136, R138) acts on the block's state only: from any state, halted or inside an operation, that
takes the values of R37 and no agent is inside an operation any more, while the expander keeps its registers (log 10, read from R138).
That the clock, `in_pause` and the schedule are what the entry sets is logs 5 and 8; that draws, responses and trace are kept is logs 3,
9 and 10. -/
def Obligations.ResetKeepsExpander : Prop :=
  ∀ (s : State) (slot : Slot) (rest : List Slot), s.inputs = slot :: rest → slot.activity = .reset →
    step s = .next { State.resetWith s.cfg with
      mem := s.mem, now := s.now + slot.elapsed, inPause := slot.inPause, inputs := rest, draws := s.draws,
      drawCount := s.drawCount, responses := s.responses, trace := s.trace }

/-! ### The whole machine -/

/-- Every step keeps the invariant. -/
def Obligations.StepKeepsInvariant : Prop := ∀ s t : State, s.Inv → step s = .next t → t.Inv

/-- The state after reset meets the invariant, for every well-formed choice of the parameters. -/
def Obligations.ResetMeetsInvariant : Prop := State.reset.Inv ∧ ∀ k : Config, k.wf → (State.resetWith k).Inv

/-- Every step keeps the expander memory in its canonical form (the model's, log 2), from any state. -/
def Obligations.StepKeepsMemoryCanonical : Prop :=
  ∀ s t : State, Memory.wf s.mem = true → step s = .next t → Memory.wf t.mem = true

/-- The block has no trap and no stuck behaviour (R116): from a state that meets the invariant a step never faults, and it is refused only
for the two spellings of R124. -/
def Obligations.StepNeverFaults : Prop :=
  ∀ s : State, s.Inv →
    (∀ f, step s ≠ .fault f) ∧
    ∀ r, step s = .refused r →
      ∃ slot rest, s.inputs = slot :: rest ∧
        ((∃ w, slot.activity = .stimulus w ∧ r = .illegalStimulus w ∧ ∀ i, decode .stimulus w ≠ .ok i) ∨
          ∃ w b k, slot.activity = .command w ∧ r = .broadcastBlink ∧
            decode .command w = .ok (.update b .all (.blink k)))

/-- The registers the block reaches (R32): no step changes any but the four of INIT and the output latch, and only an INIT changes one of
those four. -/
def Obligations.OnlyReachedRegistersChange : Prop :=
  ∀ (s t : State) (a : Nat), step s = .next t → Memory.read t.mem a ≠ Memory.read s.mem a →
    a = (s.addr .olatA).toNat ∨
      ((a = (s.addr .iodirA).toNat ∨ a = (s.addr .iodirB).toNat ∨ a = (s.addr .gppuB).toNat ∨
        a = (s.addr .gpintenB).toNat) ∧
        ∃ slot rest w, s.inputs = slot :: rest ∧ slot.activity = .command w ∧ decode .command w = .ok .init)

/-- Who writes the statuses (R15): a step that changes one takes up an UPDATE of that bank or a SHUTDOWN, with no command in progress, or
is the host's step S2 of SHUTDOWN, which sets bank D OFF, or is a reset. That S2 is a step of its own is log 7; it is taken while an
entry waits for it or at a turn of the host (logs 5 and 6). -/
def Obligations.StatusChangesOnlyByUpdate : Prop :=
  ∀ (s t : State) (b : Bank), step s = .next t → (t.bank b).status ≠ (s.bank b).status →
    (b = .d ∧ t.bankD.status = List.replicate s.cfg.nD .off ∧ (∃ e, s.host = some (.shutdownPins e)) ∧
      (step s = hostStep s ∨
        ∃ slot rest, s.inputs = slot :: rest ∧ slot.activity = .hostTurn ∧ step s = hostStep (s.takeSlot slot rest))) ∨
    ∃ slot rest, s.inputs = slot :: rest ∧
      (slot.activity = .reset ∨
        ∃ w, slot.activity = .command w ∧ s.host = none ∧
          (decode .command w = .ok .shutdown ∧ b = .x ∨ ∃ c st, decode .command w = .ok (.update b c st)))

/-- Who writes the phase (R17): only a TICK of its bank, which advances it modulo 8, or a reset. -/
def Obligations.PhaseChangesOnlyByTick : Prop :=
  ∀ (s t : State) (b : Bank), step s = .next t → (t.bank b).phase ≠ (s.bank b).phase →
    ∃ slot rest, s.inputs = slot :: rest ∧
      (slot.activity = .reset ∨
        ∃ w, slot.activity = .stimulus w ∧ decode .stimulus w = .ok (.tick b) ∧
          (t.bank b).phase.toNat = ((s.bank b).phase.toNat + 1) % 8)

/-- INITIALIZED and HALTED are never cleared except by a reset (R21, R23), and INITIALIZED is set only by INIT. -/
def Obligations.FlagsClearedOnlyByReset : Prop :=
  ∀ (s t : State) (slot : Slot) (rest : List Slot), s.inputs = slot :: rest → slot.activity ≠ .reset → step s = .next t →
    (s.initialized = true → t.initialized = true) ∧ (s.halted = true → t.halted = true) ∧
    (s.initialized = false → t.initialized = true →
      ∃ w, slot.activity = .command w ∧ decode .command w = .ok .init)

/-- The clock never runs back and the parameters never change (R6, R35); that both are fields of the state is logs 1 and 8. -/
def Obligations.ClockNeverRunsBack : Prop :=
  ∀ s t : State, step s = .next t → s.now ≤ t.now ∧ t.cfg = s.cfg

/-- EVQ is a FIFO (R27, R53, R108): a step adds at most one event, at the end and only for an EDGE, or takes the oldest one, only by
POLLEV, or leaves the queue, or is a reset. -/
def Obligations.EventQueueIsFifo : Prop :=
  ∀ s t : State, step s = .next t →
    t.evq = s.evq ∨
    ∃ slot rest, s.inputs = slot :: rest ∧
      ((∃ w p k e, slot.activity = .stimulus w ∧ decode .stimulus w = .ok (.edge p k) ∧ e.src = p ∧ e.t = t.now ∧
          t.evq = s.evq ++ [e]) ∨
        (∃ w e, slot.activity = .command w ∧ decode .command w = .ok .pollev ∧ s.evq = e :: t.evq) ∨
        slot.activity = .reset)

/-- Commands are bounded (R150): a step makes at most 4 bus transactions and at most N_D pin writes, adds at most one response, and only
ever adds to what has been seen and returned. -/
def Obligations.StepEffectsBounded : Prop :=
  ∀ s t : State, step s = .next t →
    ∃ seen returned, t.trace = s.trace ++ seen ∧ t.responses = s.responses ++ returned ∧ returned.length ≤ 1 ∧
      (seen.filter (fun e => match e with | .pinWrite _ _ _ => false | .busRead _ _ _ => true | .busWrite _ _ _ _ => true)).length
        ≤ 4 ∧
      (seen.filter (fun e => match e with | .pinWrite _ _ _ => true | .busRead _ _ _ => false | .busWrite _ _ _ _ => false)).length
        ≤ max 1 s.cfg.nD
end

