-- ==== Sys2Proof/Laws/Memory.lean ====
section
/-! SUPPORT. The laws of the expander memory: read after write, all other addresses, and the canonical form. -/

namespace Sys2Proof.Machine

@[simp] theorem Memory.read_write_same (m : List Host.Cell) (a : Nat) (v : Byte) :
    Memory.read (Memory.write m a v) a = v := by
  induction m with
  | nil => simp [Memory.write, Memory.read]
  | cons cell rest ih =>
    obtain ⟨k, w⟩ := cell
    simp only [Memory.write]
    split
    · simp [Memory.read]
    · split
      · simp [Memory.read]
      · rename_i h
        simp [Memory.read, Ne.symm h, ih]

theorem Memory.read_write_other (m : List Host.Cell) {a b : Nat} (h : b ≠ a) (v : Byte) :
    Memory.read (Memory.write m a v) b = Memory.read m b := by
  induction m with
  | nil => simp [Memory.write, Memory.read, Ne.symm h]
  | cons cell rest ih =>
    obtain ⟨k, w⟩ := cell
    simp only [Memory.write]
    split
    · simp [Memory.read, Ne.symm h]
    · split
      · rename_i hk
        subst hk
        simp [Memory.read, Ne.symm h]
      · simp [Memory.read, ih]

/-- The first address of a written memory is the written one or the old first one. -/
theorem Memory.write_head (m : List Host.Cell) (a : Nat) (v : Byte) :
    ∃ k w rest, Memory.write m a v = (k, w) :: rest ∧ (k = a ∨ ∃ w' rest', m = (k, w') :: rest' ∧ k < a) := by
  cases m with
  | nil => exact ⟨a, v, [], rfl, .inl rfl⟩
  | cons cell rest =>
    obtain ⟨k, w⟩ := cell
    simp only [Memory.write]
    split
    · exact ⟨_, _, _, rfl, .inl rfl⟩
    · split
      · exact ⟨_, _, _, rfl, .inl rfl⟩
      · exact ⟨_, _, _, rfl, .inr ⟨_, _, rfl, by omega⟩⟩

/-- Every write keeps the canonical form. -/
theorem Memory.write_wf (m : List Host.Cell) (a : Nat) (v : Byte) (ha : a < 256) (h : Memory.wf m = true) :
    Memory.wf (Memory.write m a v) = true := by
  induction m with
  | nil => simp [Memory.write, Memory.wf, ha]
  | cons cell rest ih =>
    obtain ⟨k, w⟩ := cell
    have hr : Memory.wf rest = true := by
      cases rest <;> simp_all [Memory.wf]
    simp only [Memory.write]
    split
    · simp_all [Memory.wf]
    · split
      · rename_i hk
        subst hk
        cases rest <;> simp_all [Memory.wf]
      · rename_i hlt hne
        have hkw : k < 256 := by cases rest <;> simp_all [Memory.wf]
        obtain ⟨j, u, tail, hw, hj⟩ := Memory.write_head rest a v
        have hih := ih hr
        rw [hw] at hih ⊢
        rcases hj with rfl | ⟨w', rest', rfl, hja⟩
        · simp only [Memory.wf, Bool.and_eq_true, decide_eq_true_eq] at hih ⊢
          exact ⟨⟨hkw, by omega⟩, hih⟩
        · have hkj : k < j := by simp_all [Memory.wf]
          simp only [Memory.wf, Bool.and_eq_true, decide_eq_true_eq] at hih ⊢
          exact ⟨⟨hkw, hkj⟩, hih⟩

theorem setExp_mem_wf (s : State) (r : ExpReg) (v : Byte) (h : Memory.wf s.mem = true) :
    Memory.wf (s.setExp r v).mem = true :=
  Memory.write_wf _ _ _ (s.addr r).isLt h

end Sys2Proof.Machine
end

