-- ==== Sys2Proof/Laws/State.lean ====
section
/-! SUPPORT. One lemma per field per update of the state, so that no later proof unfolds a record update. -/

namespace Sys2Proof.Machine

variable (s : State)

/-! ### setBank -/

@[simp] theorem setBank_cfg (b : Bank) (v : BankState) : (s.setBank b v).cfg = s.cfg := by cases b <;> rfl
@[simp] theorem setBank_dout (b : Bank) (v : BankState) : (s.setBank b v).dout = s.dout := by cases b <;> rfl
@[simp] theorem setBank_initialized (b : Bank) (v : BankState) : (s.setBank b v).initialized = s.initialized := by cases b <;> rfl
@[simp] theorem setBank_halted (b : Bank) (v : BankState) : (s.setBank b v).halted = s.halted := by cases b <;> rfl
@[simp] theorem setBank_lastEdge (b : Bank) (v : BankState) : (s.setBank b v).lastEdge = s.lastEdge := by cases b <;> rfl
@[simp] theorem setBank_holdStart (b : Bank) (v : BankState) : (s.setBank b v).holdStart = s.holdStart := by cases b <;> rfl
@[simp] theorem setBank_evq (b : Bank) (v : BankState) : (s.setBank b v).evq = s.evq := by cases b <;> rfl
@[simp] theorem setBank_mem (b : Bank) (v : BankState) : (s.setBank b v).mem = s.mem := by cases b <;> rfl
@[simp] theorem setBank_host (b : Bank) (v : BankState) : (s.setBank b v).host = s.host := by cases b <;> rfl
@[simp] theorem setBank_now (b : Bank) (v : BankState) : (s.setBank b v).now = s.now := by cases b <;> rfl
@[simp] theorem setBank_inPause (b : Bank) (v : BankState) : (s.setBank b v).inPause = s.inPause := by cases b <;> rfl
@[simp] theorem setBank_inputs (b : Bank) (v : BankState) : (s.setBank b v).inputs = s.inputs := by cases b <;> rfl
@[simp] theorem setBank_draws (b : Bank) (v : BankState) : (s.setBank b v).draws = s.draws := by cases b <;> rfl
@[simp] theorem setBank_drawCount (b : Bank) (v : BankState) : (s.setBank b v).drawCount = s.drawCount := by cases b <;> rfl
@[simp] theorem setBank_responses (b : Bank) (v : BankState) : (s.setBank b v).responses = s.responses := by cases b <;> rfl
@[simp] theorem setBank_trace (b : Bank) (v : BankState) : (s.setBank b v).trace = s.trace := by cases b <;> rfl

@[simp] theorem setBank_bank (b : Bank) (v : BankState) : (s.setBank b v).bank b = v := by cases b <;> rfl

theorem setBank_bank_ne {b c : Bank} (h : c ≠ b) (v : BankState) : (s.setBank b v).bank c = s.bank c := by
  cases b <;> cases c <;> first | rfl | exact absurd rfl h

@[simp] theorem setBank_setBank (b : Bank) (v w : BankState) : (s.setBank b v).setBank b w = s.setBank b w := by
  cases b <;> rfl

@[simp] theorem setBank_same (b : Bank) : s.setBank b (s.bank b) = s := by cases b <;> rfl

@[simp] theorem setBank_bankX_x (v : BankState) : (s.setBank .x v).bankX = v := rfl
@[simp] theorem setBank_bankX_d (v : BankState) : (s.setBank .d v).bankX = s.bankX := rfl
@[simp] theorem setBank_bankD_d (v : BankState) : (s.setBank .d v).bankD = v := rfl
@[simp] theorem setBank_bankD_x (v : BankState) : (s.setBank .x v).bankD = s.bankD := rfl

/-! ### setExp -/

@[simp] theorem setExp_cfg (r : ExpReg) (v : Byte) : (s.setExp r v).cfg = s.cfg := rfl
@[simp] theorem setExp_bankX (r : ExpReg) (v : Byte) : (s.setExp r v).bankX = s.bankX := rfl
@[simp] theorem setExp_bankD (r : ExpReg) (v : Byte) : (s.setExp r v).bankD = s.bankD := rfl
@[simp] theorem setExp_dout (r : ExpReg) (v : Byte) : (s.setExp r v).dout = s.dout := rfl
@[simp] theorem setExp_initialized (r : ExpReg) (v : Byte) : (s.setExp r v).initialized = s.initialized := rfl
@[simp] theorem setExp_halted (r : ExpReg) (v : Byte) : (s.setExp r v).halted = s.halted := rfl
@[simp] theorem setExp_lastEdge (r : ExpReg) (v : Byte) : (s.setExp r v).lastEdge = s.lastEdge := rfl
@[simp] theorem setExp_holdStart (r : ExpReg) (v : Byte) : (s.setExp r v).holdStart = s.holdStart := rfl
@[simp] theorem setExp_evq (r : ExpReg) (v : Byte) : (s.setExp r v).evq = s.evq := rfl
@[simp] theorem setExp_mem (r : ExpReg) (v : Byte) : (s.setExp r v).mem = Memory.write s.mem (s.addr r).toNat v := rfl
@[simp] theorem setExp_host (r : ExpReg) (v : Byte) : (s.setExp r v).host = s.host := rfl
@[simp] theorem setExp_now (r : ExpReg) (v : Byte) : (s.setExp r v).now = s.now := rfl
@[simp] theorem setExp_inPause (r : ExpReg) (v : Byte) : (s.setExp r v).inPause = s.inPause := rfl
@[simp] theorem setExp_inputs (r : ExpReg) (v : Byte) : (s.setExp r v).inputs = s.inputs := rfl
@[simp] theorem setExp_draws (r : ExpReg) (v : Byte) : (s.setExp r v).draws = s.draws := rfl
@[simp] theorem setExp_drawCount (r : ExpReg) (v : Byte) : (s.setExp r v).drawCount = s.drawCount := rfl
@[simp] theorem setExp_responses (r : ExpReg) (v : Byte) : (s.setExp r v).responses = s.responses := rfl
@[simp] theorem setExp_trace (r : ExpReg) (v : Byte) : (s.setExp r v).trace = s.trace := rfl

@[simp] theorem setExp_bank (r : ExpReg) (v : Byte) (b : Bank) : (s.setExp r v).bank b = s.bank b := by cases b <;> rfl

/-! ### emit -/

@[simp] theorem emit_cfg (e : IoEvent) : (s.emit e).cfg = s.cfg := rfl
@[simp] theorem emit_bankX (e : IoEvent) : (s.emit e).bankX = s.bankX := rfl
@[simp] theorem emit_bankD (e : IoEvent) : (s.emit e).bankD = s.bankD := rfl
@[simp] theorem emit_dout (e : IoEvent) : (s.emit e).dout = s.dout := rfl
@[simp] theorem emit_initialized (e : IoEvent) : (s.emit e).initialized = s.initialized := rfl
@[simp] theorem emit_halted (e : IoEvent) : (s.emit e).halted = s.halted := rfl
@[simp] theorem emit_lastEdge (e : IoEvent) : (s.emit e).lastEdge = s.lastEdge := rfl
@[simp] theorem emit_holdStart (e : IoEvent) : (s.emit e).holdStart = s.holdStart := rfl
@[simp] theorem emit_evq (e : IoEvent) : (s.emit e).evq = s.evq := rfl
@[simp] theorem emit_mem (e : IoEvent) : (s.emit e).mem = s.mem := rfl
@[simp] theorem emit_host (e : IoEvent) : (s.emit e).host = s.host := rfl
@[simp] theorem emit_now (e : IoEvent) : (s.emit e).now = s.now := rfl
@[simp] theorem emit_inPause (e : IoEvent) : (s.emit e).inPause = s.inPause := rfl
@[simp] theorem emit_inputs (e : IoEvent) : (s.emit e).inputs = s.inputs := rfl
@[simp] theorem emit_draws (e : IoEvent) : (s.emit e).draws = s.draws := rfl
@[simp] theorem emit_drawCount (e : IoEvent) : (s.emit e).drawCount = s.drawCount := rfl
@[simp] theorem emit_responses (e : IoEvent) : (s.emit e).responses = s.responses := rfl
@[simp] theorem emit_trace (e : IoEvent) : (s.emit e).trace = s.trace ++ [e] := rfl

@[simp] theorem emit_bank (e : IoEvent) (b : Bank) : (s.emit e).bank b = s.bank b := by cases b <;> rfl

/-! ### respond -/

@[simp] theorem respond_cfg (r : Response) : (s.respond r).cfg = s.cfg := rfl
@[simp] theorem respond_bankX (r : Response) : (s.respond r).bankX = s.bankX := rfl
@[simp] theorem respond_bankD (r : Response) : (s.respond r).bankD = s.bankD := rfl
@[simp] theorem respond_dout (r : Response) : (s.respond r).dout = s.dout := rfl
@[simp] theorem respond_initialized (r : Response) : (s.respond r).initialized = s.initialized := rfl
@[simp] theorem respond_halted (r : Response) : (s.respond r).halted = s.halted := rfl
@[simp] theorem respond_lastEdge (r : Response) : (s.respond r).lastEdge = s.lastEdge := rfl
@[simp] theorem respond_holdStart (r : Response) : (s.respond r).holdStart = s.holdStart := rfl
@[simp] theorem respond_evq (r : Response) : (s.respond r).evq = s.evq := rfl
@[simp] theorem respond_mem (r : Response) : (s.respond r).mem = s.mem := rfl
@[simp] theorem respond_host (r : Response) : (s.respond r).host = s.host := rfl
@[simp] theorem respond_now (r : Response) : (s.respond r).now = s.now := rfl
@[simp] theorem respond_inPause (r : Response) : (s.respond r).inPause = s.inPause := rfl
@[simp] theorem respond_inputs (r : Response) : (s.respond r).inputs = s.inputs := rfl
@[simp] theorem respond_draws (r : Response) : (s.respond r).draws = s.draws := rfl
@[simp] theorem respond_drawCount (r : Response) : (s.respond r).drawCount = s.drawCount := rfl
@[simp] theorem respond_responses (r : Response) : (s.respond r).responses = s.responses ++ [r] := rfl
@[simp] theorem respond_trace (r : Response) : (s.respond r).trace = s.trace := rfl

@[simp] theorem respond_bank (r : Response) (b : Bank) : (s.respond r).bank b = s.bank b := by cases b <;> rfl

/-! ### dropDraw -/

@[simp] theorem dropDraw_cfg : (s.dropDraw).cfg = s.cfg := by unfold State.dropDraw; split <;> rfl
@[simp] theorem dropDraw_bankX : (s.dropDraw).bankX = s.bankX := by unfold State.dropDraw; split <;> rfl
@[simp] theorem dropDraw_bankD : (s.dropDraw).bankD = s.bankD := by unfold State.dropDraw; split <;> rfl
@[simp] theorem dropDraw_dout : (s.dropDraw).dout = s.dout := by unfold State.dropDraw; split <;> rfl
@[simp] theorem dropDraw_initialized : (s.dropDraw).initialized = s.initialized := by unfold State.dropDraw; split <;> rfl
@[simp] theorem dropDraw_halted : (s.dropDraw).halted = s.halted := by unfold State.dropDraw; split <;> rfl
@[simp] theorem dropDraw_lastEdge : (s.dropDraw).lastEdge = s.lastEdge := by unfold State.dropDraw; split <;> rfl
@[simp] theorem dropDraw_holdStart : (s.dropDraw).holdStart = s.holdStart := by unfold State.dropDraw; split <;> rfl
@[simp] theorem dropDraw_evq : (s.dropDraw).evq = s.evq := by unfold State.dropDraw; split <;> rfl
@[simp] theorem dropDraw_mem : (s.dropDraw).mem = s.mem := by unfold State.dropDraw; split <;> rfl
@[simp] theorem dropDraw_host : (s.dropDraw).host = s.host := by unfold State.dropDraw; split <;> rfl
@[simp] theorem dropDraw_now : (s.dropDraw).now = s.now := by unfold State.dropDraw; split <;> rfl
@[simp] theorem dropDraw_inPause : (s.dropDraw).inPause = s.inPause := by unfold State.dropDraw; split <;> rfl
@[simp] theorem dropDraw_inputs : (s.dropDraw).inputs = s.inputs := by unfold State.dropDraw; split <;> rfl
@[simp] theorem dropDraw_responses : (s.dropDraw).responses = s.responses := by unfold State.dropDraw; split <;> rfl
@[simp] theorem dropDraw_trace : (s.dropDraw).trace = s.trace := by unfold State.dropDraw; split <;> rfl

@[simp] theorem dropDraw_bank (b : Bank) : (s.dropDraw).bank b = s.bank b := by cases b <;> simp [State.bank]

/-! ### setInitialized -/

@[simp] theorem setInitialized_cfg (v : Bool) : (s.setInitialized v).cfg = s.cfg := rfl
@[simp] theorem setInitialized_bankX (v : Bool) : (s.setInitialized v).bankX = s.bankX := rfl
@[simp] theorem setInitialized_bankD (v : Bool) : (s.setInitialized v).bankD = s.bankD := rfl
@[simp] theorem setInitialized_dout (v : Bool) : (s.setInitialized v).dout = s.dout := rfl
@[simp] theorem setInitialized_initialized (v : Bool) : (s.setInitialized v).initialized = v := rfl
@[simp] theorem setInitialized_halted (v : Bool) : (s.setInitialized v).halted = s.halted := rfl
@[simp] theorem setInitialized_lastEdge (v : Bool) : (s.setInitialized v).lastEdge = s.lastEdge := rfl
@[simp] theorem setInitialized_holdStart (v : Bool) : (s.setInitialized v).holdStart = s.holdStart := rfl
@[simp] theorem setInitialized_evq (v : Bool) : (s.setInitialized v).evq = s.evq := rfl
@[simp] theorem setInitialized_mem (v : Bool) : (s.setInitialized v).mem = s.mem := rfl
@[simp] theorem setInitialized_host (v : Bool) : (s.setInitialized v).host = s.host := rfl
@[simp] theorem setInitialized_now (v : Bool) : (s.setInitialized v).now = s.now := rfl
@[simp] theorem setInitialized_inPause (v : Bool) : (s.setInitialized v).inPause = s.inPause := rfl
@[simp] theorem setInitialized_inputs (v : Bool) : (s.setInitialized v).inputs = s.inputs := rfl
@[simp] theorem setInitialized_draws (v : Bool) : (s.setInitialized v).draws = s.draws := rfl
@[simp] theorem setInitialized_drawCount (v : Bool) : (s.setInitialized v).drawCount = s.drawCount := rfl
@[simp] theorem setInitialized_responses (v : Bool) : (s.setInitialized v).responses = s.responses := rfl
@[simp] theorem setInitialized_trace (v : Bool) : (s.setInitialized v).trace = s.trace := rfl

@[simp] theorem setInitialized_bank (v : Bool) (b : Bank) : (s.setInitialized v).bank b = s.bank b := by cases b <;> rfl

/-! ### setHalted -/

@[simp] theorem setHalted_cfg (v : Bool) : (s.setHalted v).cfg = s.cfg := rfl
@[simp] theorem setHalted_bankX (v : Bool) : (s.setHalted v).bankX = s.bankX := rfl
@[simp] theorem setHalted_bankD (v : Bool) : (s.setHalted v).bankD = s.bankD := rfl
@[simp] theorem setHalted_dout (v : Bool) : (s.setHalted v).dout = s.dout := rfl
@[simp] theorem setHalted_initialized (v : Bool) : (s.setHalted v).initialized = s.initialized := rfl
@[simp] theorem setHalted_halted (v : Bool) : (s.setHalted v).halted = v := rfl
@[simp] theorem setHalted_lastEdge (v : Bool) : (s.setHalted v).lastEdge = s.lastEdge := rfl
@[simp] theorem setHalted_holdStart (v : Bool) : (s.setHalted v).holdStart = s.holdStart := rfl
@[simp] theorem setHalted_evq (v : Bool) : (s.setHalted v).evq = s.evq := rfl
@[simp] theorem setHalted_mem (v : Bool) : (s.setHalted v).mem = s.mem := rfl
@[simp] theorem setHalted_host (v : Bool) : (s.setHalted v).host = s.host := rfl
@[simp] theorem setHalted_now (v : Bool) : (s.setHalted v).now = s.now := rfl
@[simp] theorem setHalted_inPause (v : Bool) : (s.setHalted v).inPause = s.inPause := rfl
@[simp] theorem setHalted_inputs (v : Bool) : (s.setHalted v).inputs = s.inputs := rfl
@[simp] theorem setHalted_draws (v : Bool) : (s.setHalted v).draws = s.draws := rfl
@[simp] theorem setHalted_drawCount (v : Bool) : (s.setHalted v).drawCount = s.drawCount := rfl
@[simp] theorem setHalted_responses (v : Bool) : (s.setHalted v).responses = s.responses := rfl
@[simp] theorem setHalted_trace (v : Bool) : (s.setHalted v).trace = s.trace := rfl

@[simp] theorem setHalted_bank (v : Bool) (b : Bank) : (s.setHalted v).bank b = s.bank b := by cases b <;> rfl

/-! ### setHost -/

@[simp] theorem setHost_cfg (o : Option HostOp) : (s.setHost o).cfg = s.cfg := rfl
@[simp] theorem setHost_bankX (o : Option HostOp) : (s.setHost o).bankX = s.bankX := rfl
@[simp] theorem setHost_bankD (o : Option HostOp) : (s.setHost o).bankD = s.bankD := rfl
@[simp] theorem setHost_dout (o : Option HostOp) : (s.setHost o).dout = s.dout := rfl
@[simp] theorem setHost_initialized (o : Option HostOp) : (s.setHost o).initialized = s.initialized := rfl
@[simp] theorem setHost_halted (o : Option HostOp) : (s.setHost o).halted = s.halted := rfl
@[simp] theorem setHost_lastEdge (o : Option HostOp) : (s.setHost o).lastEdge = s.lastEdge := rfl
@[simp] theorem setHost_holdStart (o : Option HostOp) : (s.setHost o).holdStart = s.holdStart := rfl
@[simp] theorem setHost_evq (o : Option HostOp) : (s.setHost o).evq = s.evq := rfl
@[simp] theorem setHost_mem (o : Option HostOp) : (s.setHost o).mem = s.mem := rfl
@[simp] theorem setHost_host (o : Option HostOp) : (s.setHost o).host = o := rfl
@[simp] theorem setHost_now (o : Option HostOp) : (s.setHost o).now = s.now := rfl
@[simp] theorem setHost_inPause (o : Option HostOp) : (s.setHost o).inPause = s.inPause := rfl
@[simp] theorem setHost_inputs (o : Option HostOp) : (s.setHost o).inputs = s.inputs := rfl
@[simp] theorem setHost_draws (o : Option HostOp) : (s.setHost o).draws = s.draws := rfl
@[simp] theorem setHost_drawCount (o : Option HostOp) : (s.setHost o).drawCount = s.drawCount := rfl
@[simp] theorem setHost_responses (o : Option HostOp) : (s.setHost o).responses = s.responses := rfl
@[simp] theorem setHost_trace (o : Option HostOp) : (s.setHost o).trace = s.trace := rfl

@[simp] theorem setHost_bank (o : Option HostOp) (b : Bank) : (s.setHost o).bank b = s.bank b := by cases b <;> rfl

/-! ### enqueue -/

@[simp] theorem enqueue_cfg (e : ButtonEvent) : (s.enqueue e).cfg = s.cfg := rfl
@[simp] theorem enqueue_bankX (e : ButtonEvent) : (s.enqueue e).bankX = s.bankX := rfl
@[simp] theorem enqueue_bankD (e : ButtonEvent) : (s.enqueue e).bankD = s.bankD := rfl
@[simp] theorem enqueue_dout (e : ButtonEvent) : (s.enqueue e).dout = s.dout := rfl
@[simp] theorem enqueue_initialized (e : ButtonEvent) : (s.enqueue e).initialized = s.initialized := rfl
@[simp] theorem enqueue_halted (e : ButtonEvent) : (s.enqueue e).halted = s.halted := rfl
@[simp] theorem enqueue_lastEdge (e : ButtonEvent) : (s.enqueue e).lastEdge = s.lastEdge := rfl
@[simp] theorem enqueue_holdStart (e : ButtonEvent) : (s.enqueue e).holdStart = s.holdStart := rfl
@[simp] theorem enqueue_evq (e : ButtonEvent) : (s.enqueue e).evq = s.evq ++ [e] := rfl
@[simp] theorem enqueue_mem (e : ButtonEvent) : (s.enqueue e).mem = s.mem := rfl
@[simp] theorem enqueue_host (e : ButtonEvent) : (s.enqueue e).host = s.host := rfl
@[simp] theorem enqueue_now (e : ButtonEvent) : (s.enqueue e).now = s.now := rfl
@[simp] theorem enqueue_inPause (e : ButtonEvent) : (s.enqueue e).inPause = s.inPause := rfl
@[simp] theorem enqueue_inputs (e : ButtonEvent) : (s.enqueue e).inputs = s.inputs := rfl
@[simp] theorem enqueue_draws (e : ButtonEvent) : (s.enqueue e).draws = s.draws := rfl
@[simp] theorem enqueue_drawCount (e : ButtonEvent) : (s.enqueue e).drawCount = s.drawCount := rfl
@[simp] theorem enqueue_responses (e : ButtonEvent) : (s.enqueue e).responses = s.responses := rfl
@[simp] theorem enqueue_trace (e : ButtonEvent) : (s.enqueue e).trace = s.trace := rfl

@[simp] theorem enqueue_bank (e : ButtonEvent) (b : Bank) : (s.enqueue e).bank b = s.bank b := by cases b <;> rfl

/-! ### setHoldStart -/

@[simp] theorem setHoldStart_cfg (h : Option Nat) : (s.setHoldStart h).cfg = s.cfg := rfl
@[simp] theorem setHoldStart_bankX (h : Option Nat) : (s.setHoldStart h).bankX = s.bankX := rfl
@[simp] theorem setHoldStart_bankD (h : Option Nat) : (s.setHoldStart h).bankD = s.bankD := rfl
@[simp] theorem setHoldStart_dout (h : Option Nat) : (s.setHoldStart h).dout = s.dout := rfl
@[simp] theorem setHoldStart_initialized (h : Option Nat) : (s.setHoldStart h).initialized = s.initialized := rfl
@[simp] theorem setHoldStart_halted (h : Option Nat) : (s.setHoldStart h).halted = s.halted := rfl
@[simp] theorem setHoldStart_lastEdge (h : Option Nat) : (s.setHoldStart h).lastEdge = s.lastEdge := rfl
@[simp] theorem setHoldStart_holdStart (h : Option Nat) : (s.setHoldStart h).holdStart = h := rfl
@[simp] theorem setHoldStart_evq (h : Option Nat) : (s.setHoldStart h).evq = s.evq := rfl
@[simp] theorem setHoldStart_mem (h : Option Nat) : (s.setHoldStart h).mem = s.mem := rfl
@[simp] theorem setHoldStart_host (h : Option Nat) : (s.setHoldStart h).host = s.host := rfl
@[simp] theorem setHoldStart_now (h : Option Nat) : (s.setHoldStart h).now = s.now := rfl
@[simp] theorem setHoldStart_inPause (h : Option Nat) : (s.setHoldStart h).inPause = s.inPause := rfl
@[simp] theorem setHoldStart_inputs (h : Option Nat) : (s.setHoldStart h).inputs = s.inputs := rfl
@[simp] theorem setHoldStart_draws (h : Option Nat) : (s.setHoldStart h).draws = s.draws := rfl
@[simp] theorem setHoldStart_drawCount (h : Option Nat) : (s.setHoldStart h).drawCount = s.drawCount := rfl
@[simp] theorem setHoldStart_responses (h : Option Nat) : (s.setHoldStart h).responses = s.responses := rfl
@[simp] theorem setHoldStart_trace (h : Option Nat) : (s.setHoldStart h).trace = s.trace := rfl

@[simp] theorem setHoldStart_bank (h : Option Nat) (b : Bank) : (s.setHoldStart h).bank b = s.bank b := by cases b <;> rfl

/-! ### acceptEdge -/

@[simp] theorem acceptEdge_cfg (p : Line) : (s.acceptEdge p).cfg = s.cfg := rfl
@[simp] theorem acceptEdge_bankX (p : Line) : (s.acceptEdge p).bankX = s.bankX := rfl
@[simp] theorem acceptEdge_bankD (p : Line) : (s.acceptEdge p).bankD = s.bankD := rfl
@[simp] theorem acceptEdge_dout (p : Line) : (s.acceptEdge p).dout = s.dout := rfl
@[simp] theorem acceptEdge_initialized (p : Line) : (s.acceptEdge p).initialized = s.initialized := rfl
@[simp] theorem acceptEdge_halted (p : Line) : (s.acceptEdge p).halted = s.halted := rfl
@[simp] theorem acceptEdge_lastEdge (p : Line) : (s.acceptEdge p).lastEdge = lineSet s.lastEdge p (some s.now) := rfl
@[simp] theorem acceptEdge_holdStart (p : Line) : (s.acceptEdge p).holdStart = s.holdStart := rfl
@[simp] theorem acceptEdge_evq (p : Line) : (s.acceptEdge p).evq = s.evq := rfl
@[simp] theorem acceptEdge_mem (p : Line) : (s.acceptEdge p).mem = s.mem := rfl
@[simp] theorem acceptEdge_host (p : Line) : (s.acceptEdge p).host = s.host := rfl
@[simp] theorem acceptEdge_now (p : Line) : (s.acceptEdge p).now = s.now := rfl
@[simp] theorem acceptEdge_inPause (p : Line) : (s.acceptEdge p).inPause = s.inPause := rfl
@[simp] theorem acceptEdge_inputs (p : Line) : (s.acceptEdge p).inputs = s.inputs := rfl
@[simp] theorem acceptEdge_draws (p : Line) : (s.acceptEdge p).draws = s.draws := rfl
@[simp] theorem acceptEdge_drawCount (p : Line) : (s.acceptEdge p).drawCount = s.drawCount := rfl
@[simp] theorem acceptEdge_responses (p : Line) : (s.acceptEdge p).responses = s.responses := rfl
@[simp] theorem acceptEdge_trace (p : Line) : (s.acceptEdge p).trace = s.trace := rfl

@[simp] theorem acceptEdge_bank (p : Line) (b : Bank) : (s.acceptEdge p).bank b = s.bank b := by cases b <;> rfl

/-! ### takeSlot -/

@[simp] theorem takeSlot_cfg (x : Slot) (l : List Slot) : (s.takeSlot x l).cfg = s.cfg := rfl
@[simp] theorem takeSlot_bankX (x : Slot) (l : List Slot) : (s.takeSlot x l).bankX = s.bankX := rfl
@[simp] theorem takeSlot_bankD (x : Slot) (l : List Slot) : (s.takeSlot x l).bankD = s.bankD := rfl
@[simp] theorem takeSlot_dout (x : Slot) (l : List Slot) : (s.takeSlot x l).dout = s.dout := rfl
@[simp] theorem takeSlot_initialized (x : Slot) (l : List Slot) : (s.takeSlot x l).initialized = s.initialized := rfl
@[simp] theorem takeSlot_halted (x : Slot) (l : List Slot) : (s.takeSlot x l).halted = s.halted := rfl
@[simp] theorem takeSlot_lastEdge (x : Slot) (l : List Slot) : (s.takeSlot x l).lastEdge = s.lastEdge := rfl
@[simp] theorem takeSlot_holdStart (x : Slot) (l : List Slot) : (s.takeSlot x l).holdStart = s.holdStart := rfl
@[simp] theorem takeSlot_evq (x : Slot) (l : List Slot) : (s.takeSlot x l).evq = s.evq := rfl
@[simp] theorem takeSlot_mem (x : Slot) (l : List Slot) : (s.takeSlot x l).mem = s.mem := rfl
@[simp] theorem takeSlot_host (x : Slot) (l : List Slot) : (s.takeSlot x l).host = s.host := rfl
@[simp] theorem takeSlot_now (x : Slot) (l : List Slot) : (s.takeSlot x l).now = s.now + x.elapsed := rfl
@[simp] theorem takeSlot_inPause (x : Slot) (l : List Slot) : (s.takeSlot x l).inPause = x.inPause := rfl
@[simp] theorem takeSlot_inputs (x : Slot) (l : List Slot) : (s.takeSlot x l).inputs = l := rfl
@[simp] theorem takeSlot_draws (x : Slot) (l : List Slot) : (s.takeSlot x l).draws = s.draws := rfl
@[simp] theorem takeSlot_drawCount (x : Slot) (l : List Slot) : (s.takeSlot x l).drawCount = s.drawCount := rfl
@[simp] theorem takeSlot_responses (x : Slot) (l : List Slot) : (s.takeSlot x l).responses = s.responses := rfl
@[simp] theorem takeSlot_trace (x : Slot) (l : List Slot) : (s.takeSlot x l).trace = s.trace := rfl

@[simp] theorem takeSlot_bank (x : Slot) (l : List Slot) (b : Bank) : (s.takeSlot x l).bank b = s.bank b := by cases b <;> rfl

/-! ### finish: a command's end touches the responses only -/

@[simp] theorem finish_cfg (e : Option BusError) : (finish e s).cfg = s.cfg := by cases e <;> rfl
@[simp] theorem finish_bankX (e : Option BusError) : (finish e s).bankX = s.bankX := by cases e <;> rfl
@[simp] theorem finish_bankD (e : Option BusError) : (finish e s).bankD = s.bankD := by cases e <;> rfl
@[simp] theorem finish_dout (e : Option BusError) : (finish e s).dout = s.dout := by cases e <;> rfl
@[simp] theorem finish_initialized (e : Option BusError) : (finish e s).initialized = s.initialized := by cases e <;> rfl
@[simp] theorem finish_halted (e : Option BusError) : (finish e s).halted = s.halted := by cases e <;> rfl
@[simp] theorem finish_lastEdge (e : Option BusError) : (finish e s).lastEdge = s.lastEdge := by cases e <;> rfl
@[simp] theorem finish_holdStart (e : Option BusError) : (finish e s).holdStart = s.holdStart := by cases e <;> rfl
@[simp] theorem finish_evq (e : Option BusError) : (finish e s).evq = s.evq := by cases e <;> rfl
@[simp] theorem finish_mem (e : Option BusError) : (finish e s).mem = s.mem := by cases e <;> rfl
@[simp] theorem finish_host (e : Option BusError) : (finish e s).host = s.host := by cases e <;> rfl
@[simp] theorem finish_now (e : Option BusError) : (finish e s).now = s.now := by cases e <;> rfl
@[simp] theorem finish_inPause (e : Option BusError) : (finish e s).inPause = s.inPause := by cases e <;> rfl
@[simp] theorem finish_inputs (e : Option BusError) : (finish e s).inputs = s.inputs := by cases e <;> rfl
@[simp] theorem finish_draws (e : Option BusError) : (finish e s).draws = s.draws := by cases e <;> rfl
@[simp] theorem finish_drawCount (e : Option BusError) : (finish e s).drawCount = s.drawCount := by cases e <;> rfl
@[simp] theorem finish_trace (e : Option BusError) : (finish e s).trace = s.trace := by cases e <;> rfl
@[simp] theorem finish_bank (e : Option BusError) (b : Bank) : (finish e s).bank b = s.bank b := by cases b <;> simp [State.bank]

end Sys2Proof.Machine
end

