-- ==== Sys2Proof/Laws/Ops.lean ====
section
/-! SUPPORT. One lemma per shared operation: everything a bus transaction, a pin write, a lock and a check can do. -/

namespace Sys2Proof.Machine

/-! ### Addresses and register contents -/

@[simp] theorem exp_setExp_same (s : State) (r : ExpReg) (v : Byte) : (s.setExp r v).exp r = v := by
  simp [State.exp, State.setExp, State.addr]

/-- Under well-formed parameters two registers have two addresses (R30). -/
theorem addr_ne {s : State} (h : s.cfg.wf) {r q : ExpReg} (hrq : r ≠ q) : s.addr r ≠ s.addr q := by
  have every (x : ExpReg) : x ∈ ExpReg.every := by cases x <;> decide
  exact fun e => hrq (List.inj_on_of_nodup_map h.2.2.2.1 (every r) (every q) e)

theorem addr_toNat_ne {s : State} (h : s.cfg.wf) {r q : ExpReg} (hrq : r ≠ q) : (s.addr r).toNat ≠ (s.addr q).toNat :=
  fun e => addr_ne h hrq (BitVec.eq_of_toNat_eq e)

theorem exp_setExp_other {s : State} (h : s.cfg.wf) {r q : ExpReg} (hrq : r ≠ q) (v : Byte) :
    (s.setExp q v).exp r = s.exp r := by
  simp only [State.exp, setExp_mem, State.addr, setExp_cfg]
  exact Memory.read_write_other _ (addr_toNat_ne h hrq) _

/-- A state's registers depend on its memory and its register map only. -/
theorem exp_congr {s t : State} (hm : t.mem = s.mem) (hc : t.cfg = s.cfg) (r : ExpReg) : t.exp r = s.exp r := by
  simp [State.exp, State.addr, hm, hc]

@[simp] theorem emit_exp (s : State) (e : IoEvent) (r : ExpReg) : (s.emit e).exp r = s.exp r := rfl

@[simp] theorem dropDraw_exp (s : State) (r : ExpReg) : s.dropDraw.exp r = s.exp r := by simp [State.exp, State.addr]

@[simp] theorem respond_exp (s : State) (x : Response) (r : ExpReg) : (s.respond x).exp r = s.exp r := rfl

@[simp] theorem setHost_exp (s : State) (o : Option HostOp) (r : ExpReg) : (s.setHost o).exp r = s.exp r := rfl

/-! ### Draws -/

/-- The coming draws depend on the draw list and its counter only. -/
theorem nextDraw_congr {s t : State} (hd : t.draws = s.draws) (hn : t.drawCount = s.drawCount) :
    t.nextDraw = s.nextDraw := by
  simp [State.nextDraw, hd, hn]

theorem dropDraw_congr {s t : State} (hd : t.draws = s.draws) (hn : t.drawCount = s.drawCount) :
    t.dropDraw.draws = s.dropDraw.draws ∧ t.dropDraw.drawCount = s.dropDraw.drawCount := by
  unfold State.dropDraw
  rw [hd]
  split <;> simp_all

theorem drawAt_congr {s t : State} (hd : t.draws = s.draws) (hn : t.drawCount = s.drawCount) (n : Nat) :
    t.drawAt n = s.drawAt n := by
  induction n generalizing s t with
  | zero => exact nextDraw_congr hd hn
  | succ n ih => exact ih (dropDraw_congr hd hn).1 (dropDraw_congr hd hn).2

@[simp] theorem emit_nextDraw (s : State) (e : IoEvent) : (s.emit e).nextDraw = s.nextDraw := rfl
@[simp] theorem setExp_nextDraw (s : State) (r : ExpReg) (v : Byte) : (s.setExp r v).nextDraw = s.nextDraw := rfl
@[simp] theorem setBank_nextDraw (s : State) (b : Bank) (v : BankState) : (s.setBank b v).nextDraw = s.nextDraw := by
  cases b <;> rfl

@[simp] theorem emit_dropDraw (s : State) (e : IoEvent) : (s.emit e).dropDraw = s.dropDraw.emit e := by
  unfold State.dropDraw State.emit; split <;> simp_all
@[simp] theorem setExp_dropDraw (s : State) (r : ExpReg) (v : Byte) : (s.setExp r v).dropDraw = s.dropDraw.setExp r v := by
  unfold State.dropDraw State.setExp State.addr; split <;> simp_all
@[simp] theorem setBank_dropDraw (s : State) (b : Bank) (v : BankState) :
    (s.setBank b v).dropDraw = s.dropDraw.setBank b v := by
  cases b <;> (unfold State.dropDraw State.setBank; split <;> simp_all)

@[simp] theorem drawAt_zero (s : State) : s.drawAt 0 = s.nextDraw := rfl

@[simp] theorem drawAt_succ (s : State) (n : Nat) : s.drawAt (n + 1) = s.dropDraw.drawAt n := rfl

/-- A transaction uses up one draw, whatever else it changes. -/
theorem State.BusGood.drop {s t : State} {n : Nat} (h : s.BusGood (n + 1)) (hd : t.draws = s.dropDraw.draws)
    (hn : t.drawCount = s.dropDraw.drawCount) : t.BusGood n := by
  intro k hk
  rw [drawAt_congr hd hn]
  exact h (k + 1) (by omega)

theorem State.BusGood.congr {s t : State} {n : Nat} (h : s.BusGood n) (hd : t.draws = s.draws)
    (hn : t.drawCount = s.drawCount) : t.BusGood n :=
  fun k hk => by rw [drawAt_congr hd hn]; exact h k hk

theorem State.BusGood.mono {s : State} {m n : Nat} (h : s.BusGood n) (hm : m ≤ n) : s.BusGood m :=
  fun k hk => h k (by omega)

/-! ### Bus transactions -/

/-- A transaction that succeeds returns the register's value and changes nothing but draws and trace (R40). -/
theorem busRead_ok {r : ExpReg} {s : State} (h : s.nextDraw.ok = true) :
    busRead r s =
      (s.dropDraw.emit (.busRead s.cfg.slaveAddr (s.addr r) (some (s.readValue r s.nextDraw))),
        .ok (s.readValue r s.nextDraw)) := by
  simp [busRead, h]

theorem busRead_fail {r : ExpReg} {s : State} (h : s.nextDraw.ok = false) :
    busRead r s =
      (s.dropDraw.emit (.busRead s.cfg.slaveAddr (s.addr r) none), .error { reg := s.addr r, dir := .read }) := by
  simp [busRead, h]

/-- A write that succeeds leaves the value in its register (R41, R47). -/
theorem busWrite_ok {r : ExpReg} {v : Byte} {s : State} (h : s.nextDraw.ok = true) :
    busWrite r v s =
      ((s.dropDraw.emit (.busWrite s.cfg.slaveAddr (s.addr r) v true)).setExp r v, none) := by
  simp [busWrite, h]

/-- A write that fails leaves the old or the written value, and is an error (R41, R44). -/
theorem busWrite_fail {r : ExpReg} {v : Byte} {s : State} (h : s.nextDraw.ok = false) :
    busWrite r v s =
      (if s.nextDraw.landed then (s.dropDraw.emit (.busWrite s.cfg.slaveAddr (s.addr r) v false)).setExp r v
        else s.dropDraw.emit (.busWrite s.cfg.slaveAddr (s.addr r) v false),
        some { reg := s.addr r, dir := .write }) := by
  simp [busWrite, h]

/-- Everything but expander memory, draws, trace and DOUT keeps its value: what `applyBit` and `applyMask` may touch. -/
def OnlyLevels (s t : State) : Prop :=
  t = { s with dout := t.dout, mem := t.mem, draws := t.draws, drawCount := t.drawCount, trace := t.trace }

theorem OnlyLevels.refl (s : State) : OnlyLevels s s := rfl

theorem OnlyLevels.trans {s t u : State} (h : OnlyLevels s t) (k : OnlyLevels t u) : OnlyLevels s u := by
  unfold OnlyLevels at *
  rw [h] at k
  exact k

theorem OnlyLevels.cfg {s t : State} (h : OnlyLevels s t) : t.cfg = s.cfg := by rw [h]
theorem OnlyLevels.bankX {s t : State} (h : OnlyLevels s t) : t.bankX = s.bankX := by rw [h]
theorem OnlyLevels.bankD {s t : State} (h : OnlyLevels s t) : t.bankD = s.bankD := by rw [h]
theorem OnlyLevels.bank {s t : State} (h : OnlyLevels s t) (b : Bank) : t.bank b = s.bank b := by
  cases b
  · exact h.bankX
  · exact h.bankD
theorem OnlyLevels.halted {s t : State} (h : OnlyLevels s t) : t.halted = s.halted := by rw [h]
theorem OnlyLevels.initialized {s t : State} (h : OnlyLevels s t) : t.initialized = s.initialized := by rw [h]
theorem OnlyLevels.host {s t : State} (h : OnlyLevels s t) : t.host = s.host := by rw [h]

theorem dropDraw_eq (s : State) :
    s.dropDraw = { s with draws := s.dropDraw.draws, drawCount := s.dropDraw.drawCount } := by
  unfold State.dropDraw; split <;> rfl

theorem busRead_onlyLevels (r : ExpReg) (s : State) : OnlyLevels s (busRead r s).1 := by
  have h := dropDraw_eq s
  unfold busRead
  dsimp only
  split <;> (unfold OnlyLevels State.emit; dsimp only; rw [h])

theorem busWrite_onlyLevels (r : ExpReg) (v : Byte) (s : State) : OnlyLevels s (busWrite r v s).1 := by
  have h := dropDraw_eq s
  unfold busWrite
  dsimp only
  split
  · unfold OnlyLevels State.setExp State.emit; dsimp only; rw [h]
  · split
    · unfold OnlyLevels State.setExp State.emit; dsimp only; rw [h]
    · unfold OnlyLevels State.emit; dsimp only; rw [h]

@[simp] theorem busRead_mem (r : ExpReg) (s : State) : (busRead r s).1.mem = s.mem := by
  unfold busRead; dsimp only; split <;> simp

@[simp] theorem busRead_dout (r : ExpReg) (s : State) : (busRead r s).1.dout = s.dout := by
  unfold busRead; dsimp only; split <;> simp

@[simp] theorem busWrite_dout (r : ExpReg) (v : Byte) (s : State) : (busWrite r v s).1.dout = s.dout := by
  unfold busWrite; dsimp only; split <;> (try split) <;> simp

/-- A write reaches no register but its own (R16's counterpart for EXP, R42). -/
theorem busWrite_onlyRegister (r : ExpReg) (v : Byte) (s : State) : OnlyRegister r s (busWrite r v s).1 := by
  intro a ha
  have hw : Memory.read (Memory.write s.mem (s.addr r).toNat v) a = Memory.read s.mem a :=
    Memory.read_write_other _ ha _
  unfold busWrite
  dsimp only
  split
  · simpa [State.addr] using hw
  · split
    · simpa [State.addr] using hw
    · simp

theorem busWrite_mem_wf (r : ExpReg) (v : Byte) (s : State) (h : Memory.wf s.mem = true) :
    Memory.wf (busWrite r v s).1.mem = true := by
  unfold busWrite
  dsimp only
  split
  · exact setExp_mem_wf _ _ _ (by simpa using h)
  · split
    · exact setExp_mem_wf _ _ _ (by simpa using h)
    · simpa using h

theorem busWrites_onlyLevels (l : List (ExpReg × Byte)) (s : State) : OnlyLevels s (busWrites l s).1 := by
  induction l generalizing s with
  | nil => exact .refl s
  | cons p rest ih =>
    obtain ⟨r, v⟩ := p
    have hw := busWrite_onlyLevels r v s
    unfold busWrites
    split
    · rename_i s1 he
      rw [he] at hw
      exact hw.trans (ih s1)
    · rename_i s1 e he
      rw [he] at hw
      exact hw

theorem busWrites_mem_wf (l : List (ExpReg × Byte)) (s : State) (h : Memory.wf s.mem = true) :
    Memory.wf (busWrites l s).1.mem = true := by
  induction l generalizing s with
  | nil => exact h
  | cons p rest ih =>
    obtain ⟨r, v⟩ := p
    have hw := busWrite_mem_wf r v s h
    unfold busWrites
    split <;> (rename_i he; rw [he] at hw)
    · exact ih _ hw
    · exact hw

theorem busWrites_dout (l : List (ExpReg × Byte)) (s : State) : (busWrites l s).1.dout = s.dout := by
  induction l generalizing s with
  | nil => rfl
  | cons p rest ih =>
    obtain ⟨r, v⟩ := p
    have hw := busWrite_dout r v s
    unfold busWrites
    split <;> (rename_i he; rw [he] at hw)
    · rw [ih, hw]
    · exact hw

/-! ### Pin writes and the level primitives -/

theorem pinWrite_onlyLevels (c : Nat) (lvl : Bool) (s : State) : OnlyLevels s (pinWrite c lvl s) := rfl

@[simp] theorem pinWrite_mem (c : Nat) (lvl : Bool) (s : State) : (pinWrite c lvl s).mem = s.mem := rfl
@[simp] theorem pinWrite_dout (c : Nat) (lvl : Bool) (s : State) : (pinWrite c lvl s).dout = s.dout.set c (some lvl) := rfl
@[simp] theorem pinWrite_cfg (c : Nat) (lvl : Bool) (s : State) : (pinWrite c lvl s).cfg = s.cfg := rfl
@[simp] theorem pinWrite_draws (c : Nat) (lvl : Bool) (s : State) : (pinWrite c lvl s).draws = s.draws := rfl
@[simp] theorem pinWrite_drawCount (c : Nat) (lvl : Bool) (s : State) : (pinWrite c lvl s).drawCount = s.drawCount := rfl

theorem pinWrites_onlyLevels (m : Byte) (l : List Nat) (s : State) : OnlyLevels s (pinWrites m l s) := by
  induction l generalizing s with
  | nil => exact .refl s
  | cons c rest ih => exact (pinWrite_onlyLevels c _ s).trans (ih _)

@[simp] theorem pinWrites_mem (m : Byte) (l : List Nat) (s : State) : (pinWrites m l s).mem = s.mem := by
  induction l generalizing s with
  | nil => rfl
  | cons c rest ih => simp [pinWrites, ih]

@[simp] theorem pinWrites_draws (m : Byte) (l : List Nat) (s : State) : (pinWrites m l s).draws = s.draws := by
  induction l generalizing s with
  | nil => rfl
  | cons c rest ih => simp [pinWrites, ih]

@[simp] theorem pinWrites_drawCount (m : Byte) (l : List Nat) (s : State) :
    (pinWrites m l s).drawCount = s.drawCount := by
  induction l generalizing s with
  | nil => rfl
  | cons c rest ih => simp [pinWrites, ih]

@[simp] theorem pinWrites_dout_length (m : Byte) (l : List Nat) (s : State) :
    (pinWrites m l s).dout.length = s.dout.length := by
  induction l generalizing s with
  | nil => rfl
  | cons c rest ih => simp [pinWrites, ih]

/-- A channel of the list takes its bit of the mask; every other keeps its level. -/
theorem pinWrites_dout (m : Byte) (l : List Nat) (s : State) (j : Nat) :
    (pinWrites m l s).dout[j]? = if j ∈ l ∧ j < s.dout.length then some (some (m.getLsbD j)) else s.dout[j]? := by
  induction l generalizing s with
  | nil => simp [pinWrites]
  | cons c rest ih =>
    rw [pinWrites, ih]
    simp only [pinWrite_dout, List.length_set, List.mem_cons]
    by_cases hj : j < s.dout.length
    · by_cases hr : j ∈ rest
      · simp [hj, hr]
      · by_cases hc : j = c
        · subst hc
          simp [hj]
        · simp [hr, hc, Ne.symm hc]
    · have hn : s.dout[j]? = none := List.getElem?_eq_none (by omega)
      simp [hj]

/-- One pin write for each channel of the list, in its order (R56). -/
theorem pinWrites_trace (m : Byte) (l : List Nat) (s : State) :
    (pinWrites m l s).trace =
      s.trace ++ l.map (fun c => .pinWrite c (s.cfg.pinOut.getD c 0) (m.getLsbD c)) := by
  induction l generalizing s with
  | nil => simp [pinWrites]
  | cons c rest ih => rw [pinWrites, ih]; simp [pinWrite]

theorem applyBit_onlyLevels (b : Bank) (c : Nat) (lvl : Bool) (s : State) : OnlyLevels s (applyBit b c lvl s).1 := by
  cases b with
  | d => exact pinWrite_onlyLevels c lvl s
  | x =>
    have hr := busRead_onlyLevels .olatA s
    simp only [applyBit, applyBitX]
    split <;> (rename_i he; rw [he] at hr)
    · exact hr
    · exact hr.trans (busWrite_onlyLevels _ _ _)

theorem applyMask_onlyLevels (b : Bank) (m : Byte) (s : State) : OnlyLevels s (applyMask b m s).1 := by
  cases b with
  | d => exact pinWrites_onlyLevels _ _ s
  | x => exact busWrite_onlyLevels _ _ s

theorem applyBit_mem_wf (b : Bank) (c : Nat) (lvl : Bool) (s : State) (h : Memory.wf s.mem = true) :
    Memory.wf (applyBit b c lvl s).1.mem = true := by
  cases b with
  | d => exact h
  | x =>
    have hr := busRead_mem .olatA s
    simp only [applyBit, applyBitX]
    split <;> (rename_i he; rw [he] at hr)
    · rw [hr]; exact h
    · exact busWrite_mem_wf _ _ _ (by rw [hr]; exact h)

theorem applyMask_mem_wf (b : Bank) (m : Byte) (s : State) (h : Memory.wf s.mem = true) :
    Memory.wf (applyMask b m s).1.mem = true := by
  cases b with
  | d => simpa [applyMask] using h
  | x => exact busWrite_mem_wf _ _ _ h

theorem applyBit_dout_length (b : Bank) (c : Nat) (lvl : Bool) (s : State) :
    (applyBit b c lvl s).1.dout.length = s.dout.length := by
  cases b with
  | d => simp [applyBit]
  | x =>
    have hr := busRead_dout .olatA s
    simp only [applyBit, applyBitX]
    split <;> (rename_i he; rw [he] at hr)
    · rw [hr]
    · rw [busWrite_dout, hr]

theorem applyMask_dout_length (b : Bank) (m : Byte) (s : State) :
    (applyMask b m s).1.dout.length = s.dout.length := by
  cases b with
  | d => simp [applyMask]
  | x => simp [applyMask]

/-- ApplyBit and ApplyMask reach no register but the output latch (R54 to R56). -/
theorem applyBit_onlyRegister (b : Bank) (c : Nat) (lvl : Bool) (s : State) :
    OnlyRegister .olatA s (applyBit b c lvl s).1 := by
  cases b with
  | d => exact fun a _ => rfl
  | x =>
    have hr := busRead_onlyLevels .olatA s
    have hm := busRead_mem .olatA s
    simp only [applyBit, applyBitX]
    split <;> (rename_i he; rw [he] at hr hm)
    · exact fun a _ => by rw [hm]
    · intro a ha
      rw [busWrite_onlyRegister _ _ _ a (by rw [State.addr, hr.cfg]; exact ha), hm]

theorem applyMask_onlyRegister (b : Bank) (m : Byte) (s : State) : OnlyRegister .olatA s (applyMask b m s).1 := by
  cases b with
  | x => exact busWrite_onlyRegister _ _ _
  | d => exact fun a _ => by simp [applyMask]

/-- A list of register writes reaches no register but those of the list. -/
theorem busWrites_reach (l : List (ExpReg × Byte)) (s : State) {a : Nat} (h : ∀ p ∈ l, a ≠ (s.addr p.1).toNat) :
    Memory.read (busWrites l s).1.mem a = Memory.read s.mem a := by
  induction l generalizing s with
  | nil => rfl
  | cons p rest ih =>
    obtain ⟨r, v⟩ := p
    have hw := busWrite_onlyLevels r v s
    have hr := busWrite_onlyRegister r v s a (h (r, v) (by simp))
    unfold busWrites
    split <;> (rename_i he; rw [he] at hw hr)
    · rw [ih _ fun p hp => by rw [State.addr, hw.cfg]; exact h p (by simp [hp]), hr]
    · exact hr

/-- The read-modify-write with both transactions succeeding (R54): read, then write, one bit of the latch changed. -/
theorem applyBitX_ok {c : Nat} {lvl : Bool} {s : State} (h : s.BusGood 2) :
    ∃ t, applyBitX c lvl s = (t, none) ∧ t.exp .olatA = withBit (s.exp .olatA) c lvl ∧ OnlyRegister .olatA s t ∧
      t.dout = s.dout ∧ t.draws = s.dropDraw.dropDraw.draws ∧ t.drawCount = s.dropDraw.dropDraw.drawCount ∧
      t.trace = s.trace ++ [.busRead s.cfg.slaveAddr (s.addr .olatA) (some (s.exp .olatA)),
        .busWrite s.cfg.slaveAddr (s.addr .olatA) (withBit (s.exp .olatA) c lvl) true] := by
  have h0 : s.nextDraw.ok = true := h 0 (by omega)
  have h1 : (s.dropDraw.emit (.busRead s.cfg.slaveAddr (s.addr .olatA) (some (s.exp .olatA)))).nextDraw.ok = true := by
    rw [emit_nextDraw]
    exact h 1 (by omega)
  refine ⟨_, by simp only [applyBitX, busRead_ok h0, State.readValue, busWrite_ok h1]; rfl, ?_, ?_, ?_, ?_, ?_, ?_⟩
  · simp
  · intro a ha
    simpa [State.addr] using Memory.read_write_other _ ha _
  · simp
  · simp
  · simp
  · simp [State.addr]

/-- The read-modify-write whose read fails (R54): one transaction, nothing changed. -/
theorem applyBitX_readFails {c : Nat} {lvl : Bool} {s : State} (h : s.nextDraw.ok = false) :
    applyBitX c lvl s =
      (s.dropDraw.emit (.busRead s.cfg.slaveAddr (s.addr .olatA) none),
        some { reg := s.addr .olatA, dir := .read }) := by
  simp only [applyBitX, busRead_fail h]

/-- The read-modify-write whose write fails (R44, R54): the latch is as before, or has its bit set to the level. -/
theorem applyBitX_writeFails {c : Nat} {lvl : Bool} {s : State} (h : s.nextDraw.ok = true)
    (h1 : (s.drawAt 1).ok = false) :
    ∃ t, applyBitX c lvl s = (t, some { reg := s.addr .olatA, dir := .write }) ∧
      (t.exp .olatA = if (s.drawAt 1).landed then withBit (s.exp .olatA) c lvl else s.exp .olatA) ∧
      OnlyRegister .olatA s t ∧ t.dout = s.dout ∧
      t.trace = s.trace ++ [.busRead s.cfg.slaveAddr (s.addr .olatA) (some (s.exp .olatA)),
        .busWrite s.cfg.slaveAddr (s.addr .olatA) (withBit (s.exp .olatA) c lvl) false] := by
  have hd : (s.dropDraw.emit (.busRead s.cfg.slaveAddr (s.addr .olatA) (some (s.exp .olatA)))).nextDraw = s.drawAt 1 := rfl
  simp only [applyBitX, busRead_ok h, State.readValue]
  rw [busWrite_fail (by rw [hd]; exact h1), hd]
  cases (s.drawAt 1).landed
  · refine ⟨_, by simp only [Bool.false_eq_true, if_false]; congr 3; simp [State.addr], by simp, ?_, by simp, ?_⟩
    · intro a _; simp
    · simp [State.addr]
  · refine ⟨_, by simp only [if_true]; congr 3; simp [State.addr], by simp, ?_, by simp, ?_⟩
    · intro a ha; simpa [State.addr] using Memory.read_write_other _ ha _
    · simp [State.addr]

/-! ### Levels do not look at the banks' records -/

@[simp] theorem setBank_addr (s : State) (b : Bank) (v : BankState) (r : ExpReg) : (s.setBank b v).addr r = s.addr r := by
  simp [State.addr]

@[simp] theorem setBank_exp (s : State) (b : Bank) (v : BankState) (r : ExpReg) : (s.setBank b v).exp r = s.exp r := by
  simp [State.exp]

@[simp] theorem setBank_readValue (s : State) (b : Bank) (v : BankState) (r : ExpReg) (d : BusDraw) :
    (s.setBank b v).readValue r d = s.readValue r d := by
  cases r <;> simp [State.readValue]

theorem emit_setBank (s : State) (b : Bank) (v : BankState) (e : IoEvent) :
    (s.setBank b v).emit e = (s.emit e).setBank b v := by cases b <;> rfl

theorem setExp_setBank (s : State) (b : Bank) (v : BankState) (r : ExpReg) (x : Byte) :
    (s.setBank b v).setExp r x = (s.setExp r x).setBank b v := by cases b <;> rfl

theorem busRead_setBank (r : ExpReg) (s : State) (b : Bank) (v : BankState) :
    busRead r (s.setBank b v) = ((busRead r s).1.setBank b v, (busRead r s).2) := by
  cases h : s.nextDraw.ok
  · rw [busRead_fail h, busRead_fail (by simpa using h)]; simp [emit_setBank]
  · rw [busRead_ok h, busRead_ok (by simpa using h)]; simp [emit_setBank]

theorem busWrite_setBank (r : ExpReg) (x : Byte) (s : State) (b : Bank) (v : BankState) :
    busWrite r x (s.setBank b v) = ((busWrite r x s).1.setBank b v, (busWrite r x s).2) := by
  cases h : s.nextDraw.ok
  · rw [busWrite_fail h, busWrite_fail (by simpa using h)]
    cases hl : s.nextDraw.landed <;> simp [emit_setBank, setExp_setBank, hl]
  · rw [busWrite_ok h, busWrite_ok (by simpa using h)]; simp [emit_setBank, setExp_setBank]

theorem pinWrite_setBank (c : Nat) (lvl : Bool) (s : State) (b : Bank) (v : BankState) :
    pinWrite c lvl (s.setBank b v) = (pinWrite c lvl s).setBank b v := by cases b <;> rfl

theorem pinWrites_setBank (m : Byte) (l : List Nat) (s : State) (b : Bank) (v : BankState) :
    pinWrites m l (s.setBank b v) = (pinWrites m l s).setBank b v := by
  induction l generalizing s with
  | nil => rfl
  | cons c rest ih => simp [pinWrites, pinWrite_setBank, ih]

/-- Applying a level commutes with any change of a bank's record: taking and releasing a lock, recording a status. -/
theorem applyBit_setBank (b : Bank) (c : Nat) (lvl : Bool) (s : State) (b' : Bank) (v : BankState) :
    applyBit b c lvl (s.setBank b' v) = ((applyBit b c lvl s).1.setBank b' v, (applyBit b c lvl s).2) := by
  cases b with
  | d => simp [applyBit, pinWrite_setBank]
  | x =>
    simp only [applyBit, applyBitX, busRead_setBank]
    rcases busRead .olatA s with ⟨s1, e | x⟩ <;> simp [busWrite_setBank]

theorem applyMask_setBank (b : Bank) (m : Byte) (s : State) (b' : Bank) (v : BankState) :
    applyMask b m (s.setBank b' v) = ((applyMask b m s).1.setBank b' v, (applyMask b m s).2) := by
  cases b with
  | d => simp [applyMask, pinWrites_setBank, State.count]
  | x => exact busWrite_setBank _ _ _ _ _

/-- Releasing a lock that was free before: after a body that touches levels only, the bank's record is as it was. -/
theorem release_onlyLevels {s u : State} {b : Bank} (h : OnlyLevels s u) (hl : (s.bank b).lock = none) :
    u.setBank b { s.bank b with lock := none } = u := by
  have e : ({ s.bank b with lock := none } : BankState) = u.bank b := by rw [h.bank b, ← hl]
  rw [e]
  exact setBank_same u b

/-! ### Bits of levels and masks -/

/-- Setting one bit (R54): that bit is the level, the other seven are as before. -/
theorem withBit_getLsbD (v : Byte) (c : Nat) (lvl : Bool) (j : Nat) (hj : j < 8) :
    (withBit v c lvl).getLsbD j = if j = c then lvl else v.getLsbD j := by
  unfold withBit bitMask Config.onLevel
  cases lvl <;> by_cases h : j = c
  · subst h; simp [hj]
  · have : ¬ (j - c = 0 ∧ ¬ j < c) := by omega
    by_cases hlt : j < c
    · simp [h, hj, hlt]
    · have : j - c ≠ 0 := by omega
      simp [h, hj, this]
  · subst h; simp [hj]
  · by_cases hlt : j < c
    · simp [h, hlt]
    · have : j - c ≠ 0 := by omega
      simp [h, this]

theorem bitMask_getLsbD (c j : Nat) (hj : j < 8) : (bitMask c).getLsbD j = decide (j = c) := by
  unfold bitMask
  by_cases h : j = c
  · subst h; simp [hj]
  · by_cases hlt : j < c
    · simp [h, hlt]
    · have : j - c ≠ 0 := by omega
      simp [h, this]

/-- Bit j of the full mask of n channels (R78). -/
theorem fullMask_getLsbD (n j : Nat) (hn : n ≤ 8) (hj : j < 8) : (fullMask n).getLsbD j = decide (j < n) := by
  interval_cases n <;> interval_cases j <;> decide

/-- Bit j of the mask of a status list is the level of its channel j (R78). -/
theorem levelMask_getLsbD (p : Phase) (l : List Status) (c j : Nat) (hj : j < 8) :
    (levelMask p c l).getLsbD j =
      (decide (c ≤ j) && (match l[j - c]? with | some st => levelOf p st | none => false)) := by
  induction l generalizing c with
  | nil => simp [levelMask]
  | cons st rest ih =>
    have hm : (if levelOf p st then bitMask c else 0#8).getLsbD j = (levelOf p st && decide (j = c)) := by
      cases levelOf p st
      · simp
      · rw [if_pos rfl, bitMask_getLsbD c j hj, Bool.true_and]
    rw [levelMask, BitVec.getLsbD_or, ih, hm]
    by_cases hc : j = c
    · subst hc
      have h2 : ¬ j + 1 ≤ j := by omega
      simp [h2]
    · by_cases hlt : j < c
      · have h1 : ¬ c ≤ j := by omega
        have h2 : ¬ c + 1 ≤ j := by omega
        simp [hc, h1, h2]
      · have h1 : c ≤ j := by omega
        have h2 : c + 1 ≤ j := by omega
        have h3 : j - c = (j - (c + 1)) + 1 := by omega
        simp [hc, h1, h2, h3]

/-! ### Locks and checks -/

/-- Everything a body under a free lock does (R50). -/
theorem withLock_free {b : Bank} {a : Agent} {body : State → State × Option BusError}
    {after : Option BusError → State → State} {s : State} (h : (s.bank b).lock = none) :
    withLock b a body after s =
      .next (after (body (s.setLock b (some a))).2 ((body (s.setLock b (some a))).1.setLock b none)) := by
  simp [withLock, h]

/-- A body under a lock answers a next state only from a free lock. -/
theorem withLock_next {b : Bank} {a : Agent} {body : State → State × Option BusError}
    {after : Option BusError → State → State} {s t : State} (h : withLock b a body after s = .next t) :
    (s.bank b).lock = none ∧
      t = after (body (s.setLock b (some a))).2 ((body (s.setLock b (some a))).1.setLock b none) := by
  unfold withLock at h
  split at h
  · cases h
  · rename_i hl
    exact ⟨hl, by cases h; rfl⟩

/-- A body that commutes with changes of the banks' records does under a free lock what it does without one. -/
theorem withLock_levels {b : Bank} {a : Agent} {body : State → State × Option BusError}
    {after : Option BusError → State → State} {s : State} (h : (s.bank b).lock = none)
    (hb : ∀ v, body (s.setBank b v) = ((body s).1.setBank b v, (body s).2)) (hl : (body s).1.bank b = s.bank b) :
    withLock b a body after s = .next (after (body s).2 (body s).1) := by
  rw [withLock_free h]
  simp only [State.setLock, hb, setBank_bank, setBank_setBank]
  congr 2
  have e : ({ s.bank b with lock := none } : BankState) = (body s).1.bank b := by rw [hl, ← h]
  rw [e]
  exact setBank_same _ _

/-- A list of checks answers the error, or leaves the command to its body (R125). -/
theorem guarded_pass {checks : List (Option ErrorResult)} {s : State} {body : Host.Outcome State Fault Refusal}
    (h : firstError checks = none) : guarded checks s body = body := by
  simp [guarded, h]

theorem guarded_error {checks : List (Option ErrorResult)} {s : State} {body : Host.Outcome State Fault Refusal}
    {e : ErrorResult} (h : firstError checks = some e) : guarded checks s body = .next (s.raise e) := by
  simp [guarded, h]

/-- A command under checks that answers a next state ends with an error's response, or as its body does. -/
theorem guarded_next {checks : List (Option ErrorResult)} {s t : State} {body : Host.Outcome State Fault Refusal}
    (h : guarded checks s body = .next t) : (∃ e, t = s.raise e) ∨ (firstError checks = none ∧ body = .next t) := by
  unfold guarded at h
  split at h
  · cases h; exact .inl ⟨_, rfl⟩
  · exact .inr ⟨‹_›, h⟩

/-- A command under checks ends with an error's response, or as its body ends. -/
theorem guarded_cases (checks : List (Option ErrorResult)) (s : State) (body : Host.Outcome State Fault Refusal) :
    (∃ e, firstError checks = some e ∧ guarded checks s body = .next (s.raise e)) ∨
      (firstError checks = none ∧ guarded checks s body = body) := by
  cases h : firstError checks with
  | none => exact .inr ⟨rfl, guarded_pass h⟩
  | some e => exact .inl ⟨e, rfl, guarded_error h⟩

end Sys2Proof.Machine
end

