-- ==== Sys2Proof/Laws/Meanings.lean ====
section
/-! SUPPORT. One lemma per meaning that works under a lock: what it does when its checks pass and its lock is free, with the lock's
taking and release gone. -/

namespace Sys2Proof.Machine

theorem checks_pass {s : State} (hh : s.halted = false) (hi : s.initialized = true) :
    firstError [checkHalted s, checkInitialized s] = none := by
  simp [checkHalted, checkInitialized, firstError, hh, hi]

theorem checks_update {s : State} {b : Bank} {c : Target} (hh : s.halted = false) (hb : b = .x → s.initialized = true)
    (hc : ∀ n, c = .chan n → n.toNat < s.count b) :
    firstError [checkHalted s, checkChannel b c s, checkBankReady b s] = none := by
  have h1 : checkChannel b c s = none := by
    cases c with
    | all => rfl
    | chan n => simp [checkChannel, hc n rfl]
  have h2 : checkBankReady b s = none := by
    cases b with
    | x => simp [checkBankReady, checkInitialized, hb rfl]
    | d => rfl
  simp [checkHalted, firstError, hh, h1, h2]

theorem checks_flash {s : State} {b : Bank} (hh : s.halted = false) (hb : b = .x → s.initialized = true) :
    firstError [checkHalted s, checkBankReady b s] = none := by
  have h2 : checkBankReady b s = none := by
    cases b with
    | x => simp [checkBankReady, checkInitialized, hb rfl]
    | d => rfl
  simp [checkHalted, firstError, hh, h2]

theorem execWrout_run {s : State} {m : Byte} (hh : s.halted = false) (hi : s.initialized = true)
    (hl : s.bankX.lock = none) :
    exec (.wrout m) s = .next (finish (busWrite .olatA m s).2 (busWrite .olatA m s).1) := by
  simp only [exec, execWrout]
  rw [guarded_pass (checks_pass hh hi)]
  exact withLock_levels (b := .x) hl (busWrite_setBank _ _ _ _) ((busWrite_onlyLevels _ _ _).bank .x)

theorem execRdin_run {s : State} (hh : s.halted = false) (hi : s.initialized = true) :
    exec .rdin s = .next (finishRead (busRead .gpioB s)) := by
  simp only [exec, execRdin]
  rw [guarded_pass (checks_pass hh hi)]

theorem execInit_run {s : State} (hh : s.halted = false) :
    exec .init s = .next (finishInit (busWrites initWrites s).2 (busWrites initWrites s).1) := by
  simp only [exec, execInit]
  rw [guarded_pass (by simp [checkHalted, firstError, hh])]

/-- Recording a status and applying its level under a free lock (R81). -/
theorem recordAndApply_run {s : State} {b : Bank} {a : Agent} {c : Nat} {st : Status} {lvl : Bool}
    {after : Option BusError → State → State} (hl : (s.bank b).lock = none) :
    withLock b a (recordAndApply b c st lvl) after s =
      .next (after (applyBit b c lvl s).2
        ((applyBit b c lvl s).1.setBank b { s.bank b with status := (s.bank b).status.set c st })) := by
  rw [withLock_free hl]
  simp [recordAndApply, State.setChannelStatus, State.setStatus, State.setLock, applyBit_setBank, hl]

/-- Recording a status for every channel and applying the mask under a free lock (R83). -/
theorem recordAndApplyAll_run {s : State} {b : Bank} {a : Agent} {st : Status} {m : Byte}
    {after : Option BusError → State → State} (hl : (s.bank b).lock = none) :
    withLock b a (recordAndApplyAll b st m) after s =
      .next (after (applyMask b m s).2
        ((applyMask b m s).1.setBank b { s.bank b with status := List.replicate (s.count b) st })) := by
  rw [withLock_free hl]
  simp [recordAndApplyAll, State.setAllStatus, State.setStatus, State.setLock, applyMask_setBank, State.count, hl]

theorem execUpdate_chan {s : State} {b : Bank} {n : Byte} {st : Status} (hh : s.halted = false)
    (hb : b = .x → s.initialized = true) (hc : n.toNat < s.count b) :
    exec (.update b (.chan n) st) s = updateChannel b n.toNat st s := by
  simp only [exec, execUpdate]
  rw [guarded_pass (checks_update hh hb (by rintro m ⟨rfl⟩; exact hc))]

theorem execUpdate_all {s : State} {b : Bank} {st : Status} (hh : s.halted = false)
    (hb : b = .x → s.initialized = true) : exec (.update b .all st) s = updateAll b st s := by
  simp only [exec, execUpdate]
  rw [guarded_pass (checks_update hh hb (by rintro m ⟨⟩))]

theorem execFlash_run {s : State} {b : Bank} {md : FlashMode} (hh : s.halted = false)
    (hb : b = .x → s.initialized = true) :
    exec (.flash b md) s =
      .next ((s.setFlashActive b true).setHost (some (.flash b (flashSeq s.cfg.flashRepeat (s.count b) md)))) := by
  simp only [exec, execFlash]
  rw [guarded_pass (checks_flash hh hb)]

/-- A renderer step that applies a level (R87): the channel holds the status, no flash, not halted. -/
theorem rendererStep_apply {s : State} {b : Bank} {r : Blink} {c : Nat} {rest : List (Blink × Nat)}
    (hp : (s.bank b).pass = (r, c) :: rest) (hl : (s.bank b).lock = none) (hh : s.halted = false)
    (hf : (s.bank b).flashActive = false) (hs : (s.bank b).status[c]? = some (.blink r)) :
    rendererStep b s = .next (finishRender b rest (applyBit b c (subphase (s.bank b).phase r) s).2
      (applyBit b c (subphase (s.bank b).phase r) s).1) := by
  simp only [rendererStep, hp]
  rw [withLock_free hl]
  have hbody : renderChannel b r c (s.setLock b (some (.renderer b))) =
      applyBit b c (subphase (s.bank b).phase r) (s.setLock b (some (.renderer b))) := by
    simp [renderChannel, State.setLock, hh, hf, hs]
  rw [hbody]
  simp only [State.setLock, applyBit_setBank, setBank_bank, setBank_setBank]
  rw [release_onlyLevels (applyBit_onlyLevels _ _ _ _) hl]

/-- A renderer step that applies nothing (R87, R90). -/
theorem rendererStep_skip {s : State} {b : Bank} {r : Blink} {c : Nat} {rest : List (Blink × Nat)}
    (hp : (s.bank b).pass = (r, c) :: rest) (hl : (s.bank b).lock = none)
    (hn : ¬(s.halted = false ∧ (s.bank b).flashActive = false ∧ (s.bank b).status[c]? = some (.blink r))) :
    rendererStep b s = .next (s.setBank b { s.bank b with pass := rest }) := by
  simp only [rendererStep, hp]
  rw [withLock_free hl]
  have hbody : renderChannel b r c (s.setLock b (some (.renderer b))) = (s.setLock b (some (.renderer b)), none) := by
    simp only [renderChannel, State.setLock, setBank_halted, setBank_bank]
    rw [if_neg hn]
  rw [hbody]
  simp [finishRender, State.setPass, State.setLock, hl]

theorem flashStep_mask {s : State} {b : Bank} {m : Byte} {rest : List Byte} (hl : (s.bank b).lock = none) :
    flashStep b (m :: rest) s = .next (finishMask b rest (applyMask b m s).2 (applyMask b m s).1) :=
  withLock_levels hl (applyMask_setBank _ _ _ _) ((applyMask_onlyLevels _ _ _).bank b)

theorem flashStep_restore {s : State} {b : Bank} (hl : (s.bank b).lock = none) :
    flashStep b [] s = .next (endFlash b (applyMask b (s.statusMask b) s).2 (applyMask b (s.statusMask b) s).1) := by
  simp only [flashStep]
  rw [withLock_free hl]
  have hm : (s.setLock b (some .host)).statusMask b = s.statusMask b := by simp [State.statusMask, State.setLock]
  simp only [restoreBank, hm]
  simp only [State.setLock, applyMask_setBank, setBank_bank, setBank_setBank]
  rw [release_onlyLevels (applyMask_onlyLevels _ _ _) hl]

/-- SHUTDOWN's step S1 when the expander was initialized (R110). -/
theorem execShutdown_initialized {s : State} (hh : s.halted = false) (hi : s.initialized = true)
    (hl : s.bankX.lock = none) :
    exec .shutdown s = .next
      (((busWrite .olatA 0x00#8 s).1.setBank .x { s.bankX with status := List.replicate Config.nX .off }).setHost
        (some (.shutdownPins (busWrite .olatA 0x00#8 s).2))) := by
  simp only [exec, execShutdown, hh]
  rw [if_neg (by simp), withLock_free (b := .x) hl]
  simp [shutdownExpander, hi, State.setAllStatus, State.setStatus, State.setLock, applyMask, busWrite_setBank, State.count,
    channelCount, State.bank, hl]

/-- SHUTDOWN's step S1 before INIT (R110): no transaction. -/
theorem execShutdown_uninitialized {s : State} (hh : s.halted = false) (hi : s.initialized = false)
    (hl : s.bankX.lock = none) :
    exec .shutdown s = .next
      ((s.setBank .x { s.bankX with status := List.replicate Config.nX .off }).setHost (some (.shutdownPins none))) := by
  simp only [exec, execShutdown, hh]
  rw [if_neg (by simp), withLock_free (b := .x) hl]
  simp [shutdownExpander, hi, State.setAllStatus, State.setStatus, State.setLock, State.count, channelCount, State.bank, hl]

/-- SHUTDOWN's step S2 (R110). -/
theorem shutdownPinsStep_run {s : State} {err : Option BusError} (hl : s.bankD.lock = none) :
    shutdownPinsStep err s = .next
      (((pinWrites 0x00#8 (List.range s.cfg.nD) s).setBank .d
        { s.bankD with status := List.replicate s.cfg.nD .off }).setHost (some (.shutdownHalt err))) := by
  rw [shutdownPinsStep, withLock_free (b := .d) hl]
  simp [shutdownDirect, State.setAllStatus, State.setStatus, State.setLock, applyMask, pinWrites_setBank, State.count,
    channelCount, State.bank, hl]

end Sys2Proof.Machine
end

