-- ==== Sys2Proof/Laws/Levels.lean ====
section
/-! SUPPORT. What applying a level or a mask does to the levels of a bank's channels. -/

namespace Sys2Proof.Machine

@[simp] theorem otherBank_ne (b : Bank) : otherBank b ≠ b := by cases b <;> decide

@[simp] theorem level_setBank (s : State) (b b' : Bank) (v : BankState) (c : Nat) :
    (s.setBank b v).level b' c = s.level b' c := by cases b' <;> simp [State.level]

@[simp] theorem level_respond (s : State) (r : Response) (b : Bank) (c : Nat) : (s.respond r).level b c = s.level b c := by
  cases b <;> rfl

@[simp] theorem level_setHost (s : State) (o : Option HostOp) (b : Bank) (c : Nat) :
    (s.setHost o).level b c = s.level b c := by cases b <;> rfl

/-- Levels depend on expander memory, register map and DOUT only. -/
theorem level_congr {s t : State} (hm : t.mem = s.mem) (hc : t.cfg = s.cfg) (hd : t.dout = s.dout) (b : Bank) (c : Nat) :
    t.level b c = s.level b c := by
  cases b
  · simp [State.level, exp_congr hm hc]
  · simp [State.level, hd]

/-- ApplyBit with no bus error (R54, R55): its channel takes the level, every other channel of both banks keeps its own. -/
theorem applyBit_level {b : Bank} {c : Nat} {lvl : Bool} {s : State} (hx : b = .x → c < 8 ∧ s.BusGood 2)
    (hd : b = .d → c < s.dout.length) :
    (applyBit b c lvl s).2 = none ∧ (applyBit b c lvl s).1.level b c = some lvl ∧
      (∀ j, (b = .x → j < 8) → j ≠ c → (applyBit b c lvl s).1.level b j = s.level b j) ∧
      (∀ j, (applyBit b c lvl s).1.level (otherBank b) j = s.level (otherBank b) j) ∧
      OnlyRegister .olatA s (applyBit b c lvl s).1 := by
  cases b with
  | x =>
    obtain ⟨h1, h2⟩ := hx rfl
    obtain ⟨t, ht, hexp, hreg, hdout, _⟩ := applyBitX_ok (c := c) (lvl := lvl) h2
    simp only [applyBit, ht]
    refine ⟨trivial, ?_, fun j hj hne => ?_, fun j => ?_, hreg⟩
    · simp only [State.level, hexp, withBit_getLsbD _ _ _ _ h1, if_true]
    · simp only [State.level, hexp, withBit_getLsbD _ _ _ _ (hj trivial), if_neg hne]
    · simp [State.level, otherBank, hdout]
  | d =>
    have h := hd rfl
    refine ⟨rfl, ?_, fun j _ hne => ?_, fun j => ?_, fun a _ => ?_⟩
    · simp [applyBit, State.level, h]
    · simp [applyBit, State.level, Ne.symm hne]
    · simp [applyBit, State.level, otherBank, State.exp, State.addr]
    · simp [applyBit]

/-- ApplyMask with no bus error (R56): every channel of the bank takes its bit of the mask, the other bank keeps its levels. -/
theorem applyMask_level {b : Bank} {m : Byte} {s : State} (hx : b = .x → s.nextDraw.ok = true)
    (hd : b = .d → s.dout.length = s.cfg.nD) :
    (applyMask b m s).2 = none ∧ (∀ c, c < s.count b → (applyMask b m s).1.level b c = some (m.getLsbD c)) ∧
      (∀ j, (applyMask b m s).1.level (otherBank b) j = s.level (otherBank b) j) ∧
      OnlyRegister .olatA s (applyMask b m s).1 := by
  cases b with
  | x =>
    simp only [applyMask, busWrite_ok (hx rfl)]
    refine ⟨trivial, fun c _ => by simp [State.level], fun j => by simp [State.level, otherBank], fun a ha => ?_⟩
    simpa [State.addr] using Memory.read_write_other _ ha _
  | d =>
    refine ⟨rfl, fun c hc => ?_, fun j => ?_, fun a _ => by simp [applyMask]⟩
    · have hc' : c < s.cfg.nD := hc
      have hl : c < s.dout.length := by rw [hd rfl]; exact hc'
      simp only [applyMask, State.level, pinWrites_dout, State.count, channelCount, List.mem_range, hc', hl, and_self, if_true,
        Option.getD_some]
    · have hO := pinWrites_onlyLevels m (List.range (s.count .d)) s
      simp [applyMask, State.level, otherBank, exp_congr (pinWrites_mem _ _ _) hO.cfg]

theorem passSteps_length (n : Nat) : (passSteps n).length = 3 * n := by simp [passSteps]; omega

/-- A status list read by index over its range holds a status as often as it stands in the list. -/
theorem countP_range_getElem? (l : List Status) (st : Status) :
    (List.range l.length).countP (fun c => decide (l[c]? = some st)) = l.countP (fun x => decide (x = st)) := by
  induction l with
  | nil => rfl
  | cons a rest ih =>
    simp only [List.length_cons, List.range_succ_eq_map, List.countP_cons, List.countP_map, Function.comp_def,
      List.getElem?_cons_zero, List.getElem?_cons_succ, ih, Option.some.injEq]

/-- The blinking channels are those of the three rates. -/
theorem countP_isBlink (l : List Status) :
    l.countP isBlink = l.countP (fun x => decide (x = .blink .long)) + l.countP (fun x => decide (x = .blink .med)) +
      l.countP (fun x => decide (x = .blink .short)) := by
  induction l with
  | nil => rfl
  | cons a rest ih =>
    simp only [List.countP_cons, ih]
    rcases a with _ | _ | r
    · simp [isBlink]
    · simp [isBlink]
    · cases r <;> simp [isBlink] <;> omega

/-- The steps of a pass that find their status on their channel are as many as the blinking channels (R87). -/
theorem passSteps_hits (l : List Status) :
    (passSteps l.length).countP (fun p => decide (l[p.2]? = some (.blink p.1))) = l.countP isBlink := by
  simp only [passSteps, List.countP_append, List.countP_map, Function.comp_def, countP_range_getElem?, countP_isBlink]

/-- An ApplyMask that meets no bus error shows `maskTrace` (R56). -/
theorem applyMask_trace {b : Bank} {m : Byte} {s : State} (hx : b = .x → s.nextDraw.ok = true) :
    (applyMask b m s).1.trace = s.trace ++ s.maskTrace b m := by
  cases b with
  | x => simp [applyMask, busWrite_ok (hx rfl), State.maskTrace, State.addr]
  | d => simp [applyMask, pinWrites_trace, State.maskTrace, State.count, channelCount]

/-- Bit c of the restore's mask is the level the status of channel c gives (R78, R94). -/
theorem statusMask_getLsbD {s : State} {b : Bank} {c : Nat} {st : Status} (hc : c < 8)
    (hs : (s.bank b).status[c]? = some st) : (s.statusMask b).getLsbD c = levelOf (s.bank b).phase st := by
  simp [State.statusMask, levelMask_getLsbD _ _ _ _ hc, hs]

/-- Between ticks the renderer's turns change nothing. -/
theorem rendererRun_idle (b : Bank) (n : Nat) (s : State) (h : (s.bank b).pass = []) : rendererRun b n s = .next s := by
  induction n with
  | zero => rfl
  | succ n ih => simp [rendererRun, rendererStep, h, andThen, ih]

end Sys2Proof.Machine
end

