-- ==== Sys2Proof/Laws/PerInstr.lean ====
section
/-! SUPPORT. Statements about every instruction as syntax, one lemma per constructor. -/

namespace Sys2Proof.Laws.TableRow

/-- The encoding of an instruction matches the instruction's row of the opcode map, which is one of the nine and belongs to the
instruction's port (R63). -/
def Statement (i : Instr) : Prop :=
  i.row ∈ opcodeTable ∧ i.row.port = i.port ∧ i.row.accepts (encode i) = true

theorem init : Statement .init := by unfold Statement; decide

theorem wrout (m : Byte) : Statement (.wrout m) := by
  refine ⟨by simp [Instr.row, opcodeTable], rfl, ?_⟩
  revert m
  decide

theorem rdin : Statement .rdin := by unfold Statement; decide

theorem update (b : Bank) (c : Target) (st : Status) : Statement (.update b c st) := by
  refine ⟨by simp [Instr.row, opcodeTable], rfl, ?_⟩
  suffices h : ∀ (x : BitVec 1) (y : BitVec 3) (z : Byte), (0x4#4 ++ x ++ y ++ z) &&& 0xF000#16 = 0x4000#16 by
    simp [OpcodeRow.accepts, Instr.row, encode, h]
  intro x y z
  ext i hi
  simp only [BitVec.getElem_and, BitVec.getElem_append]
  interval_cases i <;> simp

theorem flash (b : Bank) (md : FlashMode) : Statement (.flash b md) := by
  unfold Statement; cases b <;> cases md <;> decide

theorem pollev : Statement .pollev := by unfold Statement; decide

theorem shutdown : Statement .shutdown := by unfold Statement; decide

theorem tick (b : Bank) : Statement (.tick b) := by unfold Statement; cases b <;> decide

theorem edge (p : Line) (k : EdgeKind) : Statement (.edge p k) := by unfold Statement; cases p <;> cases k <;> decide

end Sys2Proof.Laws.TableRow
end

