-- ==== Sys2Proof/Laws/Steps.lean ====
section
/-! SUPPORT. Inversion: one lemma per meaning and per agent's turn that says every next state it can answer, and `step_cases`, which
says what a step can be. Proofs about all steps cite these instead of unfolding the machine. -/

namespace Sys2Proof.Machine

/-! ### What a step is -/

/-- A step leaves the state (nothing scheduled), is the next step of the agent the next entry waits for, or performs the entry. -/
theorem step_cases (s : State) :
    (s.inputs = [] ∧ step s = .next s) ∨
      ∃ slot rest, s.inputs = slot :: rest ∧
        ((∃ a, s.waitsFor slot.activity = some a ∧ step s = agentStep a s) ∨
          (s.waitsFor slot.activity = none ∧ step s = perform slot.activity (s.takeSlot slot rest))) := by
  rcases h : s.inputs with _ | ⟨slot, rest⟩
  · exact .inl ⟨rfl, by simp [step, h]⟩
  · refine .inr ⟨slot, rest, rfl, ?_⟩
    rcases hw : s.waitsFor slot.activity with _ | a
    · exact .inr ⟨rfl, by simp [step, h, runSlot, hw]⟩
    · exact .inl ⟨a, rfl, by simp [step, h, runSlot, hw]⟩

/-- An entry waits for the host only as a command with one in progress, and for a renderer only as a tick of its bank with one
running. -/
theorem waitsFor_some {s : State} {act : Activity} {a : Agent} (h : s.waitsFor act = some a) :
    (∃ w op, act = .command w ∧ s.host = some op ∧ a = .host) ∨
      ∃ w b, act = .stimulus w ∧ decodeStimulus w = .ok (.tick b) ∧ (s.bank b).pass ≠ [] ∧ a = .renderer b := by
  cases act with
  | command w =>
    rcases hh : s.host with _ | op
    · simp [State.waitsFor, hh] at h
    · simp only [State.waitsFor, hh, Option.isSome_some, if_true, Option.some.injEq] at h
      exact .inl ⟨w, op, rfl, rfl, h.symm⟩
  | stimulus w =>
    simp only [State.waitsFor, stimulusBank] at h
    rcases hd : decodeStimulus w with e | i
    · simp [hd] at h
    · rw [hd] at h
      cases i <;> simp only [Instr.tickBank, reduceCtorEq] at h
      rename_i b
      by_cases hp : (s.bank b).pass = []
      · simp [hp] at h
      · simp only [List.isEmpty_iff, hp, if_false, Option.some.injEq] at h
        exact .inr ⟨w, b, rfl, hd, hp, h.symm⟩
  | hostTurn => simp [State.waitsFor] at h
  | rendererTurn b => simp [State.waitsFor] at h
  | reset => simp [State.waitsFor] at h

/-- An entry that does not wait: a command with no command in progress, a tick with no tick of its bank running. -/
theorem waitsFor_command {s : State} {w : Word} (h : s.waitsFor (.command w) = none) : s.host = none := by
  rcases hh : s.host with _ | op
  · rfl
  · simp [State.waitsFor, hh] at h

theorem waitsFor_tick {s : State} {w : Word} {b : Bank} (h : s.waitsFor (.stimulus w) = none)
    (hd : decodeStimulus w = .ok (.tick b)) : (s.bank b).pass = [] := by
  simpa [State.waitsFor, stimulusBank, hd, Instr.tickBank] using h

/-- What a word on the command port can be: a command with its instruction, or an illegal word (R64, R113). -/
theorem runCommand_cases (w : Word) (s : State) :
    (∃ i, decodeCommand w = .ok i ∧ runCommand w s = exec i s) ∨
      ((∀ i, decodeCommand w ≠ .ok i) ∧ runCommand w s = .next (s.raise (.illegalCommand w))) := by
  rcases h : decodeCommand w with e | i
  · exact .inr ⟨by simp, by simp [runCommand, h, illegalCommand]⟩
  · exact .inl ⟨i, rfl, by simp [runCommand, h]⟩

/-- What a word on the stimulus port can be (R65). -/
theorem runStimulus_cases (w : Word) (s : State) :
    (∃ i, decodeStimulus w = .ok i ∧ runStimulus w s = exec i s) ∨
      ((∀ i, decodeStimulus w ≠ .ok i) ∧ runStimulus w s = .refused (.illegalStimulus w)) := by
  rcases h : decodeStimulus w with e | i
  · exact .inr ⟨by simp, by simp [runStimulus, h]⟩
  · exact .inl ⟨i, rfl, by simp [runStimulus, h]⟩

/-- A format with reserved bits gives its own instruction or none. -/
theorem reservedZero_ok {n : Nat} {bits : BitVec n} {i j : Instr} (h : reservedZero bits i = .ok j) : j = i := by
  unfold reservedZero at h
  split at h <;> simp_all

/-- The command port's instructions are the seven commands. -/
theorem decodeCommand_port {w : Word} {i : Instr} (h : decodeCommand w = .ok i) : i.port = .command := by
  unfold decodeCommand at h
  repeat' split at h
  all_goals first | (rw [reservedZero_ok h]; rfl) | (cases h; rfl) | cases h

/-- The stimulus port's instructions are TICK and EDGE. -/
theorem decodeStimulus_port {w : Word} {i : Instr} (h : decodeStimulus w = .ok i) : i.port = .stimulus := by
  unfold decodeStimulus at h
  repeat' split at h
  all_goals first | (rw [reservedZero_ok h]; rfl) | cases h

/-! ### What each meaning can answer -/

/-- INIT (R71): an error, or the four writes and its end. -/
theorem execInit_next {s t : State} (h : exec .init s = .next t) :
    (∃ e, t = s.raise e) ∨
      (s.halted = false ∧ t = finishInit (busWrites initWrites s).2 (busWrites initWrites s).1) := by
  cases hh : s.halted
  · rw [execInit_run hh] at h
    cases h
    exact .inr ⟨rfl, rfl⟩
  · simp only [exec, execInit, checkHalted, hh, firstError, guarded, if_true] at h
    cases h
    exact .inl ⟨_, rfl⟩

/-- A list of checks that starts with HALTED has passed only when not halted. -/
theorem firstError_halted {s : State} {l : List (Option ErrorResult)} (h : firstError (checkHalted s :: l) = none) :
    s.halted = false ∧ firstError l = none := by
  cases hh : s.halted <;> simp_all [checkHalted, firstError]

theorem firstError_initialized {s : State} {l : List (Option ErrorResult)}
    (h : firstError (checkInitialized s :: l) = none) : s.initialized = true ∧ firstError l = none := by
  cases hh : s.initialized <;> simp_all [checkInitialized, firstError]

theorem firstError_bankReady {s : State} {b : Bank} {l : List (Option ErrorResult)}
    (h : firstError (checkBankReady b s :: l) = none) : (b = .x → s.initialized = true) ∧ firstError l = none := by
  cases b with
  | x => exact ⟨fun _ => (firstError_initialized h).1, (firstError_initialized h).2⟩
  | d => exact ⟨by simp, by simpa [checkBankReady, firstError] using h⟩

theorem firstError_channel {s : State} {b : Bank} {c : Target} {l : List (Option ErrorResult)}
    (h : firstError (checkChannel b c s :: l) = none) :
    (∀ n, c = .chan n → n.toNat < s.count b) ∧ firstError l = none := by
  cases c with
  | all => exact ⟨by simp, by simpa [checkChannel, firstError] using h⟩
  | chan n =>
    simp only [checkChannel] at h
    split at h
    · simp [firstError] at h
    · exact ⟨by rintro m ⟨rfl⟩; omega, by simpa [firstError] using h⟩

/-- WROUT (R74): an error, or the latch write and its end. -/
theorem execWrout_next {s t : State} {m : Byte} (h : exec (.wrout m) s = .next t) :
    (∃ e, t = s.raise e) ∨
      (s.halted = false ∧ s.initialized = true ∧ s.bankX.lock = none ∧
        t = finish (busWrite .olatA m s).2 (busWrite .olatA m s).1) := by
  rcases guarded_next h with he | ⟨hc, hb⟩
  · exact .inl he
  · obtain ⟨hh, hc⟩ := firstError_halted hc
    obtain ⟨hi, -⟩ := firstError_initialized hc
    have hl : s.bankX.lock = none := (withLock_next hb).1
    rw [execWrout_run hh hi hl] at h
    cases h
    exact .inr ⟨hh, hi, hl, rfl⟩

/-- RDIN (R76): an error, or the read and its end. -/
theorem execRdin_next {s t : State} (h : exec .rdin s = .next t) :
    (∃ e, t = s.raise e) ∨
      (s.halted = false ∧ s.initialized = true ∧ t = finishRead (busRead .gpioB s)) := by
  rcases guarded_next h with he | ⟨hc, -⟩
  · exact .inl he
  · obtain ⟨hh, hc⟩ := firstError_halted hc
    obtain ⟨hi, -⟩ := firstError_initialized hc
    rw [execRdin_run hh hi] at h
    cases h
    exact .inr ⟨hh, hi, rfl⟩

/-- UPDATE (R79 to R84): an error; a status recorded and its level applied; a blink status recorded; or the whole bank recorded and
applied. -/
theorem execUpdate_next {s t : State} {b : Bank} {c : Target} {st : Status} (h : exec (.update b c st) s = .next t) :
    (∃ e, t = s.raise e) ∨
      (s.halted = false ∧ (b = .x → s.initialized = true) ∧
        ((∃ n lvl, c = .chan n ∧ n.toNat < s.count b ∧ (st = .on ∧ lvl = true ∨ st = .off ∧ lvl = false) ∧ (s.bank b).lock = none ∧
            t = finish (applyBit b n.toNat lvl s).2
              ((applyBit b n.toNat lvl s).1.setBank b { s.bank b with status := (s.bank b).status.set n.toNat st })) ∨
          (∃ n, c = .chan n ∧ n.toNat < s.count b ∧ isBlink st = true ∧
            t = (s.setBank b { s.bank b with status := (s.bank b).status.set n.toNat st }).respond .done) ∨
          (∃ m, c = .all ∧ (st = .on ∧ m = fullMask (s.count b) ∨ st = .off ∧ m = 0x00#8) ∧ (s.bank b).lock = none ∧
            t = finish (applyMask b m s).2
              ((applyMask b m s).1.setBank b { s.bank b with status := List.replicate (s.count b) st })))) := by
  rcases guarded_next h with he | ⟨hc, -⟩
  · exact .inl he
  · obtain ⟨hh, hc⟩ := firstError_halted hc
    obtain ⟨hn, hc⟩ := firstError_channel hc
    obtain ⟨hb, -⟩ := firstError_bankReady hc
    refine .inr ⟨hh, hb, ?_⟩
    cases c with
    | chan n =>
      rw [execUpdate_chan hh hb (hn n rfl)] at h
      cases st with
      | blink r => cases h; exact .inr (.inl ⟨n, rfl, hn n rfl, rfl, rfl⟩)
      | off =>
        have hl := (withLock_next h).1
        rw [updateChannel, recordAndApply_run hl] at h
        cases h
        exact .inl ⟨n, false, rfl, hn n rfl, .inr ⟨rfl, rfl⟩, hl, rfl⟩
      | on =>
        have hl := (withLock_next h).1
        rw [updateChannel, recordAndApply_run hl] at h
        cases h
        exact .inl ⟨n, true, rfl, hn n rfl, .inl ⟨rfl, rfl⟩, hl, rfl⟩
    | all =>
      rw [execUpdate_all hh hb] at h
      cases st with
      | blink r => cases h
      | off =>
        have hl := (withLock_next h).1
        rw [updateAll, recordAndApplyAll_run hl] at h
        cases h
        exact .inr (.inr ⟨_, rfl, .inr ⟨rfl, rfl⟩, hl, rfl⟩)
      | on =>
        have hl := (withLock_next h).1
        rw [updateAll, recordAndApplyAll_run hl] at h
        cases h
        exact .inr (.inr ⟨_, rfl, .inl ⟨rfl, rfl⟩, hl, rfl⟩)

/-- FLASH (R94): an error, or step F0. -/
theorem execFlash_next {s t : State} {b : Bank} {md : FlashMode} (h : exec (.flash b md) s = .next t) :
    (∃ e, t = s.raise e) ∨
      (s.halted = false ∧ (b = .x → s.initialized = true) ∧
        t = (s.setFlashActive b true).setHost (some (.flash b (flashSeq s.cfg.flashRepeat (s.count b) md)))) := by
  rcases guarded_next h with he | ⟨hc, -⟩
  · exact .inl he
  · obtain ⟨hh, hc⟩ := firstError_halted hc
    obtain ⟨hb, -⟩ := firstError_bankReady hc
    rw [execFlash_run hh hb] at h
    cases h
    exact .inr ⟨hh, hb, rfl⟩

/-- POLLEV (R109): an error, no event, or the head of the queue. -/
theorem execPollev_next {s t : State} (h : exec .pollev s = .next t) :
    (∃ e, t = s.raise e) ∨ t = s.respond (.withEvent none) ∨
      ∃ e rest, s.evq = e :: rest ∧ t = { s with evq := rest }.respond (.withEvent (some e)) := by
  rcases guarded_next h with he | ⟨-, hb⟩
  · exact .inl he
  · rcases hq : s.evq with _ | ⟨e, rest⟩ <;> simp only [hq] at hb <;> cases hb
    · exact .inr (.inl rfl)
    · exact .inr (.inr ⟨e, rest, rfl, rfl⟩)

/-- SHUTDOWN (R110, R111): OK when halted; else step S1, with or without the latch write. -/
theorem execShutdown_next {s t : State} (h : exec .shutdown s = .next t) :
    (s.halted = true ∧ t = s.respond .done) ∨
      (s.halted = false ∧ s.bankX.lock = none ∧
        ((s.initialized = true ∧
            t = ((busWrite .olatA 0x00#8 s).1.setBank .x { s.bankX with status := List.replicate Config.nX .off }).setHost
              (some (.shutdownPins (busWrite .olatA 0x00#8 s).2))) ∨
          (s.initialized = false ∧
            t = (s.setBank .x { s.bankX with status := List.replicate Config.nX .off }).setHost
              (some (.shutdownPins none))))) := by
  cases hh : s.halted
  · have hl : s.bankX.lock = none := by
      simp only [exec, execShutdown, hh, Bool.false_eq_true, if_false] at h
      exact (withLock_next h).1
    refine .inr ⟨rfl, hl, ?_⟩
    cases hi : s.initialized
    · rw [execShutdown_uninitialized hh hi hl] at h
      cases h
      exact .inr ⟨rfl, rfl⟩
    · rw [execShutdown_initialized hh hi hl] at h
      cases h
      exact .inl ⟨rfl, rfl⟩
  · simp only [exec, execShutdown, hh, if_true] at h
    cases h
    exact .inl ⟨rfl, rfl⟩

/-- TICK (R87, R90): nothing when halted; else the phase and the pass. -/
theorem execTick_next {s t : State} {b : Bank} (h : exec (.tick b) s = .next t) :
    (s.halted = true ∧ t = s) ∨
      (s.halted = false ∧
        t = s.setBank b { s.bank b with phase := (s.bank b).phase + 1#3, pass := passSteps (s.count b) }) := by
  simp only [exec, execTick] at h
  cases hh : s.halted <;> rw [hh] at h <;> cases h
  · exact .inr ⟨rfl, by simp [State.setPass, State.setPhase]⟩
  · exact .inl ⟨rfl, rfl⟩

/-- EDGE (R101 to R107): nothing, or an accepted edge, which touches LAST_EDGE, HOLD_START and EVQ only. -/
theorem execEdge_next {s t : State} {p : Line} {k : EdgeKind} (h : exec (.edge p k) s = .next t) :
    t = s ∨
      (s.halted = false ∧
        t = { s with lastEdge := lineSet s.lastEdge p (some s.now), holdStart := t.holdStart, evq := t.evq } ∧
        (t.evq = s.evq ∨ ∃ kind, t.evq = s.evq ++ [{ src := p, kind := kind, t := s.now }]) ∧
        (t.holdStart = none ∨ (t.holdStart = s.holdStart ∧ p ≠ .back) ∨ (t.holdStart = some s.now ∧ p = .back))) := by
  simp only [exec, execEdge] at h
  rcases Bool.eq_false_or_eq_true s.halted with hh | hh
  rotate_left
  · rw [hh] at h
    simp only [Bool.false_eq_true, if_false] at h
    split at h
    · cases h; exact .inl rfl
    · split at h
      · cases h; exact .inl rfl
      · rename_i hobs _
        refine .inr ⟨hh, ?_⟩
        cases k with
        | rise =>
          cases h
          by_cases hp : p = .back
          · subst hp
            cases hpause : s.inPause <;>
              simp [pressEdge, State.acceptEdge, State.enqueue, State.setHoldStart, hpause]
          · simp [pressEdge, State.acceptEdge, State.enqueue, hp]
        | fall =>
          cases h
          cases p <;> simp only [observed, not_true] at hobs
          rcases hs : s.holdStart with _ | u
          · simp [releaseEdge, State.acceptEdge, hs]
          · by_cases hl : isLongHold s.cfg (s.now - u) = true
            · simp [releaseEdge, State.acceptEdge, State.enqueue, State.setHoldStart, hs, hl]
            · simp [releaseEdge, State.acceptEdge, State.setHoldStart, hs, hl]
  · rw [hh] at h
    simp only [if_true] at h
    cases h
    exact .inl rfl

/-! ### What each agent's turn can answer -/

/-- The renderer's turn (R87 to R89): nothing between ticks; a step that applies nothing; or a level applied, after which the pass goes
on, or is over on a BusError. -/
theorem rendererStep_next {s t : State} {b : Bank} (h : rendererStep b s = .next t) :
    ((s.bank b).pass = [] ∧ t = s) ∨
      ∃ r c rest, (s.bank b).pass = (r, c) :: rest ∧ (s.bank b).lock = none ∧
        ((t = s.setBank b { s.bank b with pass := rest } ∧
            ¬(s.halted = false ∧ (s.bank b).flashActive = false ∧ (s.bank b).status[c]? = some (.blink r))) ∨
          (s.halted = false ∧ (s.bank b).flashActive = false ∧ (s.bank b).status[c]? = some (.blink r) ∧
            ∃ l, (l = rest ∨ l = []) ∧
              t = (applyBit b c (subphase (s.bank b).phase r) s).1.setBank b { s.bank b with pass := l })) := by
  rcases hp : (s.bank b).pass with _ | ⟨⟨r, c⟩, rest⟩
  · simp only [rendererStep, hp] at h
    cases h
    exact .inl ⟨rfl, rfl⟩
  · have hl : (s.bank b).lock = none := by
      simp only [rendererStep, hp] at h
      exact (withLock_next h).1
    refine .inr ⟨r, c, rest, rfl, hl, ?_⟩
    by_cases hs : s.halted = false ∧ (s.bank b).flashActive = false ∧ (s.bank b).status[c]? = some (.blink r)
    · refine .inr ⟨hs.1, hs.2.1, hs.2.2, ?_⟩
      rw [rendererStep_apply hp hl hs.1 hs.2.1 hs.2.2] at h
      have hO := (applyBit_onlyLevels b c (subphase (s.bank b).phase r) s).bank b
      rcases he : (applyBit b c (subphase (s.bank b).phase r) s).2 with _ | e <;> rw [he] at h <;> cases h
      · exact ⟨rest, .inl rfl, by simp [finishRender, State.setPass, hO]⟩
      · exact ⟨[], .inr rfl, by simp [finishRender, State.setPass, hO]⟩
    · rw [rendererStep_skip hp hl hs] at h
      cases h
      exact .inl ⟨rfl, hs⟩

/-- The host's turn inside a FLASH (R94, R97): the next mask, after which it goes on or is over with the error; or the restore. -/
theorem flashStep_next {s t : State} {b : Bank} {masks : List Byte} (h : flashStep b masks s = .next t) :
    (s.bank b).lock = none ∧
      ((∃ m rest, masks = m :: rest ∧ (applyMask b m s).2 = none ∧
          t = (applyMask b m s).1.setHost (some (.flash b rest))) ∨
        ∃ m e, m = masks.headD (s.statusMask b) ∧ (applyMask b m s).2 = e ∧ (masks = [] ∨ e ≠ none) ∧
          t = endFlash b e (applyMask b m s).1) := by
  cases masks with
  | nil =>
    have hl := (withLock_next h).1
    rw [flashStep_restore hl] at h
    cases h
    exact ⟨hl, .inr ⟨_, _, rfl, rfl, .inl rfl, rfl⟩⟩
  | cons m rest =>
    have hl := (withLock_next h).1
    rw [flashStep_mask hl] at h
    refine ⟨hl, ?_⟩
    rcases he : (applyMask b m s).2 with _ | e <;> rw [he] at h <;> cases h
    · exact .inl ⟨m, rest, rfl, he, rfl⟩
    · exact .inr ⟨m, some e, rfl, he, .inr (by simp), rfl⟩

/-- The host's turn (R98, R110): nothing, a step of FLASH, or step S2 or S3 of SHUTDOWN. -/
theorem hostStep_next {s t : State} (h : hostStep s = .next t) :
    (s.host = none ∧ t = s) ∨
      (∃ b masks, s.host = some (.flash b masks) ∧ flashStep b masks s = .next t) ∨
      (∃ err, s.host = some (.shutdownPins err) ∧ s.bankD.lock = none ∧
        t = ((pinWrites 0x00#8 (List.range s.cfg.nD) s).setBank .d
          { s.bankD with status := List.replicate s.cfg.nD .off }).setHost (some (.shutdownHalt err))) ∨
      ∃ err, s.host = some (.shutdownHalt err) ∧ t = finish err ((s.setHalted true).setHost none) := by
  rcases hh : s.host with _ | op
  · simp only [hostStep, hh] at h
    cases h
    exact .inl ⟨rfl, rfl⟩
  · cases op with
    | flash b masks =>
      simp only [hostStep, hh] at h
      exact .inr (.inl ⟨b, masks, rfl, h⟩)
    | shutdownPins err =>
      simp only [hostStep, hh] at h
      have hl := (withLock_next h).1
      rw [shutdownPinsStep_run hl] at h
      cases h
      exact .inr (.inr (.inl ⟨err, rfl, hl, rfl⟩))
    | shutdownHalt err =>
      simp only [hostStep, hh] at h
      cases h
      exact .inr (.inr (.inr ⟨err, rfl, rfl⟩))

end Sys2Proof.Machine
end

