-- ==== Sys2Proof/Tests/Slice0.lean ====
section
/-! SUPPORT. Tests: one step each, expected results from spec/95_test_vectors.md or from the rule named; and a witness for the
hypotheses of each statement that has some. -/

open Sys2Proof Sys2Proof.Machine

namespace Sys2Proof.Tests

/-! ### Small states -/

/-- A transaction that succeeds, with port-B levels 0xBF. -/
def good : BusDraw := { ok := true, landed := false, portB := 0xBF#8 }

/-- A transaction that fails, leaving the old or the written value. -/
def bad (landed : Bool) : BusDraw := { ok := false, landed := landed, portB := 0x00#8 }

/-- After INIT, with the latch at a value and a list of draws. -/
def ready (latch : Byte) (draws : List BusDraw) : State :=
  { State.reset with initialized := true, mem := [(0x14, latch)], draws := draws }

/-- After SHUTDOWN from reset. -/
def dark : State := { State.reset with halted := true, dout := List.replicate 4 (some false) }

/-- `ready` with bank X's statuses and phase. -/
def shown (latch : Byte) (draws : List BusDraw) (status : List Status) (p : Phase) : State :=
  { ready latch draws with bankX := { BankState.initial 8 with status := status, phase := p } }

/-- From reset, before INIT, with bank D's statuses and phase. -/
def shownDirect (status : List Status) (p : Phase) : State :=
  { State.reset with bankD := { BankState.initial 4 with status := status, phase := p } }

/-- T1's statuses: channel 1 SHORT, 2 MED, 5 LONG. -/
def blinking : List Status := [.off, .blink .short, .blink .med, .off, .off, .blink .long, .off, .off]

/-- A next state was answered and meets a test. -/
def after (o : Host.Outcome State Fault Refusal) (f : State → Bool) : Bool :=
  match o with
  | .next t => f t
  | .fault _ => false
  | .refused _ => false

/-- A step that takes up one word at a time, with the consumer in PAUSE or not. -/
def atTime (s : State) (dt : Nat) (pause : Bool) (w : Word) : State :=
  { s with inputs := [{ elapsed := dt, inPause := pause, activity := portActivity w }] }

/-! ### WellFormed: the one ill-formed term is refused -/

theorem test_chan_FF_is_ill_formed : (Instr.update .x (.chan 0xFF#8) .on).wf = false := by decide

theorem test_all_is_well_formed : (Instr.update .d .all .on).wf = true := by decide

theorem test_ill_formed_has_no_word :
    decode .command (encode (.update .x (.chan 0xFF#8) .on)) = .ok (.update .x .all .on) := by decide

theorem test_parameters_well_formed : Config.vectors.wf := by decide

theorem test_parameters_n_d_zero_refused : ¬({ Config.vectors with nD := 0, pinOut := [] } : Config).wf := by decide

theorem test_parameters_n_d_nine_refused :
    ¬({ Config.vectors with nD := 9, pinOut := List.range 9 } : Config).wf := by decide

theorem test_parameters_pins_short_refused : ¬({ Config.vectors with pinOut := [0, 1, 2] } : Config).wf := by decide

theorem test_parameters_repeat_zero_refused : ¬({ Config.vectors with flashRepeat := 0 } : Config).wf := by decide

theorem test_parameters_shared_address_refused :
    ¬({ Config.vectors with reg := { RegMap.vectors with olatA := 0x00#8 } } : Config).wf := by decide

/-! ### Decode: words written out from the formats of R60 and R61, and the words of 95 section 2.1 -/

/-- Format P: OP = 0001, twelve reserved zeros. -/
theorem test_decode_init : decode .command (0b0001#4 ++ 0b000000000000#12) = .ok .init := by decide

/-- Format I: OP = 0010, four reserved zeros, M = 10100101. -/
theorem test_decode_wrout : decode .command (0b0010#4 ++ 0b0000#4 ++ 0b10100101#8) = .ok (.wrout 0xA5#8) := by decide

/-- Format P: OP = 0011. -/
theorem test_decode_rdin : decode .command (0b0011#4 ++ 0b000000000000#12) = .ok .rdin := by decide

/-- Format U: OP = 0100, B = 0, S = 011, C = 00000011. -/
theorem test_decode_update_x :
    decode .command (0b0100#4 ++ 0b0#1 ++ 0b011#3 ++ 0b00000011#8) = .ok (.update .x (.chan 3#8) (.blink .med)) := by decide

/-- Format U: OP = 0100, B = 1, S = 100, C = 11111111. -/
theorem test_decode_update_d_all :
    decode .command (0b0100#4 ++ 0b1#1 ++ 0b100#3 ++ 0b11111111#8) = .ok (.update .d .all (.blink .short)) := by decide

/-- Format F: OP = 0101, B = 1, nine reserved zeros, MD = 01. -/
theorem test_decode_flash :
    decode .command (0b0101#4 ++ 0b1#1 ++ 0b000000000#9 ++ 0b01#2) = .ok (.flash .d .blink) := by decide

/-- Format P: OP = 0110. -/
theorem test_decode_pollev : decode .command (0b0110#4 ++ 0b000000000000#12) = .ok .pollev := by decide

/-- Format P: OP = 0111. -/
theorem test_decode_shutdown : decode .command (0b0111#4 ++ 0b000000000000#12) = .ok .shutdown := by decide

/-- Format T: OP = 1110, B = 1, eleven reserved zeros. -/
theorem test_decode_tick : decode .stimulus (0b1110#4 ++ 0b1#1 ++ 0b00000000000#11) = .ok (.tick .d) := by decide

/-- Format E: OP = 1111, nine reserved zeros, K = 1, P = 10. -/
theorem test_decode_edge :
    decode .stimulus (0b1111#4 ++ 0b000000000#9 ++ 0b1#1 ++ 0b10#2) = .ok (.edge .down .rise) := by decide

theorem test_decode_statuses :
    [0x4000#16, 0x4100#16, 0x4200#16, 0x4300#16, 0x4400#16].map (decode .command) =
      [.off, .on, .blink .long, .blink .med, .blink .short].map (fun st => .ok (.update .x (.chan 0#8) st)) := by decide

theorem test_decode_lines :
    [0xF000#16, 0xF001#16, 0xF002#16, 0xF003#16].map (decode .stimulus) =
      [Line.select, .up, .down, .back].map (fun p => .ok (.edge p .fall)) := by decide

theorem test_illegal_commands :
    [0x0000#16, 0x1001#16, 0x1800#16, 0x2100#16, 0x2800#16, 0x4500#16, 0x4700#16, 0x4DFF#16, 0x5002#16, 0x5003#16, 0x5004#16,
      0x5100#16, 0x5080#16, 0x6001#16, 0x7080#16, 0x8000#16, 0x9000#16, 0xD123#16, 0xE000#16, 0xF007#16].all
      (fun w => (decode .command w).toOption = none) = true := by decide

theorem test_illegal_stimuli :
    [0x1000#16, 0x7000#16, 0xE001#16, 0xE100#16, 0xF008#16, 0xF800#16].all
      (fun w => (decode .stimulus w).toOption = none) = true := by decide

theorem test_table_word_ports :
    decodeTableWord 16 0x1000 = some .init ∧ decodeTableWord 16 0xE000 = some (.tick .x) ∧
      decodeTableWord 16 0xF007 = some (.edge .back .rise) ∧ decodeTableWord 16 0x8000 = none := by decide

/-! ### One step each -/

/-- B1: the four writes of INIT. -/
theorem test_init : after (exec .init { State.reset with draws := List.replicate 4 good }) (fun t =>
    t.initialized && decide (t.mem = [(0x00, 0x00#8), (0x01, 0xFF#8), (0x05, 0x00#8), (0x0D, 0xFF#8)]) &&
      decide (t.responses = [{ code := .ok }])) = true := by decide

/-- B2: the third write fails and the fourth is not made. -/
theorem test_init_third_write_fails :
    after (exec .init { State.reset with draws := [good, good, bad true, good] }) (fun t =>
      !t.initialized && decide (t.mem = [(0x00, 0x00#8), (0x01, 0xFF#8), (0x0D, 0xFF#8)]) &&
        decide (t.responses = [{ code := .busError, reg := some 0x0D#8, dir := some .write }])) = true := by decide

/-- B5. -/
theorem test_wrout : after (exec (.wrout 0xA5#8) (ready 0x5A#8 [good])) (fun t =>
    decide (t.exp .olatA = 0xA5#8 ∧ t.trace = [.busWrite 0x20#7 0x14#8 0xA5#8 true] ∧
      t.responses = [{ code := .ok }])) = true := by decide

/-- B4. -/
theorem test_wrout_before_init : exec (.wrout 0xA5#8) State.reset =
    .next { State.reset with responses := [{ code := .notInitialized }] } := by rfl

/-- B7. -/
theorem test_rdin : after (exec .rdin (ready 0x5A#8 [good])) (fun t =>
    decide (t.trace = [.busRead 0x20#7 0x13#8 (some 0xBF#8)] ∧
      t.responses = [{ code := .ok, data := some 0xBF#8 }])) = true := by decide

/-- B8. -/
theorem test_rdin_fails : after (exec .rdin (ready 0x5A#8 [bad true])) (fun t =>
    decide (t.mem = [(0x14, 0x5A#8)] ∧
      t.responses = [{ code := .busError, reg := some 0x13#8, dir := some .read }])) = true := by decide

/-- U2. -/
theorem test_update_x_off : after (exec (.update .x (.chan 1#8) .off) (ready 0x5A#8 [good, good])) (fun t =>
    decide (t.trace = [.busRead 0x20#7 0x14#8 (some 0x5A#8), .busWrite 0x20#7 0x14#8 0x58#8 true] ∧
      t.responses = [{ code := .ok }])) = true := by decide

/-- U13: the order of the pin writes. -/
theorem test_update_d_all_on : after (exec (.update .d .all .on) State.reset) (fun t =>
    decide (t.trace = [.pinWrite 0 0 true, .pinWrite 1 1 true, .pinWrite 2 2 true, .pinWrite 3 3 true] ∧
      t.dout = List.replicate 4 (some true))) = true := by decide

/-- F2: the masks of the first step, and of the restore by `statusMask`. -/
theorem test_flash_starts : after (exec (.flash .x .sweep) (ready 0x00#8 [])) (fun t =>
    decide (t.bankX.flashActive = true ∧ t.host = some (.flash .x [0x01#8, 0x03#8, 0x07#8, 0x0F#8, 0x1F#8, 0x3F#8, 0x7F#8,
      0xFF#8, 0xFE#8, 0xFC#8, 0xF8#8, 0xF0#8, 0xE0#8, 0xC0#8, 0x80#8, 0x00#8]) ∧ t.responses = [])) = true := by decide

/-- F4: the restore shows the phase there is. -/
theorem test_flash_restores :
    after (hostStep { shown 0x00#8 [good] [.off, .off, .blink .med, .off, .off, .off, .off, .off] 3#3 with
      host := some (.flash .x []) }) (fun t =>
      decide (t.exp .olatA = 0x04#8 ∧ t.host = none ∧ t.responses = [{ code := .ok }])) = true := by decide

/-- T1, tick 4: the phase first, then the pass lies ahead. -/
theorem test_tick : after (exec (.tick .x) (shown 0x06#8 [] blinking 3#3)) (fun t =>
    decide (t.bankX.phase = 4#3 ∧ t.bankX.pass.length = 24 ∧ t.bankX.pass.head? = some (.long, 0))) = true := by decide

/-- T1, tick 4: the step of channel 5 takes bit 2 of the phase. -/
theorem test_renderer_long :
    after (rendererStep .x { shown 0x06#8 [good, good] blinking 4#3 with
      bankX := { BankState.initial 8 with status := blinking, phase := 4#3, pass := [(.long, 5), (.long, 6)] } }) (fun t =>
      decide (t.exp .olatA = 0x26#8 ∧ t.bankX.pass = [(.long, 6)])) = true := by decide

/-- E2: an edge 99 ms after an accepted one is ignored, one 100 ms after it is accepted. -/
theorem test_edge_debounce :
    after (step (atTime { State.reset with now := 1000, lastEdge := { State.reset.lastEdge with select := some 1000 } } 99
      false 0xF004#16)) (fun t => decide (t.evq = [])) = true ∧
    after (step (atTime { State.reset with now := 1000, lastEdge := { State.reset.lastEdge with select := some 1000 } } 100
      false 0xF004#16)) (fun t => decide (t.evq = [{ src := .select, kind := .press, t := 1100 }])) = true := by decide

/-- E5 to E8: both ends of the long-hold window are outside it. -/
theorem test_edge_long_hold :
    [(700, false), (701, true), (3499, true), (3500, false)].all (fun p =>
      after (step (atTime { State.reset with lastEdge := { State.reset.lastEdge with back := some 0 }, holdStart := some 0 }
        p.1 true 0xF003#16)) (fun t =>
        decide (t.evq = (if p.2 then [{ src := .back, kind := .longHold, t := p.1 }] else []) ∧ t.holdStart = none)))
      = true := by decide

/-- Q2. -/
theorem test_pollev :
    exec .pollev { State.reset with evq := [{ src := .up, kind := .press, t := 10 }, { src := .down, kind := .press, t := 20 }] } =
      .next { State.reset with
        evq := [{ src := .down, kind := .press, t := 20 }],
        responses := [{ code := .ok, event := some { src := .up, kind := .press, t := 10 } }] } := by rfl

/-- S3: the latch write fails and the path goes on. -/
theorem test_shutdown : after (exec .shutdown (ready 0x04#8 [bad false])) (fun t =>
    decide (t.host = some (.shutdownPins (some { reg := 0x14#8, dir := .write })) ∧ t.exp .olatA = 0x04#8 ∧
      t.responses = [] ∧ t.halted = false)) = true := by decide

/-- S6: an illegal word is answered before HALTED is looked at. -/
theorem test_illegal_word_when_halted :
    step (atTime dark 0 false 0x8000#16) =
      .next { dark with responses := [{ code := .illegalCommand, info := some (.word 0x8000#16) }] } := by rfl

/-! ### Witnesses: a state and operands that meet a statement's hypotheses together -/

/-- The invariant at a state the block reaches: initialized, any statuses of bank X, any phase, no command in progress. -/
theorem inv_shown (latch : Byte) (draws : List BusDraw) (status : List Status) (p : Phase) (h : status.length = 8) :
    (shown latch draws status p).Inv where
  shape := ⟨test_parameters_well_formed, h, rfl, rfl, rfl, rfl, rfl⟩
  passInOrder := by rintro (_ | _) <;> exact List.nil_suffix
  flashInOrder := ⟨by rintro (_ | _) <;> simp [State.bank, shown, ready, State.reset, State.resetWith, BankState.initial], by
    simp [shown, ready, State.reset, State.resetWith]⟩
  timesInOrder := ⟨by rintro (_ | _ | _ | _) <;> simp [lineGet, shown, ready, State.reset, State.resetWith], by
    simp [shown, ready, State.reset, State.resetWith], by simp [shown, ready, State.reset, State.resetWith], by
    simp [shown, ready, State.reset, State.resetWith]⟩
  quietBeforeInit := by simp [State.QuietBeforeInit, shown, ready]
  darkWhenHalted := by simp [State.DarkWhenHalted, shown, ready, State.reset, State.resetWith]

/-- The same of bank D, before INIT. -/
theorem inv_shownDirect (status : List Status) (p : Phase) (h : status.length = 4) : (shownDirect status p).Inv where
  shape := ⟨test_parameters_well_formed, rfl, h, rfl, rfl, rfl, rfl⟩
  passInOrder := by rintro (_ | _) <;> exact List.nil_suffix
  flashInOrder := ⟨by rintro (_ | _) <;> simp [State.bank, shownDirect, State.reset, State.resetWith, BankState.initial], by
    simp [shownDirect, State.reset, State.resetWith]⟩
  timesInOrder := ⟨by rintro (_ | _ | _ | _) <;> simp [lineGet, shownDirect, State.reset, State.resetWith], by
    simp [shownDirect, State.reset, State.resetWith], by simp [shownDirect, State.reset, State.resetWith], by
    simp [shownDirect, State.reset, State.resetWith]⟩
  quietBeforeInit := by
    simp [State.QuietBeforeInit, shownDirect, State.reset, State.resetWith, BankState.initial, isBlink]
  darkWhenHalted := by simp [State.DarkWhenHalted, shownDirect, State.reset, State.resetWith]

/-- The invariant does not look at what is scheduled. -/
theorem inv_inputs {s : State} (h : s.Inv) (l : List Slot) : ({ s with inputs := l } : State).Inv where
  shape := h.shape
  passInOrder := by rintro (_ | _); exacts [h.passInOrder .x, h.passInOrder .d]
  flashInOrder := ⟨by rintro (_ | _); exacts [h.flashInOrder.1 .x, h.flashInOrder.1 .d], by
    rintro (_ | _); exacts [h.flashInOrder.2 .x, h.flashInOrder.2 .d]⟩
  timesInOrder := h.timesInOrder
  quietBeforeInit := h.quietBeforeInit
  darkWhenHalted := h.darkWhenHalted

/-- The invariant after SHUTDOWN, with a word scheduled. -/
theorem inv_dark (dt : Nat) (pause : Bool) (w : Word) : (atTime dark dt pause w).Inv where
  shape := ⟨test_parameters_well_formed, rfl, rfl, rfl, rfl, rfl, rfl⟩
  passInOrder := by rintro (_ | _) <;> exact List.nil_suffix
  flashInOrder :=
    ⟨by rintro (_ | _) <;> simp [State.bank, atTime, dark, State.reset, State.resetWith, BankState.initial], by
      simp [atTime, dark, State.reset, State.resetWith]⟩
  timesInOrder := ⟨by rintro (_ | _ | _ | _) <;> simp [lineGet, atTime, dark, State.reset, State.resetWith], by
    simp [atTime, dark, State.reset, State.resetWith], by simp [atTime, dark, State.reset, State.resetWith], by
    simp [atTime, dark, State.reset, State.resetWith]⟩
  quietBeforeInit := by
    simp [State.QuietBeforeInit, atTime, dark, State.reset, State.resetWith, BankState.initial, isBlink]
  darkWhenHalted := by
    simp [State.DarkWhenHalted, BankState.AllOff, atTime, dark, State.reset, State.resetWith, BankState.initial]

/-- The invariant while a hold on BACK runs. -/
theorem inv_holding : ({ State.reset with
    now := 500, lastEdge := { State.reset.lastEdge with back := some 300 }, holdStart := some 300 } : State).Inv where
  shape := ⟨test_parameters_well_formed, rfl, rfl, rfl, rfl, rfl, rfl⟩
  passInOrder := by rintro (_ | _) <;> exact List.nil_suffix
  flashInOrder := ⟨by rintro (_ | _) <;> simp [State.bank, State.reset, State.resetWith, BankState.initial], by
    simp [State.reset, State.resetWith]⟩
  timesInOrder := ⟨by rintro (_ | _ | _ | _) <;> simp [lineGet, State.reset, State.resetWith], by simp, by
    simp [State.reset, State.resetWith], by simp [State.reset, State.resetWith]⟩
  quietBeforeInit := by simp [State.QuietBeforeInit, State.reset, State.resetWith, BankState.initial, isBlink]
  darkWhenHalted := by simp [State.DarkWhenHalted, State.reset, State.resetWith]

theorem witness_DecodeEncodeRoundTrip :
    (Instr.update .d (.chan 0x00#8) .off).wf = true ∧ (Instr.update .x (.chan 0xFE#8) (.blink .short)).wf = true := by decide

theorem witness_DecodedWordIsItsEncoding : decode .command 0x43FF#16 = .ok (.update .x .all (.blink .med)) := by decide

theorem witness_WordMatchesAtMostOneRow :
    ∃ r ∈ opcodeTable, r.accepts 0xF007#16 = true ∧ decode .stimulus 0xF007#16 = .ok (.edge .back .rise) := by decide

/-- The words at the ends of each clause of R64: the last before and the first after each legal range. -/
theorem witness_IllegalCommandWords :
    [0x0FFF#16, 0x8000#16, 0x1FFF#16, 0x2100#16, 0x2FFF#16, 0x5004#16, 0x57FC#16, 0x4500#16, 0x4FFF#16, 0x5002#16].all
        (fun w => (decodeCommand w).toOption.isNone) = true ∧
      [0x1000#16, 0x7000#16, 0x20FF#16, 0x5001#16, 0x5801#16, 0x44FF#16, 0x4CFF#16].all
        (fun w => (decodeCommand w).toOption.isSome) = true := by decide

theorem witness_IllegalStimulusWords :
    [0xDFFF#16, 0xE7FF#16, 0xE801#16, 0xF008#16, 0xFFF8#16].all (fun w => (decodeStimulus w).toOption.isNone) = true ∧
      [0xE000#16, 0xE800#16, 0xF000#16, 0xF007#16].all (fun w => (decodeStimulus w).toOption.isSome) = true := by decide

theorem witness_StepRunsDecodedCommand :
    let s := atTime State.reset 7 true 0x4900#16
    s.inputs = [{ elapsed := 7, inPause := true, activity := .command 0x4900#16 }] ∧ s.host = none ∧
      decode .command 0x4900#16 = .ok (.update .d (.chan 0#8) .on) := by decide

theorem witness_StepRunsDecodedStimulus :
    let s := atTime State.reset 7 true 0xE800#16
    s.inputs = [{ elapsed := 7, inPause := true, activity := .stimulus 0xE800#16 }] ∧
      decode .stimulus 0xE800#16 = .ok (.tick .d) ∧ (s.bank .d).pass = [] := by decide

theorem witness_FetchedWordRunsNext :
    State.reset.host = none ∧ State.reset.bankX.pass = [] ∧ State.reset.bankD.pass = [] ∧
      decode (portOf 0xE000#16) 0xE000#16 = .ok (.tick .x) := by decide

theorem witness_BusyAgentsFinishFirst :
    let s := { atTime State.reset 7 true 0x7000#16 with host := some (.flash .d [0x0F#8]) }
    let u := { atTime State.reset 7 true 0xE800#16 with
      bankD := { BankState.initial 4 with pass := [(.short, 3)] } }
    s.inputs.map (·.activity) = [.command 0x7000#16] ∧ s.host = some (.flash .d [0x0F#8]) ∧
      u.inputs.map (·.activity) = [.stimulus 0xE800#16] ∧ decode .stimulus 0xE800#16 = .ok (.tick .d) ∧
      (u.bank .d).pass ≠ [] := by decide

theorem witness_InitConfiguresExpander :
    let s := { State.reset with draws := List.replicate 4 good }
    s.cfg.wf ∧ s.halted = false ∧ s.BusGood 4 := by
  simp only [State.BusGood]; decide

/-- The first and the last write of INIT. -/
theorem witness_InitStopsAtFailedWrite :
    (let s := { State.reset with draws := [bad true] }
     s.cfg.wf ∧ s.halted = false ∧ s.BusGood 0 ∧ (s.drawAt 0).ok = false) ∧
    (let s := { State.reset with draws := [good, good, good, bad false] }
     s.cfg.wf ∧ s.halted = false ∧ s.BusGood 3 ∧ (s.drawAt 3).ok = false) := by
  simp only [State.BusGood]; decide

theorem witness_WroutWritesLatch :
    let s := ready 0x00#8 [good]
    s.halted = false ∧ s.initialized = true ∧ s.bankX.lock = none ∧ s.BusGood 1 := by
  simp only [State.BusGood]; decide

theorem witness_RdinReturnsPortB :
    let s := ready 0x00#8 [good]
    s.halted = false ∧ s.initialized = true ∧ s.BusGood 1 := by
  simp only [State.BusGood]; decide

theorem witness_FailedTransactionEffects :
    (ready 0x00#8 [bad true]).nextDraw.ok = false ∧ (ready 0x00#8 [bad false]).nextDraw.landed = false := by decide

theorem witness_BusErrorGoesToCaller :
    let s := ready 0x00#8 [bad true]
    s.halted = false ∧ s.initialized = true ∧ s.nextDraw.ok = false ∧ s.bankX.lock = none := by decide

theorem witness_NotInitializedCommands :
    State.reset.halted = false ∧ State.reset.initialized = false ∧ (7#8).toNat < 8 := by decide

theorem witness_HaltedCommands :
    dark.halted = true ∧ Instr.pollev.port = .command ∧ Instr.pollev ≠ .shutdown := by decide

/-- Each clause at the edge of its range: channels 8 and 0xFE, 7, ALL before and after INIT; channels 4 and 3 of bank D. -/
theorem witness_UpdateChecksInOrder :
    let s := State.reset
    s.halted = false ∧ s.initialized = false ∧ s.count .x ≤ (8#8).toNat ∧ s.count .x ≤ (0xFE#8).toNat ∧ 0xFE#8 ≠ 0xFF#8 ∧
      (7#8).toNat < s.count .x ∧ s.count .d ≤ (4#8).toNat ∧ (3#8).toNat < s.count .d ∧
      (ready 0x00#8 []).halted = false ∧ (ready 0x00#8 []).initialized = true := by decide

theorem witness_UpdateExpanderLamp :
    let s := ready 0x5A#8 [good, good]
    (7#8).toNat < 8 ∧ s.bankX.status.length = 8 ∧ s.halted = false ∧ s.initialized = true ∧ s.bankX.lock = none ∧
      s.BusGood 2 := by
  simp only [State.BusGood]; decide

/-- The read fails; the write fails. -/
theorem witness_UpdateKeepsStatusOnBusError :
    (let s := ready 0x5A#8 [bad false]
     (0#8).toNat < 8 ∧ s.bankX.status.length = 8 ∧ s.halted = false ∧ s.initialized = true ∧ s.bankX.lock = none ∧
      s.nextDraw.ok = false) ∧
    (let s := ready 0x5A#8 [good, bad true]
     s.bankX.status.length = 8 ∧ s.halted = false ∧ s.initialized = true ∧ s.bankX.lock = none ∧
      s.nextDraw.ok = true ∧ (s.drawAt 1).ok = false) := by decide

theorem witness_UpdateDirectLamp :
    let s := State.reset
    (3#8).toNat < s.cfg.nD ∧ s.bankD.status.length = s.cfg.nD ∧ s.dout.length = s.cfg.nD ∧ s.halted = false ∧
      s.bankD.lock = none := by decide

theorem witness_UpdateBlinkOnlyRecords :
    (let s := State.reset
     (3#8).toNat < s.count .d ∧ (s.bank .d).status.length = s.count .d ∧ s.halted = false) ∧
    (let s := ready 0x04#8 []
     (7#8).toNat < s.count .x ∧ (s.bank .x).status.length = s.count .x ∧ s.halted = false ∧ s.initialized = true) := by decide

theorem witness_UpdateAllChannels :
    let s := ready 0x5A#8 [good]
    s.halted = false ∧ s.initialized = true ∧ s.bankX.lock = none ∧ s.bankD.lock = none ∧ s.cfg.nD ≤ 8 ∧
      s.dout.length = s.cfg.nD ∧ s.nextDraw.ok = true ∧ (ready 0x5A#8 [bad true]).nextDraw.ok = false := by decide

theorem witness_TickStartsPass : State.reset.halted = false := by decide

/-- A channel that holds the status; one that does not; a flash that began inside the tick; SHUTDOWN inside the tick. -/
theorem witness_RendererStepAppliesPhaseBit :
    let v : BankState := { BankState.initial 8 with status := blinking, phase := 4#3, pass := [(.long, 5), (.long, 6)] }
    let s := { shown 0x06#8 [good, good] blinking 4#3 with bankX := v }
    let f := { s with bankX := { v with flashActive := true } }
    ((s.bank .x).pass = [(.long, 5), (.long, 6)] ∧ (s.bank .x).lock = none ∧ s.halted = false ∧
      (s.bank .x).flashActive = false ∧ (s.bank .x).status[5]? = some (.blink .long) ∧
      s.bankX.status.length = 8 ∧ s.dout.length = s.bankD.status.length ∧ s.BusGood 2) ∧
    (s.bank .x).status[6]? ≠ some (.blink .long) ∧
    ((f.bank .x).pass = [(.long, 5), (.long, 6)] ∧ (f.bank .x).lock = none ∧ (f.bank .x).flashActive = true) ∧
    (let h := { dark with bankD := { BankState.initial 4 with pass := [(.short, 3)] } }
     (h.bank .d).pass = [(.short, 3)] ∧ (h.bank .d).lock = none ∧ h.halted = true) := by
  simp only [State.BusGood]; decide

theorem witness_RendererDropsBusError :
    let s := { shown 0x00#8 [bad false] blinking 1#3 with
      bankX := { BankState.initial 8 with status := blinking, phase := 1#3, pass := [(.long, 5), (.long, 6)] } }
    s.bankX.pass = [(.long, 5), (.long, 6)] ∧ s.bankX.lock = none ∧ s.halted = false ∧ s.bankX.flashActive = false ∧
      s.bankX.status[5]? = some (.blink .long) ∧ s.nextDraw.ok = false := by decide

/-- Halted; nothing blinking; in a flash; before INIT; phase 7, from which a tick whose transactions fail answers phase 0. -/
theorem witness_TickCornerCases :
    ((dark.bank .x).pass = [] ∧ (dark.bank .x).lock = none ∧ dark.halted = true) ∧
    (State.reset.halted = false ∧ (∀ st ∈ (State.reset.bank .d).status, isBlink st = false)) ∧
    (({ State.reset with bankD := { BankState.initial 4 with flashActive := true } } : State).bank .d).flashActive = true ∧
    (State.reset.initialized = false ∧ State.reset.QuietBeforeInit) ∧
    (let s := shown 0x00#8 [bad false] blinking 7#3
     (s.bank .x).pass = [] ∧ (s.bank .x).lock = none ∧ s.halted = false ∧ (s.bank .x).phase = 7#3) := by
  refine ⟨by decide, by decide, by decide, ⟨by decide, ?_⟩, by decide⟩
  simp [State.QuietBeforeInit, State.reset, State.resetWith, BankState.initial, isBlink]

/-- Bank X with exactly the six good draws of its three blinking channels, the next one failing; bank D. -/
theorem witness_WholeTickShowsPhase :
    (let s := shown 0x06#8 (List.replicate 6 good ++ [bad true]) blinking 3#3
     s.Inv ∧ s.halted = false ∧ (s.bank .x).flashActive = false ∧ (s.bank .x).pass = [] ∧
      s.BusGood (2 * s.blinkCount .x) ∧ (s.bank .x).status[5]? = some (.blink .long) ∧
      (s.bank .x).status[0]? = some .off ∧ (s.drawAt 6).ok = false) ∧
    (let s := shownDirect [.blink .short, .on, .off, .blink .long] 3#3
     s.Inv ∧ s.halted = false ∧ (s.bank .d).flashActive = false ∧ (s.bank .d).pass = [] ∧
      (s.bank .d).status[3]? = some (.blink .long) ∧ (s.bank .d).status[1]? = some .on) := by
  refine ⟨⟨inv_shown _ _ _ _ rfl, ?_⟩, inv_shownDirect _ _ rfl, ?_⟩
  · simp only [State.BusGood]; decide
  · decide

theorem witness_BlinkRatesOverTicks :
    (let s := shown 0x00#8 (List.replicate 12 good) blinking 0#3
     s.Inv ∧ s.halted = false ∧ (s.bank .x).flashActive = false ∧ (s.bank .x).pass = [] ∧ (s.bank .x).phase = 0#3 ∧
      s.BusGood (2 * (2 * s.blinkCount .x)) ∧ (s.bank .x).status[2]? = some (.blink .med)) ∧
    (let s := shownDirect [.blink .short, .on, .off, .blink .long] 0#3
     s.Inv ∧ s.halted = false ∧ (s.bank .d).flashActive = false ∧ (s.bank .d).pass = [] ∧ (s.bank .d).phase = 0#3 ∧
      (s.bank .d).status[0]? = some (.blink .short)) := by
  refine ⟨⟨inv_shown _ _ _ _ rfl, ?_⟩, inv_shownDirect _ _ rfl, ?_⟩
  · simp only [State.BusGood]; decide
  · decide

/-- An UPDATE of another channel is taken up while channel 0 is ON and lit. -/
theorem witness_OnLampStaysLit :
    let s := { shown 0x01#8 [good, good] [.on, .off, .off, .off, .off, .off, .off, .off] 1#3 with
      inputs := [{ elapsed := 0, inPause := false, activity := .command 0x4107#16 }] }
    s.Inv ∧ (s.bank .x).status[0]? = some .on ∧ s.level .x 0 = some true ∧ (s.bank .x).flashActive = false ∧
      decode .command 0x4107#16 = .ok (.update .x (.chan 7#8) .on) ∧
      after (step s) (fun t => decide ((t.bank .x).status[0]? = some .on ∧ t.exp .olatA = 0x81#8)) = true :=
  ⟨inv_inputs (inv_shown _ _ _ _ rfl) _, by decide⟩

theorem witness_FlashStarts :
    State.reset.halted = false ∧ (ready 0x00#8 []).halted = false ∧ (ready 0x00#8 []).initialized = true := by decide

theorem witness_SweepSequence : (8 ≤ 8 ∧ 7 < 8) ∧ (1 ≤ 8 ∧ 0 < 1) := by decide

theorem witness_BlinkSequence : Config.vectors.wf ∧ 1 < Config.vectors.flashRepeat := by decide

theorem witness_FlashEndsOnBusError :
    let s := { ready 0x03#8 [bad true] with host := some (.flash .x [0x07#8, 0x0F#8]) }
    s.host = some (.flash .x [0x07#8, 0x0F#8]) ∧ s.bankX.lock = none ∧ s.nextDraw.ok = false := by decide

/-- F4: the last mask and the restore, with a phase that ticks have changed since F0; P5: the restore of bank D. -/
theorem witness_FlashStepApplies :
    (let s := { shown 0x00#8 [good] [.off, .off, .blink .med, .off, .off, .off, .off, .off] 3#3 with
       bankX := { BankState.initial 8 with
         status := [.off, .off, .blink .med, .off, .off, .off, .off, .off], phase := 3#3, flashActive := true },
       host := some (.flash .x [0x00#8]) }
     s.host = some (.flash .x [0x00#8]) ∧ (s.bank .x).lock = none ∧ s.nextDraw.ok = true) ∧
    (let s := { shownDirect [.on, .blink .short, .off, .off] 1#3 with host := some (.flash .d []) }
     s.host = some (.flash .d []) ∧ (s.bank .d).lock = none ∧ s.dout.length = s.cfg.nD ∧ 1 < s.count .d ∧
      (s.bank .d).status[1]? = some (.blink .short)) := by decide

/-- Bank X with one good draw for each of the four masks and the restore; bank D before INIT, without draws. -/
theorem witness_WholeFlashRestores :
    (let s := shown 0x00#8 (List.replicate 5 good) blinking 1#3
     s.Inv ∧ s.halted = false ∧ s.host = none ∧ s.initialized = true ∧
      s.BusGood ((flashSeq s.cfg.flashRepeat (s.count .x) .blink).length + 1) ∧
      (s.bank .x).status[2]? = some (.blink .med)) ∧
    (let s := shownDirect [.on, .blink .short, .off, .off] 0#3
     s.Inv ∧ s.halted = false ∧ s.host = none ∧ (s.bank .d).status[1]? = some (.blink .short)) := by
  refine ⟨⟨inv_shown _ _ _ _ rfl, ?_⟩, inv_shownDirect _ _ rfl, ?_⟩
  · simp only [State.BusGood]; decide
  · decide

/-- A window of 99 ms and one of 100 ms. -/
theorem witness_EdgeDebouncePerLine :
    (let s := { State.reset with now := 1099, lastEdge := { State.reset.lastEdge with back := some 1000 } }
     s.halted = false ∧ lineGet s.lastEdge .back = some 1000 ∧ s.now - 1000 < s.cfg.debounceMs) ∧
    (let s := { State.reset with now := 1100, lastEdge := { State.reset.lastEdge with back := some 1000 } }
     s.halted = false ∧ lineGet s.lastEdge .back = some 1000 ∧ s.cfg.debounceMs ≤ s.now - 1000) := by decide

theorem witness_PressAndHoldStart :
    State.reset.halted = false ∧ lineGet State.reset.lastEdge .back = none ∧
      ({ State.reset with inPause := true } : State).inPause = true := by decide

/-- The clauses at 700, 701, 3499 and 3500 ms. -/
theorem witness_LongHoldWindow :
    [700, 701, 3499, 3500].all (fun n =>
      let s := { State.reset with now := n, lastEdge := { State.reset.lastEdge with back := some 0 }, holdStart := some 0 }
      decide (s.halted = false ∧ s.lastEdge.back = some 0 ∧ s.cfg.debounceMs ≤ s.now - 0 ∧
        (n = 700 ∨ n = 3500 ↔ s.now - 0 ≤ s.cfg.longMinMs ∨ s.cfg.longMaxMs ≤ s.now - 0))) = true := by decide

theorem witness_AcceptedReleaseOutlastsDebounce :
    let s := { State.reset with
      now := 500, lastEdge := { State.reset.lastEdge with back := some 300 }, holdStart := some 300 }
    s.Inv ∧ s.halted = false ∧ s.holdStart = some 300 ∧
      after (exec (.edge .back .fall) s) (fun t => decide (t.holdStart = none)) = true :=
  ⟨inv_holding, by decide, by decide, by decide⟩

theorem witness_PollTakesOldestEvent :
    dark.halted = true ∧ State.reset.halted = false ∧ State.reset.evq = [] ∧
      (let s := { State.reset with evq := [{ src := .up, kind := .press, t := 10 }] }
       s.halted = false ∧ s.evq = [{ src := .up, kind := .press, t := 10 }]) := by decide

/-- Before INIT; after it with a good and with a failing draw. -/
theorem witness_ShutdownBegins :
    (State.reset.halted = false ∧ State.reset.bankX.lock = none ∧ State.reset.initialized = false) ∧
    ((ready 0x04#8 [good]).halted = false ∧ (ready 0x04#8 [good]).bankX.lock = none ∧
      (ready 0x04#8 [good]).initialized = true ∧ (ready 0x04#8 [good]).nextDraw.ok = true) ∧
    (ready 0x04#8 [bad true]).nextDraw.ok = false := by decide

/-- S2; S3 without and with an error that S1 kept. -/
theorem witness_ShutdownContinues :
    (let s := { State.reset with host := some (.shutdownPins none) }
     s.host = some (.shutdownPins none) ∧ s.bankD.lock = none ∧ s.dout.length = s.cfg.nD) ∧
    ({ State.reset with host := some (.shutdownHalt none) } : State).host = some (.shutdownHalt none) ∧
    ({ State.reset with host := some (.shutdownHalt (some { reg := 0x14#8, dir := .write })) } : State).host =
      some (.shutdownHalt (some { reg := 0x14#8, dir := .write })) := by decide

/-- Before INIT; after it with a good and with a failing draw. -/
theorem witness_WholeShutdownHalts :
    (let s := shownDirect [.on, .off, .off, .blink .med] 1#3
     s.Inv ∧ s.halted = false ∧ s.host = none ∧ s.initialized = false) ∧
    (let s := shown 0x04#8 [good] blinking 1#3
     s.Inv ∧ s.halted = false ∧ s.host = none ∧ s.initialized = true ∧ s.nextDraw.ok = true) ∧
    (let s := shown 0x04#8 [bad true] blinking 1#3
     s.Inv ∧ s.halted = false ∧ s.host = none ∧ s.initialized = true ∧ s.nextDraw.ok = false) :=
  ⟨⟨inv_shownDirect _ _ rfl, by decide⟩, ⟨inv_shown _ _ _ _ rfl, by decide⟩, inv_shown _ _ _ _ rfl, by decide⟩

theorem witness_ShutdownIdempotent :
    dark.halted = true ∧
      (let s := { atTime State.reset 0 false 0x7000#16 with host := some (.flash .d [0x0F#8]) }
       s.inputs.map (·.activity) = [.command (encode .shutdown)] ∧ s.host = some (.flash .d [0x0F#8])) := by decide

theorem witness_HaltedUntilReset :
    let s := atTime dark 5 true 0xF004#16
    s.halted = true ∧ s.Inv ∧ s.inputs = [{ elapsed := 5, inPause := true, activity := .stimulus 0xF004#16 }] ∧
      after (step s) (fun t => decide (t.now = 5)) = true :=
  ⟨by decide, inv_dark _ _ _, by decide, by decide⟩

theorem witness_ResetKeepsExpander :
    let s := { dark with inputs := [{ elapsed := 0, inPause := false, activity := .reset }] }
    s.inputs = [{ elapsed := 0, inPause := false, activity := .reset }] := by decide

theorem witness_StepKeepsInvariant :
    (atTime dark 5 true 0xF004#16).Inv ∧ after (step (atTime dark 5 true 0xF004#16)) (fun _ => true) = true :=
  ⟨inv_dark _ _ _, by decide⟩

theorem witness_ResetMeetsInvariant : ({ Config.vectors with nD := 8, pinOut := List.range 8 } : Config).wf := by decide

theorem witness_StepKeepsMemoryCanonical :
    let s := atTime (ready 0x5A#8 [good, good]) 0 false 0x4100#16
    Memory.wf s.mem = true ∧ after (step s) (fun t => decide (t.mem = [(0x14, 0x5B#8)])) = true := by decide

/-- Both refusals of R124 from a state that meets the invariant. -/
theorem witness_StepNeverFaults :
    (atTime dark 0 false 0xE001#16).Inv ∧ step (atTime dark 0 false 0xE001#16) = .refused (.illegalStimulus 0xE001#16) ∧
      step (atTime State.reset 0 false 0x4BFF#16) = .refused .broadcastBlink :=
  ⟨inv_dark _ _ _, rfl, rfl⟩

theorem witness_OnlyReachedRegistersChange :
    let s := atTime (ready 0x5A#8 [good, good]) 0 false 0x4100#16
    after (step s) (fun t => decide (Memory.read t.mem 0x14 ≠ Memory.read s.mem 0x14)) = true := by decide

/-- An UPDATE; and step S2 of SHUTDOWN, taken while a word waits for it. -/
theorem witness_StatusChangesOnlyByUpdate :
    (let s := atTime State.reset 0 false 0x4900#16
     after (step s) (fun t => decide ((t.bank .d).status ≠ (s.bank .d).status)) = true) ∧
    (let s := { atTime (shownDirect [.on, .off, .off, .off] 0#3) 0 false 0x6000#16 with host := some (.shutdownPins none) }
     after (step s) (fun t => decide ((t.bank .d).status ≠ (s.bank .d).status)) = true) := by decide

theorem witness_PhaseChangesOnlyByTick :
    let s := atTime State.reset 0 false 0xE800#16
    after (step s) (fun t => decide ((t.bank .d).phase ≠ (s.bank .d).phase)) = true := by decide

theorem witness_FlagsClearedOnlyByReset :
    let s := atTime { State.reset with draws := List.replicate 4 good } 0 false 0x1000#16
    s.inputs = [{ elapsed := 0, inPause := false, activity := .command 0x1000#16 }] ∧ s.initialized = false ∧
      after (step s) (fun t => t.initialized) = true := by decide

theorem witness_ClockNeverRunsBack : after (step (atTime State.reset 9 false 0x6000#16)) (fun t => decide (t.now = 9)) = true := by
  decide

theorem witness_EventQueueIsFifo :
    after (step (atTime State.reset 9 false 0xF004#16)) (fun t =>
      decide (t.evq = [{ src := .select, kind := .press, t := 9 }])) = true := by decide

theorem witness_StepEffectsBounded :
    after (step (atTime { State.reset with draws := List.replicate 4 good } 0 false 0x1000#16)) (fun t =>
      decide (t.trace.length = 4 ∧ t.responses.length = 1)) = true := by decide

end Sys2Proof.Tests
end

namespace Sys2Proof.Machine

/-! ### An agent's turn keeps the schedule and the clock (R35, R88, R98) -/

theorem OnlyLevels.inputs {s t : State} (h : OnlyLevels s t) : t.inputs = s.inputs := by rw [h]
theorem OnlyLevels.now {s t : State} (h : OnlyLevels s t) : t.now = s.now := by rw [h]

theorem rendererStep_keeps_schedule {s t : State} {b : Bank} (h : rendererStep b s = .next t) :
    t.inputs = s.inputs ∧ t.now = s.now := by
  obtain ⟨-, rfl⟩ | ⟨r, c, rest, -, -, ⟨rfl, -⟩ | ⟨-, -, -, l, -, rfl⟩⟩ := rendererStep_next h
  case inl => exact ⟨rfl, rfl⟩
  case inr.inl => simp
  case inr.inr =>
    have hO := applyBit_onlyLevels b c (subphase (s.bank b).phase r) s
    simp [hO.inputs, hO.now]

theorem flashStep_keeps_schedule {s t : State} {b : Bank} {masks : List Byte} (h : flashStep b masks s = .next t) :
    t.inputs = s.inputs ∧ t.now = s.now := by
  have hO (m : Byte) := applyMask_onlyLevels b m s
  obtain ⟨-, ⟨m, rest, -, -, rfl⟩ | ⟨m, e, -, -, -, rfl⟩⟩ := flashStep_next h
  · simp [(hO m).inputs, (hO m).now]
  · simp [endFlash, State.setFlashActive, (hO m).inputs, (hO m).now]

theorem hostStep_keeps_schedule {s t : State} (h : hostStep s = .next t) :
    t.inputs = s.inputs ∧ t.now = s.now := by
  obtain ⟨-, rfl⟩ | ⟨b, masks, -, hf⟩ | ⟨err, -, -, rfl⟩ | ⟨err, -, rfl⟩ := hostStep_next h
  · exact ⟨rfl, rfl⟩
  · exact flashStep_keeps_schedule hf
  · have hO := pinWrites_onlyLevels 0x00#8 (List.range s.cfg.nD) s
    simp [hO.inputs, hO.now]
  · simp

/-! ### Which entries wait, and what is stepped meanwhile -/

/-- An entry that waits for an agent is not taken up: the agent takes its next step. -/
theorem step_of_waitsFor {s : State} {slot : Slot} {rest : List Slot} {a : Agent} (hi : s.inputs = slot :: rest)
    (hw : s.waitsFor slot.activity = some a) : step s = agentStep a s := by
  simp [step, hi, runSlot, hw]

/-- A command word, legal or not, waits for the command in progress (R10, R98). -/
theorem waitsFor_command_busy {s : State} {op : HostOp} (h : s.host = some op) (w : Word) :
    s.waitsFor (.command w) = some .host := by
  simp [State.waitsFor, h]

/-- A TICK waits for the tick of its bank in progress (R88). -/
theorem waitsFor_tick_busy {s : State} {w : Word} {b : Bank} (hd : decodeStimulus w = .ok (.tick b))
    (hp : (s.bank b).pass ≠ []) : s.waitsFor (.stimulus w) = some (.renderer b) := by
  simp [State.waitsFor, stimulusBank, hd, Instr.tickBank, hp]

/-- Settles O10: the waiting entry makes the step the busy agent's own, and no agent's turn touches the schedule or the clock. -/
theorem busyAgentsFinishFirst : Obligations.BusyAgentsFinishFirst := by
  intro s slot rest hi
  refine ⟨fun w op hc hh => ?_, fun w b ht hd hp => ?_⟩
  · have hstep : step s = hostStep s := step_of_waitsFor (a := .host) hi (hc ▸ waitsFor_command_busy hh w)
    exact ⟨hstep, fun t h => hostStep_keeps_schedule (hstep ▸ h)⟩
  · have hstep : step s = rendererStep b s := step_of_waitsFor (a := .renderer b) hi (ht ▸ waitsFor_tick_busy hd hp)
    exact ⟨hstep, fun t h => rendererStep_keeps_schedule (hstep ▸ h)⟩

end Sys2Proof.Machine

namespace Sys2Proof.Machine

/-! ### What a step can be, word by word -/

/-- Everything that an entry which need not wait can do: a command or a stimulus is run, an illegal command word is
answered, an agent takes its turn, or the block is reset. -/
theorem perform_next {a : Activity} {s t : State} (h : perform a s = .next t) :
    (∃ w i, a = .command w ∧ decode .command w = .ok i ∧ exec i s = .next t) ∨
      (∃ w e, a = .command w ∧ t = s.raise e) ∨
      (∃ w i, a = .stimulus w ∧ decode .stimulus w = .ok i ∧ exec i s = .next t) ∨
      (a = .hostTurn ∧ hostStep s = .next t) ∨
      (∃ b, a = .rendererTurn b ∧ rendererStep b s = .next t) ∨ (a = .reset ∧ t = s.restart) := by
  cases a with
  | command w =>
    obtain ⟨i, hd, he⟩ | ⟨-, he⟩ := runCommand_cases w s <;> rw [perform, he] at h
    · exact .inl ⟨w, i, rfl, hd, h⟩
    · cases h
      exact .inr (.inl ⟨w, _, rfl, rfl⟩)
  | stimulus w =>
    obtain ⟨i, hd, he⟩ | ⟨-, he⟩ := runStimulus_cases w s <;> rw [perform, he] at h
    · exact .inr (.inr (.inl ⟨w, i, rfl, hd, h⟩))
    · cases h
  | hostTurn => exact .inr (.inr (.inr (.inl ⟨rfl, h⟩)))
  | rendererTurn b => exact .inr (.inr (.inr (.inr (.inl ⟨b, rfl, h⟩))))
  | reset => cases h; exact .inr (.inr (.inr (.inr (.inr ⟨rfl, rfl⟩))))

/-- Everything a step can be: nothing, the turn of an agent that the next entry waits for, or that entry performed. -/
theorem step_next {s t : State} (h : step s = .next t) :
    t = s ∨ (step s = hostStep s ∧ hostStep s = .next t) ∨ (∃ b, rendererStep b s = .next t) ∨
      ∃ slot rest, s.inputs = slot :: rest ∧ s.waitsFor slot.activity = none ∧
        step s = perform slot.activity (s.takeSlot slot rest) ∧
        perform slot.activity (s.takeSlot slot rest) = .next t := by
  obtain ⟨-, he⟩ | ⟨slot, rest, hi, ⟨a, hw, he⟩ | ⟨hw, he⟩⟩ := step_cases s
  · rw [he] at h
    cases h
    exact .inl rfl
  · obtain ⟨_, _, -, -, rfl⟩ | ⟨_, b, -, -, -, rfl⟩ := waitsFor_some hw
    · exact .inr (.inl ⟨he, he.symm.trans h⟩)
    · exact .inr (.inr (.inl ⟨b, he.symm.trans h⟩))
  · exact .inr (.inr (.inr ⟨slot, rest, hi, hw, he, he.symm.trans h⟩))

/-! ### One bank's record -/

theorem bank_setBank (s : State) (b c : Bank) (v : BankState) : (s.setBank b v).bank c = if c = b then v else s.bank c := by
  split
  · next h => rw [h, setBank_bank]
  · next h => exact setBank_bank_ne s h v

/-- What is true of a bank's record after a change of one record, bank by bank. -/
theorem setBank_forall {P : Bank → BankState → Prop} {s : State} {b : Bank} {v : BankState}
    (h : ∀ c, P c (s.bank c)) (hv : P b v) (c : Bank) : P c ((s.setBank b v).bank c) := by
  rw [bank_setBank]
  split
  · next hc => exact hc ▸ hv
  · exact h c

/-- A field of the banks' records that a change of one record keeps. -/
theorem setBank_keeps {α : Type} (f : BankState → α) {s : State} {b : Bank} {v : BankState} (h : f v = f (s.bank b))
    (c : Bank) : f ((s.setBank b v).bank c) = f (s.bank c) :=
  setBank_forall (P := fun c u => f u = f (s.bank c)) (fun _ => rfl) h c

section
variable (s : State) (b : Bank) (v : Bool)

@[simp] theorem setFlashActive_cfg : (s.setFlashActive b v).cfg = s.cfg := setBank_cfg ..
@[simp] theorem setFlashActive_dout : (s.setFlashActive b v).dout = s.dout := setBank_dout ..
@[simp] theorem setFlashActive_initialized : (s.setFlashActive b v).initialized = s.initialized := setBank_initialized ..
@[simp] theorem setFlashActive_halted : (s.setFlashActive b v).halted = s.halted := setBank_halted ..
@[simp] theorem setFlashActive_lastEdge : (s.setFlashActive b v).lastEdge = s.lastEdge := setBank_lastEdge ..
@[simp] theorem setFlashActive_holdStart : (s.setFlashActive b v).holdStart = s.holdStart := setBank_holdStart ..
@[simp] theorem setFlashActive_evq : (s.setFlashActive b v).evq = s.evq := setBank_evq ..
@[simp] theorem setFlashActive_mem : (s.setFlashActive b v).mem = s.mem := setBank_mem ..
@[simp] theorem setFlashActive_now : (s.setFlashActive b v).now = s.now := setBank_now ..
@[simp] theorem setFlashActive_flashActive : ((s.setFlashActive b v).bank b).flashActive = v := by
  simp [State.setFlashActive]
@[simp] theorem setFlashActive_status (c : Bank) : ((s.setFlashActive b v).bank c).status = (s.bank c).status :=
  setBank_keeps BankState.status (by rfl) c
@[simp] theorem setFlashActive_lock (c : Bank) : ((s.setFlashActive b v).bank c).lock = (s.bank c).lock :=
  setBank_keeps BankState.lock (by rfl) c
@[simp] theorem setFlashActive_pass (c : Bank) : ((s.setFlashActive b v).bank c).pass = (s.bank c).pass :=
  setBank_keeps BankState.pass (by rfl) c

end

/-! ### The invariant's parts, bank by bank -/

theorem shape_iff (s : State) :
    s.Shape ↔ s.cfg.wf ∧ (∀ b, (s.bank b).status.length = s.count b) ∧ s.dout.length = s.cfg.nD ∧
      (∀ b, (s.bank b).lock = none) ∧ Memory.wf s.mem = true := by
  constructor
  · rintro ⟨hcfg, hx, hd, hdout, hlx, hld, hm⟩
    exact ⟨hcfg, by rintro (_ | _) <;> assumption, hdout, by rintro (_ | _) <;> assumption, hm⟩
  · rintro ⟨hcfg, hs, hdout, hl, hm⟩
    exact ⟨hcfg, hs .x, hs .d, hdout, hl .x, hl .d, hm⟩

theorem State.Inv.cfg_wf {s : State} (h : s.Inv) : s.cfg.wf := ((shape_iff s).1 h.shape).1
theorem State.Inv.status_length {s : State} (h : s.Inv) (b : Bank) : (s.bank b).status.length = s.count b :=
  ((shape_iff s).1 h.shape).2.1 b
theorem State.Inv.dout_length {s : State} (h : s.Inv) : s.dout.length = s.cfg.nD := ((shape_iff s).1 h.shape).2.2.1
theorem State.Inv.lock_free {s : State} (h : s.Inv) (b : Bank) : (s.bank b).lock = none :=
  ((shape_iff s).1 h.shape).2.2.2.1 b
theorem State.Inv.mem_wf {s : State} (h : s.Inv) : Memory.wf s.mem = true := ((shape_iff s).1 h.shape).2.2.2.2

/-- SHUTDOWN has passed its step S2: the states of which the invariant says that every lamp is dark (R110, R112). -/
def State.Dark (s : State) : Prop := s.halted = true ∨ ∃ e, s.host = some (.shutdownHalt e)

/-- SHUTDOWN has passed its step S1: the states of which the invariant says that bank X is OFF. -/
def State.Closing (s : State) : Prop := s.Dark ∨ ∃ e, s.host = some (.shutdownPins e)

theorem not_dark_of_idle {s : State} (hh : s.halted = false) (hn : s.host = none) : ¬ s.Dark := by
  simp [State.Dark, hh, hn]

theorem not_closing_of_idle {s : State} (hh : s.halted = false) (hn : s.host = none) : ¬ s.Closing := by
  simp [State.Closing, State.Dark, hh, hn]

/-- A command in progress is one of a block that is not halted. -/
theorem State.Inv.not_halted {s : State} (h : s.Inv) {op : HostOp} (ho : s.host = some op) : s.halted = false := by
  obtain ⟨-, -, hidle⟩ := h.darkWhenHalted
  by_contra hh
  simp [ho] at hidle
  exact hh hidle

theorem State.Inv.not_dark_of_flash {s : State} (h : s.Inv) {b : Bank} {masks : List Byte}
    (ho : s.host = some (.flash b masks)) : ¬ s.Dark := by
  simp [State.Dark, h.not_halted ho, ho]

/-- Once every lamp is dark no channel holds a blink status. -/
theorem State.Inv.not_dark_of_blink {s : State} (h : s.Inv) {b : Bank} {c : Nat} {r : Blink}
    (hs : (s.bank b).status[c]? = some (.blink r)) : ¬ s.Dark := by
  intro hd
  obtain ⟨hx, hD, -⟩ := h.darkWhenHalted.2.1 hd
  have hoff : (s.bank b).AllOff := by cases b <;> assumption
  cases hoff _ (List.mem_of_getElem? hs)

/-! ### What the invariant does not look at -/

theorem State.Inv.respond {s : State} (h : s.Inv) (r : Response) : (s.respond r).Inv :=
  ⟨h.shape, h.passInOrder, h.flashInOrder, h.timesInOrder, h.quietBeforeInit, h.darkWhenHalted⟩

theorem State.Inv.raise {s : State} (h : s.Inv) (e : ErrorResult) : (s.raise e).Inv := h.respond _

theorem State.Inv.finish {s : State} (h : s.Inv) (e : Option BusError) : (finish e s).Inv := by
  cases e <;> exact h.respond _

/-- The clock may only advance (R35). -/
theorem State.Inv.takeSlot {s : State} (h : s.Inv) (slot : Slot) (rest : List Slot) : (s.takeSlot slot rest).Inv where
  shape := h.shape
  passInOrder := h.passInOrder
  flashInOrder := h.flashInOrder
  timesInOrder := by
    obtain ⟨hedge, hhold, hevq, hsorted⟩ := h.timesInOrder
    exact ⟨fun p t ht => (hedge p t ht).trans (Nat.le_add_right ..), hhold,
      fun e he => (hevq e he).trans (Nat.le_add_right ..), hsorted⟩
  quietBeforeInit := h.quietBeforeInit
  darkWhenHalted := h.darkWhenHalted

/-! ### Operations that keep the invariant -/

/-- Levels may change while SHUTDOWN has not passed its step S2. -/
theorem State.Inv.levels {s t : State} (h : s.Inv) (hO : OnlyLevels s t) (hlen : t.dout.length = s.dout.length)
    (hm : Memory.wf t.mem = true) (hdark : s.Dark → t.dout = s.dout) : t.Inv := by
  obtain ⟨hcfg, hs, hdout, hl, -⟩ := (shape_iff s).1 h.shape
  obtain ⟨hpins, hhalt, hidle⟩ := h.darkWhenHalted
  rw [hO]
  exact {
    shape := (shape_iff _).2 ⟨hcfg, hs, hlen.trans hdout, hl, hm⟩
    passInOrder := h.passInOrder
    flashInOrder := h.flashInOrder
    timesInOrder := h.timesInOrder
    quietBeforeInit := h.quietBeforeInit
    darkWhenHalted := ⟨hpins, fun hd => ⟨(hhalt hd).1, (hhalt hd).2.1, (hdark hd).symm ▸ (hhalt hd).2.2⟩, hidle⟩ }

theorem State.Inv.applyBit {s : State} (h : s.Inv) (hd : ¬ s.Dark) (b : Bank) (c : Nat) (lvl : Bool) :
    (applyBit b c lvl s).1.Inv :=
  h.levels (applyBit_onlyLevels ..) (applyBit_dout_length ..) (applyBit_mem_wf _ _ _ _ h.mem_wf) (absurd · hd)

theorem State.Inv.applyMask {s : State} (h : s.Inv) (hd : ¬ s.Dark) (b : Bank) (m : Byte) : (applyMask b m s).1.Inv :=
  h.levels (applyMask_onlyLevels ..) (applyMask_dout_length ..) (applyMask_mem_wf _ _ _ h.mem_wf) (absurd · hd)

theorem State.Inv.busRead {s : State} (h : s.Inv) (r : ExpReg) : (busRead r s).1.Inv :=
  h.levels (busRead_onlyLevels r s) (by simp) (by simpa using h.mem_wf) (fun _ => busRead_dout r s)

theorem State.Inv.busWrite {s : State} (h : s.Inv) (r : ExpReg) (v : Byte) : (busWrite r v s).1.Inv :=
  h.levels (busWrite_onlyLevels r v s) (by simp) (busWrite_mem_wf r v s h.mem_wf) (fun _ => busWrite_dout r v s)

theorem State.Inv.busWrites {s : State} (h : s.Inv) (l : List (ExpReg × Byte)) : (busWrites l s).1.Inv :=
  h.levels (busWrites_onlyLevels l s) (by rw [busWrites_dout]) (busWrites_mem_wf l s h.mem_wf)
    (fun _ => busWrites_dout l s)

/-- A bank's statuses, phase and pass may change as long as the lists keep their form, bank X does not blink before INIT, and a
bank that SHUTDOWN has turned OFF stays OFF. -/
theorem State.Inv.setBank {s : State} (h : s.Inv) {b : Bank} {v : BankState}
    (hlen : v.status.length = s.count b) (hlock : v.lock = none) (hflash : v.flashActive = (s.bank b).flashActive)
    (hpass : v.pass <:+ passSteps (s.count b))
    (hquiet : b = .x → s.initialized = false → ∀ st ∈ v.status, isBlink st = false)
    (hoff : s.Closing → (s.bank b).AllOff → v.AllOff) : (s.setBank b v).Inv where
  shape := by
    obtain ⟨hcfg, hs, hdout, hl, hm⟩ := (shape_iff s).1 h.shape
    refine (shape_iff _).2 ⟨by simpa using hcfg, ?_, by simpa using hdout, ?_, by simpa using hm⟩
    · simpa [State.count] using setBank_forall (P := fun c u => u.status.length = s.count c) hs hlen
    · exact setBank_forall (P := fun _ u => u.lock = none) hl hlock
  passInOrder := by
    simpa [State.PassInOrder, State.count] using
      setBank_forall (P := fun c u => u.pass <:+ passSteps (s.count c)) h.passInOrder hpass
  flashInOrder := by
    obtain ⟨hactive, hmasks⟩ := h.flashInOrder
    refine ⟨?_, by simpa [State.count] using hmasks⟩
    simpa using setBank_forall (P := fun c u => u.flashActive = true ↔ ∃ masks, s.host = some (.flash c masks)) hactive
      (hflash ▸ hactive b)
  timesInOrder := by simpa [State.TimesInOrder] using h.timesInOrder
  quietBeforeInit := by
    intro hi
    rw [setBank_initialized] at hi
    obtain ⟨hq, hn⟩ := h.quietBeforeInit hi
    cases b with
    | x => exact ⟨hquiet rfl hi, hn⟩
    | d => exact ⟨hq, hn⟩
  darkWhenHalted := by
    obtain ⟨hpins, hhalt, hidle⟩ := h.darkWhenHalted
    cases b with
    | x => exact ⟨fun e he => hoff (.inr ⟨e, he⟩) (hpins e he),
        fun hd => ⟨hoff (.inl hd) (hhalt hd).1, (hhalt hd).2⟩, hidle⟩
    | d => exact ⟨hpins, fun hd => ⟨(hhalt hd).1, hoff (.inl hd) (hhalt hd).2.1, (hhalt hd).2.2⟩, hidle⟩

/-- The statuses of bank X do not blink before INIT. -/
theorem State.Inv.quiet_bank {s : State} (h : s.Inv) {b : Bank} (hb : b = .x) (hi : s.initialized = false) :
    ∀ st ∈ (s.bank b).status, isBlink st = false := by
  subst hb
  exact (h.quietBeforeInit hi).1

/-- The renderer's place may move within the tick, and the phase is free. -/
theorem State.Inv.setRenderer {s : State} (h : s.Inv) {b : Bank} {p : Phase} {l : List (Blink × Nat)}
    (hl : l <:+ passSteps (s.count b)) : (s.setBank b { s.bank b with phase := p, pass := l }).Inv :=
  h.setBank (h.status_length b) (h.lock_free b) rfl hl h.quiet_bank (fun _ ho => ho)

/-- A bank's statuses may change while no SHUTDOWN is under way, or to OFF. -/
theorem State.Inv.setStatuses {s : State} (h : s.Inv) {b : Bank} {l : List Status} (hlen : l.length = s.count b)
    (hquiet : b = .x → s.initialized = false → ∀ st ∈ l, isBlink st = false)
    (hoff : s.Closing → ∀ st ∈ l, st = .off) : (s.setBank b { s.bank b with status := l }).Inv :=
  h.setBank hlen (h.lock_free b) rfl (h.passInOrder b) hquiet (fun hc _ => hoff hc)

/-- Every status of a bank may become OFF at any time (R110). -/
theorem State.Inv.setAllOff {s : State} (h : s.Inv) (b : Bank) :
    (s.setBank b { s.bank b with status := List.replicate (s.count b) .off }).Inv :=
  h.setStatuses (by simp) (fun _ _ st hst => by rw [List.eq_of_mem_replicate hst]; rfl)
    (fun _ st hst => List.eq_of_mem_replicate hst)

/-- FLASH_ACTIVE and the host's place move together (R22, R94): a FLASH starts, goes on, or is over. -/
theorem State.Inv.setFlash {s : State} (h : s.Inv) {b : Bank} {v : Bool} {o : Option HostOp} (hh : s.halted = false)
    (hs : s.host = none ∨ ∃ masks, s.host = some (.flash b masks)) (hv : v = true ↔ ∃ masks, o = some (.flash b masks))
    (ho : ∀ op, o = some op → ∃ masks, op = .flash b masks ∧ (b = .x → s.initialized = true) ∧
      ∃ md, masks <:+ flashSeq s.cfg.flashRepeat (s.count b) md) : ((s.setFlashActive b v).setHost o).Inv where
  shape := by
    obtain ⟨hcfg, hst, hdout, hl, hm⟩ := (shape_iff s).1 h.shape
    exact (shape_iff _).2 ⟨by simpa using hcfg, by simpa [State.count] using hst, by simpa using hdout,
      by simpa using hl, by simpa using hm⟩
  passInOrder := by simpa [State.PassInOrder, State.count] using h.passInOrder
  flashInOrder := by
    obtain ⟨hactive, -⟩ := h.flashInOrder
    constructor
    · intro c
      by_cases hc : c = b
      · subst hc; simpa using hv
      · have hother : (s.bank c).flashActive = false := by
          rw [← Bool.not_eq_true, hactive c]
          rintro ⟨masks, hm⟩
          obtain hs | ⟨masks', hs⟩ := hs <;> rw [hs] at hm <;> cases hm
          exact hc rfl
        have hnone (masks : List Byte) : o ≠ some (.flash c masks) := by
          intro hm
          obtain ⟨_, hop, -⟩ := ho _ hm
          cases hop
          exact hc rfl
        simp [State.setFlashActive, setBank_bank_ne s hc, hother, hnone]
    · intro c masks hm
      obtain ⟨_, hop, -, md, hsuf⟩ := ho _ hm
      cases hop
      exact ⟨md, by simpa [State.count] using hsuf⟩
  timesInOrder := by simpa [State.TimesInOrder] using h.timesInOrder
  quietBeforeInit := by
    intro hi
    rw [setHost_initialized, setFlashActive_initialized] at hi
    have hstatus : ((s.setFlashActive b v).bank .x).status = s.bankX.status := setFlashActive_status s b v .x
    refine ⟨fun st hst => (h.quietBeforeInit hi).1 st (hstatus ▸ hst), fun masks hm => ?_⟩
    obtain ⟨_, hop, hb, -⟩ := ho _ hm
    cases hop
    simp [hb rfl] at hi
  darkWhenHalted := by
    refine ⟨fun e he => ?_, ?_, fun hd => ?_⟩
    · obtain ⟨_, hop, -⟩ := ho _ he
      cases hop
    · rintro (hd | ⟨e, he⟩)
      · simp [hh] at hd
      · obtain ⟨_, hop, -⟩ := ho _ he
        cases hop
    · simp [hh] at hd

/-- SHUTDOWN moves from step to step with no FLASH in progress (R98, R110). -/
theorem State.Inv.setShutdown {s : State} (h : s.Inv) {o : Option HostOp} (hs : ∀ b masks, s.host ≠ some (.flash b masks))
    (ho : ∀ b masks, o ≠ some (.flash b masks)) (hdark : (s.setHost o).DarkWhenHalted) : (s.setHost o).Inv where
  shape := h.shape
  passInOrder := h.passInOrder
  flashInOrder := by
    obtain ⟨hactive, -⟩ := h.flashInOrder
    exact ⟨fun b => by simpa [hs, ho] using hactive b, fun b masks hm => absurd hm (ho b masks)⟩
  timesInOrder := h.timesInOrder
  quietBeforeInit := fun hi => ⟨(h.quietBeforeInit hi).1, ho .x⟩
  darkWhenHalted := hdark

/-- HALTED is set once both banks are OFF, the pins are 0 and the host is free (R110). -/
theorem State.Inv.setHalted {s : State} (h : s.Inv) (hn : s.host = none) (hx : s.bankX.AllOff) (hd : s.bankD.AllOff)
    (hp : ∀ v ∈ s.dout, v = some false) : (s.setHalted true).Inv where
  shape := h.shape
  passInOrder := h.passInOrder
  flashInOrder := h.flashInOrder
  timesInOrder := h.timesInOrder
  quietBeforeInit := h.quietBeforeInit
  darkWhenHalted := ⟨h.darkWhenHalted.1, fun _ => ⟨hx, hd, hp⟩, fun _ => hn⟩

/-- INITIALIZED may be set at any time (R72). -/
theorem State.Inv.setInitialized {s : State} (h : s.Inv) : (s.setInitialized true).Inv where
  shape := h.shape
  passInOrder := h.passInOrder
  flashInOrder := h.flashInOrder
  timesInOrder := h.timesInOrder
  quietBeforeInit := fun hi => by cases hi
  darkWhenHalted := h.darkWhenHalted

/-- The InputMonitor's own fields are constrained by `TimesInOrder` only. -/
theorem State.Inv.monitor {s : State} (h : s.Inv) {l : PerLine (Option Nat)} {hold : Option Nat} {q : List ButtonEvent}
    (ht : ({ s with lastEdge := l, holdStart := hold, evq := q } : State).TimesInOrder) :
    ({ s with lastEdge := l, holdStart := hold, evq := q } : State).Inv :=
  ⟨h.shape, h.passInOrder, h.flashInOrder, ht, h.quietBeforeInit, h.darkWhenHalted⟩

/-! ### Reset -/

/-- After reset a bank has its channels, OFF and at phase 0, and its renderer is between ticks (R37). -/
theorem bank_resetWith (k : Config) (b : Bank) :
    (State.resetWith k).bank b = BankState.initial (channelCount k b) := by cases b <;> rfl

/-- After reset every agent is between operations, every lamp is OFF and no edge has been seen (R37). -/
theorem resetWith_inv {k : Config} (hk : k.wf) : (State.resetWith k).Inv where
  shape := (shape_iff _).2 ⟨hk, fun b => by rw [bank_resetWith]; exact List.length_replicate, List.length_replicate,
    fun b => by rw [bank_resetWith]; rfl, rfl⟩
  passInOrder := fun b => by rw [bank_resetWith]; exact List.nil_suffix
  flashInOrder := ⟨fun b => by rw [bank_resetWith]; exact ⟨by rintro ⟨⟩, by rintro ⟨_, ⟨⟩⟩⟩, by rintro _ _ ⟨⟩⟩
  timesInOrder := ⟨by rintro (_ | _ | _ | _) t ⟨⟩, by rintro t ⟨⟩, by rintro e ⟨⟩, .nil⟩
  quietBeforeInit := fun _ => ⟨fun st hst => by rw [List.eq_of_mem_replicate hst]; rfl, by rintro masks ⟨⟩⟩
  darkWhenHalted := ⟨by rintro e ⟨⟩, by rintro (⟨⟨⟩⟩ | ⟨e, ⟨⟩⟩), fun _ => rfl⟩

/-- A reset while the device runs keeps the registers and the clock (R138). -/
theorem State.Inv.restart {s : State} (h : s.Inv) : s.restart.Inv where
  shape := by
    obtain ⟨hcfg, hs, hdout, hl, -⟩ := (shape_iff _).1 (resetWith_inv h.cfg_wf).shape
    exact (shape_iff _).2 ⟨hcfg, hs, hdout, hl, h.mem_wf⟩
  passInOrder := (resetWith_inv h.cfg_wf).passInOrder
  flashInOrder := (resetWith_inv h.cfg_wf).flashInOrder
  timesInOrder := ⟨by rintro (_ | _ | _ | _) t ⟨⟩, by rintro t ⟨⟩, by rintro e ⟨⟩, .nil⟩
  quietBeforeInit := (resetWith_inv h.cfg_wf).quietBeforeInit
  darkWhenHalted := (resetWith_inv h.cfg_wf).darkWhenHalted

end Sys2Proof.Machine

namespace Sys2Proof.Machine

/-! ### Every agent's turn keeps the invariant -/

theorem rendererStep_inv {s t : State} {b : Bank} (h : s.Inv) (ht : rendererStep b s = .next t) : t.Inv := by
  obtain ⟨-, rfl⟩ | ⟨r, c, rest, hp, -, ⟨rfl, -⟩ | ⟨-, -, hs, l, hl, rfl⟩⟩ := rendererStep_next ht
  case inl => exact h
  all_goals have hrest : rest <:+ passSteps (s.count b) := (List.suffix_cons _ rest).trans (hp ▸ h.passInOrder b)
  case inr.inl => exact h.setRenderer hrest
  case inr.inr =>
    have hO := applyBit_onlyLevels b c (subphase (s.bank b).phase r) s
    have hInv := h.applyBit (h.not_dark_of_blink hs) b c (subphase (s.bank b).phase r)
    have hsuf : l <:+ passSteps (s.count b) := by
      obtain rfl | rfl := hl
      · exact hrest
      · exact List.nil_suffix
    have hset := hInv.setRenderer (b := b) (p := (s.bank b).phase) (l := l) (by rwa [State.count, hO.cfg])
    rwa [hO.bank b] at hset

theorem flashStep_inv {s t : State} {b : Bank} {masks : List Byte} (h : s.Inv) (hs : s.host = some (.flash b masks))
    (ht : flashStep b masks s = .next t) : t.Inv := by
  obtain ⟨hactive, hmasks⟩ := h.flashInOrder
  have hmask (m : Byte) := h.applyMask (h.not_dark_of_flash hs) b m
  have hO (m : Byte) := applyMask_onlyLevels b m s
  have hhost (m : Byte) : (applyMask b m s).1.host = some (.flash b masks) := (hO m).host.trans hs
  have hh (m : Byte) := (hmask m).not_halted (hhost m)
  obtain ⟨-, ⟨m, rest, rfl, -, rfl⟩ | ⟨m, e, -, -, -, rfl⟩⟩ := flashStep_next ht
  · obtain ⟨md, hsuf⟩ := hmasks b _ hs
    have hstay : (applyMask b m s).1.setFlashActive b true = (applyMask b m s).1 := by
      have : ((applyMask b m s).1.bank b).flashActive = true := by
        rw [(hO m).bank b]; exact (hactive b).2 ⟨_, hs⟩
      rw [State.setFlashActive, ← this, setBank_same]
    rw [← hstay]
    refine (hmask m).setFlash (hh m) (.inr ⟨_, hhost m⟩) (by simp) ?_
    rintro op ⟨⟩
    refine ⟨rest, rfl, ?_, md, ?_⟩
    · rintro rfl
      by_contra hi
      exact (h.quietBeforeInit (by rw [← (hO m).initialized]; simpa using hi)).2 _ hs
    · rw [State.count, (hO m).cfg]
      exact (List.suffix_cons m rest).trans hsuf
  · exact ((hmask m).setFlash (hh m) (.inr ⟨_, hhost m⟩) (by simp) (by simp)).finish e

/-- Step S2 leaves every direct pin 0 (R110). -/
theorem pinWrites_all_low {s : State} (hlen : s.dout.length = s.cfg.nD) :
    ∀ v ∈ (pinWrites 0x00#8 (List.range s.cfg.nD) s).dout, v = some false := by
  intro v hv
  obtain ⟨j, hj⟩ := List.mem_iff_getElem?.1 hv
  rw [pinWrites_dout] at hj
  by_cases hjn : j < s.cfg.nD
  · simpa [hjn, hlen, eq_comm] using hj
  · simp [hjn, hlen] at hj

theorem allOff_replicate (v : BankState) (n : Nat) : ({ v with status := List.replicate n .off } : BankState).AllOff :=
  fun _ => List.eq_of_mem_replicate

theorem shutdownPins_inv {s : State} {err : Option BusError} (h : s.Inv) (hs : s.host = some (.shutdownPins err)) :
    (((pinWrites 0x00#8 (List.range s.cfg.nD) s).setBank .d
      { s.bankD with status := List.replicate s.cfg.nD .off }).setHost (some (.shutdownHalt err))).Inv := by
  have hO := pinWrites_onlyLevels 0x00#8 (List.range s.cfg.nD) s
  have hpins : (pinWrites 0x00#8 (List.range s.cfg.nD) s).Inv :=
    h.applyMask (by simp [State.Dark, h.not_halted hs, hs]) .d 0x00#8
  have hoff := hpins.setAllOff .d
  have hx : s.bankX.AllOff := h.darkWhenHalted.1 err hs
  simp only [State.count, hO.cfg, hO.bank, channelCount] at hoff
  refine hoff.setShutdown (by simp [hO.host, hs]) (by simp) ⟨by simp, fun _ => ?_, ?_⟩
  · exact ⟨hO.bankX.symm ▸ hx, allOff_replicate _ _, pinWrites_all_low h.dout_length⟩
  · simp [hO.halted, h.not_halted hs]

theorem shutdownHalt_inv {s : State} {err : Option BusError} (h : s.Inv) (hs : s.host = some (.shutdownHalt err)) :
    (finish err ((s.setHalted true).setHost none)).Inv := by
  obtain ⟨hx, hd, hp⟩ := h.darkWhenHalted.2.1 (.inr ⟨err, hs⟩)
  have hfree : (s.setHost none).Inv :=
    h.setShutdown (by simp [hs]) (by simp) ⟨by simp, fun _ => ⟨hx, hd, hp⟩, fun _ => rfl⟩
  exact (hfree.setHalted rfl hx hd hp).finish err

theorem hostStep_inv {s t : State} (h : s.Inv) (ht : hostStep s = .next t) : t.Inv := by
  obtain ⟨-, rfl⟩ | ⟨b, masks, hs, hf⟩ | ⟨err, hs, -, rfl⟩ | ⟨err, hs, rfl⟩ := hostStep_next ht
  · exact h
  · exact flashStep_inv h hs hf
  · exact shutdownPins_inv h hs
  · exact shutdownHalt_inv h hs

/-! ### Every instruction keeps the invariant, a command while no other is in progress -/

theorem execInit_inv {s t : State} (h : s.Inv) (ht : exec .init s = .next t) : t.Inv := by
  obtain ⟨e, rfl⟩ | ⟨-, rfl⟩ := execInit_next ht
  · exact h.raise e
  · cases (busWrites initWrites s).2 with
    | none => exact (h.busWrites initWrites).setInitialized.respond _
    | some e => exact (h.busWrites initWrites).raise _

theorem execWrout_inv {s t : State} {m : Byte} (h : s.Inv) (ht : exec (.wrout m) s = .next t) : t.Inv := by
  obtain ⟨e, rfl⟩ | ⟨-, -, -, rfl⟩ := execWrout_next ht
  · exact h.raise e
  · exact (h.busWrite .olatA m).finish _

theorem execRdin_inv {s t : State} (h : s.Inv) (ht : exec .rdin s = .next t) : t.Inv := by
  obtain ⟨e, rfl⟩ | ⟨-, -, rfl⟩ := execRdin_next ht
  · exact h.raise e
  · rw [finishRead]
    split
    · exact (h.busRead .gpioB).respond _
    · exact (h.busRead .gpioB).raise _

/-- Recording statuses keeps the invariant while no command is in progress: bank X blinks only after INIT (R85). -/
theorem State.Inv.recordStatuses {s u : State} {b : Bank} {l : List Status} (hu : u.Inv) (hO : OnlyLevels s u)
    (hh : s.halted = false) (hn : s.host = none) (hb : b = .x → s.initialized = true) (hlen : l.length = s.count b) :
    (u.setBank b { s.bank b with status := l }).Inv := by
  rw [← hO.bank b]
  refine hu.setStatuses (by rw [hlen, State.count, State.count, hO.cfg]) (fun hx hi => ?_) (fun hc => ?_)
  · rw [hO.initialized, hb hx] at hi; cases hi
  · exact absurd hc (not_closing_of_idle (hO.halted.trans hh) (hO.host.trans hn))

theorem execUpdate_inv {s t : State} {b : Bank} {c : Target} {st : Status} (h : s.Inv) (hn : s.host = none)
    (ht : exec (.update b c st) s = .next t) : t.Inv := by
  obtain ⟨e, rfl⟩ | ⟨hh, hb, hcases⟩ := execUpdate_next ht
  · exact h.raise e
  have hd := not_dark_of_idle hh hn
  have hset (n : Nat) : ((s.bank b).status.set n st).length = s.count b := by simp [h.status_length b]
  obtain ⟨n, lvl, -, -, -, -, rfl⟩ | ⟨n, -, -, -, rfl⟩ | ⟨m, -, -, -, rfl⟩ := hcases
  · exact ((h.applyBit hd b n.toNat lvl).recordStatuses (applyBit_onlyLevels ..) hh hn hb (hset _)).finish _
  · exact (h.recordStatuses (.refl s) hh hn hb (hset _)).respond _
  · exact ((h.applyMask hd b m).recordStatuses (applyMask_onlyLevels ..) hh hn hb (by simp)).finish _

theorem execFlash_inv {s t : State} {b : Bank} {md : FlashMode} (h : s.Inv) (hn : s.host = none)
    (ht : exec (.flash b md) s = .next t) : t.Inv := by
  obtain ⟨e, rfl⟩ | ⟨hh, hb, rfl⟩ := execFlash_next ht
  · exact h.raise e
  · refine h.setFlash hh (.inl hn) (by simp) ?_
    rintro op ⟨⟩
    exact ⟨_, rfl, hb, md, List.suffix_rfl⟩

theorem execPollev_inv {s t : State} (h : s.Inv) (ht : exec .pollev s = .next t) : t.Inv := by
  obtain ⟨e, rfl⟩ | rfl | ⟨e, rest, hq, rfl⟩ := execPollev_next ht
  · exact h.raise e
  · exact h.respond _
  · obtain ⟨hedge, hhold, hevq, hsorted⟩ := h.timesInOrder
    rw [hq] at hevq hsorted
    have htail : ({ s with evq := rest } : State).TimesInOrder :=
      ⟨hedge, hhold, fun e he => hevq e (List.mem_cons_of_mem _ he), (List.pairwise_cons.1 hsorted).2⟩
    exact (h.monitor htail).respond _

/-- Step S1 leaves bank X OFF and the host inside SHUTDOWN (R110). -/
theorem shutdownExpander_inv {s u : State} {o : Option BusError} (hu : u.Inv) (hO : OnlyLevels s u) (hh : s.halted = false)
    (hn : s.host = none) :
    ((u.setBank .x { s.bankX with status := List.replicate Config.nX .off }).setHost (some (.shutdownPins o))).Inv := by
  have hoff := hu.setAllOff .x
  simp only [State.count, hO.bank, channelCount] at hoff
  refine hoff.setShutdown (by simp [hO.host, hn]) (by simp) ⟨fun _ _ => allOff_replicate _ _, ?_, ?_⟩
  · simp [hO.halted, hh]
  · simp [hO.halted, hh]

theorem execShutdown_inv {s t : State} (h : s.Inv) (hn : s.host = none) (ht : exec .shutdown s = .next t) : t.Inv := by
  obtain ⟨-, rfl⟩ | ⟨hh, -, ⟨-, rfl⟩ | ⟨-, rfl⟩⟩ := execShutdown_next ht
  · exact h.respond _
  · exact shutdownExpander_inv (h.busWrite .olatA 0x00#8) (busWrite_onlyLevels ..) hh hn
  · exact shutdownExpander_inv h (.refl s) hh hn

theorem execTick_inv {s t : State} {b : Bank} (h : s.Inv) (ht : exec (.tick b) s = .next t) : t.Inv := by
  obtain ⟨-, rfl⟩ | ⟨-, rfl⟩ := execTick_next ht
  · exact h
  · exact h.setRenderer List.suffix_rfl

@[simp] theorem lineGet_lineSet {α : Type} (v : PerLine α) (p q : Line) (a : α) :
    lineGet (lineSet v p a) q = if q = p then a else lineGet v q := by cases p <;> cases q <;> rfl

theorem execEdge_inv {s t : State} {p : Line} {k : EdgeKind} (h : s.Inv) (ht : exec (.edge p k) s = .next t) : t.Inv := by
  obtain rfl | ⟨-, ht, hq, hhold⟩ := execEdge_next ht
  · exact h
  obtain ⟨hedge, hback, hevq, hsorted⟩ := h.timesInOrder
  rw [ht]
  refine h.monitor ⟨fun q u hu => ?_, fun u hu => ?_, ?_, ?_⟩
  · rw [lineGet_lineSet] at hu
    split at hu
    · cases hu; exact le_rfl
    · exact hedge q u hu
  · change lineGet (lineSet s.lastEdge p (some s.now)) .back = some u
    rw [lineGet_lineSet]
    obtain hh | ⟨hh, hp⟩ | ⟨hh, rfl⟩ := hhold <;> rw [hh] at hu
    · cases hu
    · rw [if_neg (Ne.symm hp)]; exact hback u hu
    · rw [if_pos rfl]; exact hu
  · intro e he
    obtain hq | ⟨kind, hq⟩ := hq <;> rw [hq] at he
    · exact hevq e he
    · obtain he | rfl := List.mem_append.1 he |>.imp_right List.mem_singleton.1
      · exact hevq e he
      · exact le_rfl
  · obtain hq | ⟨kind, hq⟩ := hq <;> rw [hq]
    · exact hsorted
    · exact List.pairwise_append.2 ⟨hsorted, List.pairwise_singleton .., by simpa using hevq⟩

theorem exec_inv {s t : State} {i : Instr} (h : s.Inv) (hn : i.port = .command → s.host = none)
    (ht : exec i s = .next t) : t.Inv := by
  cases i with
  | init => exact execInit_inv h ht
  | wrout m => exact execWrout_inv h ht
  | rdin => exact execRdin_inv h ht
  | update b c st => exact execUpdate_inv h (hn rfl) ht
  | flash b md => exact execFlash_inv h (hn rfl) ht
  | pollev => exact execPollev_inv h ht
  | shutdown => exact execShutdown_inv h (hn rfl) ht
  | tick b => exact execTick_inv h ht
  | edge p k => exact execEdge_inv h ht

/-! ### Every step keeps the invariant -/

theorem perform_inv {s t : State} {slot : Slot} {rest : List Slot} (h : s.Inv) (hw : s.waitsFor slot.activity = none)
    (ht : perform slot.activity (s.takeSlot slot rest) = .next t) : t.Inv := by
  have hu := h.takeSlot slot rest
  obtain ⟨w, i, ha, -, he⟩ | ⟨_, e, -, rfl⟩ | ⟨w, i, -, hd, he⟩ | ⟨-, he⟩ | ⟨b, -, he⟩ | ⟨-, rfl⟩ := perform_next ht
  · exact exec_inv hu (fun _ => waitsFor_command (s := s) (w := w) (ha ▸ hw)) he
  · exact hu.raise e
  · exact exec_inv hu (by simp [decodeStimulus_port hd]) he
  · exact hostStep_inv hu he
  · exact rendererStep_inv hu he
  · exact hu.restart

/-- Settles O48: every turn of an agent and every entry taken up keeps each part of the invariant. -/
theorem stepKeepsInvariant : Obligations.StepKeepsInvariant := by
  intro s t h ht
  obtain rfl | ⟨-, he⟩ | ⟨b, he⟩ | ⟨slot, rest, -, hw, -, he⟩ := step_next ht
  · exact h
  · exact hostStep_inv h he
  · exact rendererStep_inv h he
  · exact perform_inv h hw he

/-- Settles O49: `resetWith_inv`; the test vectors' parameters are well formed by computation. -/
theorem resetMeetsInvariant : Obligations.ResetMeetsInvariant :=
  ⟨resetWith_inv (by decide), fun _ => resetWith_inv⟩

end Sys2Proof.Machine

namespace Sys2Proof.Machine

/-! ### What each meaning leaves alone: everything but lamps, outputs and the host's place -/

theorem OnlyChannels.refl (s : State) : OnlyChannels s s := rfl

theorem OnlyChannels.trans {s t u : State} (h : OnlyChannels s t) (k : OnlyChannels t u) : OnlyChannels s u := by
  unfold OnlyChannels at *
  rw [h] at k
  exact k

theorem OnlyLevels.onlyChannels {s t : State} (h : OnlyLevels s t) : OnlyChannels s t := by
  rw [h]; rfl

theorem OnlyChannels.setBank {s u : State} (h : OnlyChannels s u) (b : Bank) (v : BankState) :
    OnlyChannels s (u.setBank b v) := h.trans (by cases b <;> rfl)

theorem OnlyChannels.setHost {s u : State} (h : OnlyChannels s u) (o : Option HostOp) : OnlyChannels s (u.setHost o) :=
  h.trans rfl

theorem OnlyChannels.respond {s u : State} (h : OnlyChannels s u) (r : Response) : OnlyChannels s (u.respond r) :=
  h.trans rfl

theorem OnlyChannels.finish {s u : State} (h : OnlyChannels s u) (e : Option BusError) : OnlyChannels s (finish e u) := by
  cases e <;> exact h.respond _

/-- Outside the lamps, the outputs and the host's place, HALTED may be set, and nothing else changes. -/
def OnlyDriven (s t : State) : Prop :=
  OnlyChannels { s with halted := t.halted } t ∧ (s.halted = true → t.halted = true)

theorem OnlyChannels.driven {s t : State} (h : OnlyChannels s t) : OnlyDriven s t := by
  have hh : t.halted = s.halted := by rw [h]
  exact ⟨by rw [hh]; exact h, hh.trans⟩

theorem OnlyDriven.cfg {s t : State} (h : OnlyDriven s t) : t.cfg = s.cfg := by rw [h.1]
theorem OnlyDriven.initialized {s t : State} (h : OnlyDriven s t) : t.initialized = s.initialized := by rw [h.1]
theorem OnlyDriven.evq {s t : State} (h : OnlyDriven s t) : t.evq = s.evq := by rw [h.1]
theorem OnlyDriven.now {s t : State} (h : OnlyDriven s t) : t.now = s.now := by rw [h.1]
theorem OnlyDriven.halted {s t : State} (h : OnlyDriven s t) : s.halted = true → t.halted = true := h.2

theorem rendererStep_onlyChannels {s t : State} {b : Bank} (h : rendererStep b s = .next t) : OnlyChannels s t := by
  obtain ⟨-, rfl⟩ | ⟨r, c, rest, -, -, ⟨rfl, -⟩ | ⟨-, -, -, l, -, rfl⟩⟩ := rendererStep_next h
  · exact .refl _
  · exact (OnlyChannels.refl s).setBank ..
  · exact (applyBit_onlyLevels ..).onlyChannels.setBank ..

theorem flashStep_onlyChannels {s t : State} {b : Bank} {masks : List Byte} (h : flashStep b masks s = .next t) :
    OnlyChannels s t := by
  obtain ⟨-, ⟨m, rest, -, -, rfl⟩ | ⟨m, e, -, -, -, rfl⟩⟩ := flashStep_next h
  · exact (applyMask_onlyLevels ..).onlyChannels.setHost _
  · exact (((applyMask_onlyLevels ..).onlyChannels.setBank ..).setHost _).finish _

theorem hostStep_onlyDriven {s t : State} (h : hostStep s = .next t) : OnlyDriven s t := by
  obtain ⟨-, rfl⟩ | ⟨b, masks, -, hf⟩ | ⟨err, -, -, rfl⟩ | ⟨err, -, rfl⟩ := hostStep_next h
  · exact (OnlyChannels.refl _).driven
  · exact (flashStep_onlyChannels hf).driven
  · exact (((pinWrites_onlyLevels ..).onlyChannels.setBank ..).setHost _).driven
  · refine ⟨?_, fun _ => by simp⟩
    rw [finish_halted]
    exact ((OnlyChannels.refl (s.setHalted true)).setHost none).finish err

/-- Besides lamps, outputs and the host's place, an instruction changes at most INITIALIZED (INIT), the queue's head
(POLLEV) or the InputMonitor (EDGE). -/
theorem exec_effect {s t : State} {i : Instr} (h : exec i s = .next t) :
    OnlyDriven s t ∨
      (i = .init ∧ OnlyDriven { s with initialized := true } t) ∨
      (i = .pollev ∧ ∃ e, s.evq = e :: t.evq ∧ OnlyDriven { s with evq := t.evq } t) ∨
      ∃ p k, i = .edge p k ∧ OnlyDriven { s with lastEdge := t.lastEdge, holdStart := t.holdStart, evq := t.evq } t ∧
        (t.evq = s.evq ∨ ∃ kind, t.evq = s.evq ++ [{ src := p, kind := kind, t := s.now }]) := by
  have hraise (e : ErrorResult) : OnlyDriven s (s.raise e) := ((OnlyChannels.refl s).respond _).driven
  cases i with
  | init =>
    obtain ⟨e, rfl⟩ | ⟨-, rfl⟩ := execInit_next h
    · exact .inl (hraise e)
    · have hO := busWrites_onlyLevels initWrites s
      cases (busWrites initWrites s).2 with
      | none =>
        refine .inr (.inl ⟨rfl, OnlyChannels.driven ?_⟩)
        rw [finishInit, hO]
        rfl
      | some e => exact .inl (hO.onlyChannels.respond _).driven
  | wrout m =>
    obtain ⟨e, rfl⟩ | ⟨-, -, -, rfl⟩ := execWrout_next h
    · exact .inl (hraise e)
    · exact .inl ((busWrite_onlyLevels ..).onlyChannels.finish _).driven
  | rdin =>
    obtain ⟨e, rfl⟩ | ⟨-, -, rfl⟩ := execRdin_next h
    · exact .inl (hraise e)
    · have hO := (busRead_onlyLevels .gpioB s).onlyChannels
      rw [finishRead]
      split <;> exact .inl (hO.respond _).driven
  | update b c st =>
    obtain ⟨e, rfl⟩ | ⟨-, -, ⟨n, lvl, -, -, -, -, rfl⟩ | ⟨n, -, -, -, rfl⟩ | ⟨m, -, -, -, rfl⟩⟩ := execUpdate_next h
    · exact .inl (hraise e)
    · exact .inl (((applyBit_onlyLevels ..).onlyChannels.setBank ..).finish _).driven
    · exact .inl (((OnlyChannels.refl s).setBank ..).respond _).driven
    · exact .inl (((applyMask_onlyLevels ..).onlyChannels.setBank ..).finish _).driven
  | flash b md =>
    obtain ⟨e, rfl⟩ | ⟨-, -, rfl⟩ := execFlash_next h
    · exact .inl (hraise e)
    · exact .inl (((OnlyChannels.refl s).setBank ..).setHost _).driven
  | pollev =>
    obtain ⟨e, rfl⟩ | rfl | ⟨e, rest, hq, rfl⟩ := execPollev_next h
    · exact .inl (hraise e)
    · exact .inl ((OnlyChannels.refl s).respond _).driven
    · exact .inr (.inr (.inl ⟨rfl, e, hq, ((OnlyChannels.refl { s with evq := rest }).respond _).driven⟩))
  | shutdown =>
    obtain ⟨-, rfl⟩ | ⟨-, -, ⟨-, rfl⟩ | ⟨-, rfl⟩⟩ := execShutdown_next h
    · exact .inl ((OnlyChannels.refl s).respond _).driven
    · exact .inl (((busWrite_onlyLevels ..).onlyChannels.setBank ..).setHost _).driven
    · exact .inl (((OnlyChannels.refl s).setBank ..).setHost _).driven
  | tick b =>
    obtain ⟨-, rfl⟩ | ⟨-, rfl⟩ := execTick_next h
    · exact .inl (OnlyChannels.refl _).driven
    · exact .inl ((OnlyChannels.refl s).setBank ..).driven
  | edge p k =>
    obtain rfl | ⟨-, ht, hq, -⟩ := execEdge_next h
    · exact .inl (OnlyChannels.refl _).driven
    · refine .inr (.inr (.inr ⟨p, k, rfl, OnlyChannels.driven ?_, hq⟩))
      rw [ht]
      rfl

/-- The same of a whole step: besides lamps, outputs and the host's place it takes up an entry, and then changes at most
INITIALIZED, the queue or the InputMonitor, by the instruction named, or is a reset. -/
theorem step_effect {s t : State} (h : step s = .next t) :
    OnlyDriven s t ∨ ∃ slot rest, s.inputs = slot :: rest ∧
      (OnlyDriven (s.takeSlot slot rest) t ∨
        (∃ w, slot.activity = .command w ∧ decode .command w = .ok .init ∧
          OnlyDriven { s.takeSlot slot rest with initialized := true } t) ∨
        (∃ w e, slot.activity = .command w ∧ decode .command w = .ok .pollev ∧ s.evq = e :: t.evq ∧
          OnlyDriven { s.takeSlot slot rest with evq := t.evq } t) ∨
        (∃ w p k, slot.activity = .stimulus w ∧ decode .stimulus w = .ok (.edge p k) ∧
          OnlyDriven { s.takeSlot slot rest with lastEdge := t.lastEdge, holdStart := t.holdStart, evq := t.evq } t ∧
          (t.evq = s.evq ∨ ∃ e, e.src = p ∧ e.t = t.now ∧ t.evq = s.evq ++ [e])) ∨
        (slot.activity = .reset ∧ t = (s.takeSlot slot rest).restart)) := by
  obtain rfl | ⟨-, he⟩ | ⟨b, he⟩ | ⟨slot, rest, hi, -, -, he⟩ := step_next h
  · exact .inl (OnlyChannels.refl _).driven
  · exact .inl (hostStep_onlyDriven he)
  · exact .inl (rendererStep_onlyChannels he).driven
  refine .inr ⟨slot, rest, hi, ?_⟩
  obtain ⟨w, i, ha, hd, he⟩ | ⟨_, e, -, rfl⟩ | ⟨w, i, ha, hd, he⟩ | ⟨-, he⟩ | ⟨b, -, he⟩ | ⟨ha, rfl⟩ := perform_next he
  · obtain hO | ⟨rfl, hO⟩ | ⟨rfl, e, hq, hO⟩ | ⟨p, k, rfl, -⟩ := exec_effect he
    · exact .inl hO
    · exact .inr (.inl ⟨w, ha, hd, hO⟩)
    · exact .inr (.inr (.inl ⟨w, e, ha, hd, hq, hO⟩))
    · cases decodeCommand_port hd
  · exact .inl ((OnlyChannels.refl _).respond _).driven
  · obtain hO | ⟨rfl, -⟩ | ⟨rfl, -⟩ | ⟨p, k, rfl, hO, hq⟩ := exec_effect he
    · exact .inl hO
    · cases decodeStimulus_port hd
    · cases decodeStimulus_port hd
    · refine .inr (.inr (.inr (.inl ⟨w, p, k, ha, hd, hO, hq.imp_right ?_⟩)))
      rintro ⟨kind, hq⟩
      exact ⟨_, rfl, hO.now.symm, hq⟩
  · exact .inl (hostStep_onlyDriven he)
  · exact .inl (rendererStep_onlyChannels he).driven
  · exact .inr (.inr (.inr (.inr ⟨ha, rfl⟩)))

/-- Settles O55: no turn or instruction clears a flag, and only INIT's end sets INITIALIZED. -/
theorem flagsClearedOnlyByReset : Obligations.FlagsClearedOnlyByReset := by
  intro s t slot rest hi hreset h
  suffices hflags : (s.halted = true → t.halted = true) ∧ (t.initialized = s.initialized ∨
      t.initialized = true ∧ ∃ w, slot.activity = .command w ∧ decode .command w = .ok .init) by
    obtain ⟨hh, hsame | ⟨hset, hinit⟩⟩ := hflags
    · exact ⟨hsame.trans, hh, fun h0 h1 => by simp [hsame, h0] at h1⟩
    · exact ⟨fun _ => hset, hh, fun _ _ => hinit⟩
  obtain hO | ⟨slot', rest', hi', hcases⟩ := step_effect h
  · exact ⟨hO.halted, .inl hO.initialized⟩
  obtain ⟨rfl, rfl⟩ := List.cons.inj (hi.symm.trans hi')
  obtain hO | ⟨w, ha, hd, hO⟩ | ⟨_, _, -, -, -, hO⟩ | ⟨_, _, _, -, -, hO, -⟩ | ⟨ha, -⟩ := hcases
  · exact ⟨hO.halted, .inl hO.initialized⟩
  · exact ⟨hO.halted, .inr ⟨hO.initialized, w, ha, hd⟩⟩
  · exact ⟨hO.halted, .inl hO.initialized⟩
  · exact ⟨hO.halted, .inl hO.initialized⟩
  · exact absurd ha hreset

/-- Settles O56: only an entry taken up moves the clock, and it moves it forward. -/
theorem clockNeverRunsBack : Obligations.ClockNeverRunsBack := by
  intro s t h
  have hle (slot : Slot) : s.now ≤ s.now + slot.elapsed := Nat.le_add_right ..
  obtain hO | ⟨slot, rest, -, hO | ⟨_, -, -, hO⟩ | ⟨_, _, -, -, -, hO⟩ | ⟨_, _, _, -, -, hO, -⟩ | ⟨-, rfl⟩⟩ := step_effect h
  · exact ⟨hO.now.ge, hO.cfg⟩
  case inr.inr.inr.inr.inr => exact ⟨hle slot, rfl⟩
  all_goals exact ⟨(hle slot).trans hO.now.ge, hO.cfg⟩

/-- Settles O57: the queue grows at its end by EDGE, shrinks at its head by POLLEV, and is emptied by a reset. -/
theorem eventQueueIsFifo : Obligations.EventQueueIsFifo := by
  intro s t h
  obtain hO | ⟨slot, rest, hi, hcases⟩ := step_effect h
  · exact .inl hO.evq
  obtain hO | ⟨_, -, -, hO⟩ | ⟨w, e, ha, hd, hq, -⟩ | ⟨w, p, k, ha, hd, -, hq | ⟨e, hsrc, ht, hq⟩⟩ | ⟨ha, -⟩ := hcases
  · exact .inl hO.evq
  · exact .inl hO.evq
  · exact .inr ⟨slot, rest, hi, .inr (.inl ⟨w, e, ha, hd, hq⟩)⟩
  · exact .inl hq
  · exact .inr ⟨slot, rest, hi, .inl ⟨w, p, k, e, ha, hd, hsrc, ht, hq⟩⟩
  · exact .inr ⟨slot, rest, hi, .inr (.inr ha)⟩

/-! ### Which registers a step reaches (R32) -/

theorem OnlyRegister.congr_mem {r : ExpReg} {s t u : State} (h : OnlyRegister r s u) (hm : t.mem = u.mem) :
    OnlyRegister r s t := fun a ha => by rw [hm]; exact h a ha

theorem onlyRegister_of_mem {r : ExpReg} {s t : State} (hm : t.mem = s.mem) : OnlyRegister r s t :=
  fun a _ => by rw [hm]

theorem OnlyRegister.of_takeSlot {r : ExpReg} {s t : State} {slot : Slot} {rest : List Slot}
    (h : OnlyRegister r (s.takeSlot slot rest) t) : OnlyRegister r s t := h

theorem rendererStep_onlyRegister {s t : State} {b : Bank} (h : rendererStep b s = .next t) : OnlyRegister .olatA s t := by
  obtain ⟨-, rfl⟩ | ⟨r, c, rest, -, -, ⟨rfl, -⟩ | ⟨-, -, -, l, -, rfl⟩⟩ := rendererStep_next h
  · exact onlyRegister_of_mem rfl
  · exact onlyRegister_of_mem (setBank_mem ..)
  · exact (applyBit_onlyRegister _ _ _ _).congr_mem (setBank_mem ..)

theorem hostStep_onlyRegister {s t : State} (h : hostStep s = .next t) : OnlyRegister .olatA s t := by
  obtain ⟨-, rfl⟩ | ⟨b, masks, -, hf⟩ | ⟨err, -, -, rfl⟩ | ⟨err, -, rfl⟩ := hostStep_next h
  · exact onlyRegister_of_mem rfl
  · obtain ⟨-, ⟨m, rest, -, -, rfl⟩ | ⟨m, e, -, -, -, rfl⟩⟩ := flashStep_next hf
    · exact (applyMask_onlyRegister _ _ _).congr_mem rfl
    · exact (applyMask_onlyRegister b m s).congr_mem (by simp [endFlash])
  · exact onlyRegister_of_mem (by simp)
  · exact onlyRegister_of_mem (by simp)

/-- INIT reaches its four registers (R71, R73). -/
theorem execInit_reach {s t : State} (h : exec .init s = .next t) {a : Nat} (ha : ∀ p ∈ initWrites, a ≠ (s.addr p.1).toNat) :
    Memory.read t.mem a = Memory.read s.mem a := by
  obtain ⟨e, rfl⟩ | ⟨-, rfl⟩ := execInit_next h
  · rfl
  · have hr := busWrites_reach initWrites s ha
    cases (busWrites initWrites s).2 <;> exact hr

/-- Every other instruction reaches at most the output latch. -/
theorem exec_onlyRegister {s t : State} {i : Instr} (hi : i ≠ .init) (h : exec i s = .next t) : OnlyRegister .olatA s t := by
  cases i with
  | init => exact absurd rfl hi
  | wrout m =>
    obtain ⟨e, rfl⟩ | ⟨-, -, -, rfl⟩ := execWrout_next h
    · exact onlyRegister_of_mem rfl
    · exact (busWrite_onlyRegister _ _ _).congr_mem (finish_mem ..)
  | rdin =>
    obtain ⟨e, rfl⟩ | ⟨-, -, rfl⟩ := execRdin_next h
    · exact onlyRegister_of_mem rfl
    · rw [finishRead]
      split <;> exact onlyRegister_of_mem (busRead_mem .gpioB s)
  | update b c st =>
    obtain ⟨e, rfl⟩ | ⟨-, -, ⟨n, lvl, -, -, -, -, rfl⟩ | ⟨n, -, -, -, rfl⟩ | ⟨m, -, -, -, rfl⟩⟩ := execUpdate_next h
    · exact onlyRegister_of_mem rfl
    · exact (applyBit_onlyRegister b n.toNat lvl s).congr_mem (by simp)
    · exact onlyRegister_of_mem (by simp)
    · exact (applyMask_onlyRegister b m s).congr_mem (by simp)
  | flash b md =>
    obtain ⟨e, rfl⟩ | ⟨-, -, rfl⟩ := execFlash_next h
    · exact onlyRegister_of_mem rfl
    · exact onlyRegister_of_mem (by simp)
  | pollev => obtain ⟨e, rfl⟩ | rfl | ⟨e, rest, -, rfl⟩ := execPollev_next h <;> exact onlyRegister_of_mem rfl
  | shutdown =>
    obtain ⟨-, rfl⟩ | ⟨-, -, ⟨-, rfl⟩ | ⟨-, rfl⟩⟩ := execShutdown_next h
    · exact onlyRegister_of_mem rfl
    · exact (busWrite_onlyRegister _ _ _).congr_mem rfl
    · exact onlyRegister_of_mem rfl
  | tick b =>
    obtain ⟨-, rfl⟩ | ⟨-, rfl⟩ := execTick_next h
    · exact onlyRegister_of_mem rfl
    · exact onlyRegister_of_mem (setBank_mem ..)
  | edge p k =>
    obtain rfl | ⟨-, ht, -, -⟩ := execEdge_next h
    · exact onlyRegister_of_mem rfl
    · exact onlyRegister_of_mem (by rw [ht])

/-- A step reaches the output latch, or takes up an INIT and reaches its registers. -/
theorem step_reach {s t : State} (h : step s = .next t) :
    OnlyRegister .olatA s t ∨
      ((∃ slot rest w, s.inputs = slot :: rest ∧ slot.activity = .command w ∧ decode .command w = .ok .init) ∧
        ∀ a, (∀ p ∈ initWrites, a ≠ (s.addr p.1).toNat) → Memory.read t.mem a = Memory.read s.mem a) := by
  obtain rfl | ⟨-, he⟩ | ⟨b, he⟩ | ⟨slot, rest, hi, -, -, he⟩ := step_next h
  · exact .inl (onlyRegister_of_mem rfl)
  · exact .inl (hostStep_onlyRegister he)
  · exact .inl (rendererStep_onlyRegister he)
  obtain ⟨w, i, ha, hd, he⟩ | ⟨_, e, -, rfl⟩ | ⟨w, i, -, hd, he⟩ | ⟨-, he⟩ | ⟨b, -, he⟩ | ⟨-, rfl⟩ := perform_next he
  · by_cases hinit : i = .init
    · subst hinit
      exact .inr ⟨⟨slot, rest, w, hi, ha, hd⟩, fun a ha => execInit_reach he ha⟩
    · exact .inl (exec_onlyRegister hinit he).of_takeSlot
  · exact .inl (onlyRegister_of_mem rfl)
  · refine .inl (exec_onlyRegister ?_ he).of_takeSlot
    rintro rfl
    cases decodeStimulus_port hd
  · exact .inl (hostStep_onlyRegister he).of_takeSlot
  · exact .inl (rendererStep_onlyRegister he).of_takeSlot
  · exact .inl (onlyRegister_of_mem rfl)

/-- Settles O52: a changed address is one of those the step reaches. -/
theorem onlyReachedRegistersChange : Obligations.OnlyReachedRegistersChange := by
  intro s t a h hne
  obtain hO | ⟨hinit, hreach⟩ := step_reach h
  · exact .inl (by_contra fun ha => hne (hO a ha))
  · refine .inr ⟨by_contra fun ha => hne (hreach a ?_), hinit⟩
    simp only [not_or] at ha
    obtain ⟨hiA, hiB, hpu, hint⟩ := ha
    simp [initWrites, hiA, hiB, hpu, hint]

/-! ### What a step does to a bank's record -/

/-- The renderer moves its own place in the tick only (R17, R87). -/
theorem rendererStep_bank {s t : State} {b : Bank} (h : rendererStep b s = .next t) (c : Bank) :
    t.bank c = { s.bank c with pass := (t.bank c).pass } := by
  obtain ⟨-, rfl⟩ | ⟨r, ch, rest, -, -, ⟨rfl, -⟩ | ⟨-, -, -, l, -, rfl⟩⟩ := rendererStep_next h
  · rfl
  · by_cases hc : c = b <;> simp [bank_setBank, hc]
  · by_cases hc : c = b <;> simp [bank_setBank, hc, (applyBit_onlyLevels ..).bank]

/-- The host's turn changes FLASH_ACTIVE only, but for step S2 of SHUTDOWN, which sets bank D OFF (R22, R110). -/
theorem hostStep_bank {s t : State} (h : hostStep s = .next t) (c : Bank) :
    t.bank c = { s.bank c with flashActive := (t.bank c).flashActive } ∨
      (c = .d ∧ (∃ e, s.host = some (.shutdownPins e)) ∧
        t.bank c = { s.bank c with status := List.replicate s.cfg.nD .off }) := by
  obtain ⟨-, rfl⟩ | ⟨b, masks, -, hf⟩ | ⟨err, hs, -, rfl⟩ | ⟨err, -, rfl⟩ := hostStep_next h
  · exact .inl rfl
  · obtain ⟨-, ⟨m, rest, -, -, rfl⟩ | ⟨m, e, -, -, -, rfl⟩⟩ := flashStep_next hf
    · exact .inl (by simp [(applyMask_onlyLevels ..).bank])
    · refine .inl ?_
      by_cases hc : c = b <;>
        simp [endFlash, State.setFlashActive, bank_setBank, hc, (applyMask_onlyLevels ..).bank]
  · cases c with
    | x => exact .inl (by simp [bank_setBank, (pinWrites_onlyLevels ..).bank])
    | d => exact .inr ⟨rfl, ⟨err, hs⟩, by simp [State.bank]⟩
  · exact .inl (by simp)

/-- An instruction changes a bank's statuses by UPDATE of that bank or by SHUTDOWN's step S1, its phase and pass by TICK, its
FLASH_ACTIVE by FLASH, and nothing else of it (R15, R17, R22). -/
theorem exec_bank {s t : State} {i : Instr} (h : exec i s = .next t) (c : Bank) :
    t.bank c = { s.bank c with flashActive := (t.bank c).flashActive } ∨
      (((∃ tgt st, i = .update c tgt st) ∨ (i = .shutdown ∧ c = .x)) ∧
        t.bank c = { s.bank c with status := (t.bank c).status }) ∨
      (i = .tick c ∧ t.bank c = { s.bank c with phase := (s.bank c).phase + 1#3, pass := (t.bank c).pass }) := by
  cases i with
  | init =>
    obtain ⟨e, rfl⟩ | ⟨-, rfl⟩ := execInit_next h
    · exact .inl (by simp [State.raise])
    · have hO := (busWrites_onlyLevels initWrites s).bank c
      cases (busWrites initWrites s).2 <;> exact .inl (by simp [finishInit, State.raise, hO])
  | wrout m =>
    obtain ⟨e, rfl⟩ | ⟨-, -, -, rfl⟩ := execWrout_next h
    · exact .inl (by simp [State.raise])
    · exact .inl (by simp [(busWrite_onlyLevels ..).bank])
  | rdin =>
    obtain ⟨e, rfl⟩ | ⟨-, -, rfl⟩ := execRdin_next h
    · exact .inl (by simp [State.raise])
    · have hO := (busRead_onlyLevels .gpioB s).bank c
      rw [finishRead]
      split <;> exact .inl (by simp [State.raise, hO])
  | update b tgt st =>
    obtain ⟨e, rfl⟩ | ⟨-, -, hcases⟩ := execUpdate_next h
    · exact .inl (by simp [State.raise])
    by_cases hc : c = b
    · subst hc
      refine .inr (.inl ⟨.inl ⟨tgt, st, rfl⟩, ?_⟩)
      obtain ⟨n, lvl, -, -, -, -, rfl⟩ | ⟨n, -, -, -, rfl⟩ | ⟨m, -, -, -, rfl⟩ := hcases <;> simp
    · refine .inl ?_
      obtain ⟨n, lvl, -, -, -, -, rfl⟩ | ⟨n, -, -, -, rfl⟩ | ⟨m, -, -, -, rfl⟩ := hcases
      · simp [bank_setBank, hc, (applyBit_onlyLevels ..).bank]
      · simp [bank_setBank, hc]
      · simp [bank_setBank, hc, (applyMask_onlyLevels ..).bank]
  | flash b md =>
    obtain ⟨e, rfl⟩ | ⟨-, -, rfl⟩ := execFlash_next h
    · exact .inl (by simp [State.raise])
    · by_cases hc : c = b <;> exact .inl (by simp [State.setFlashActive, bank_setBank, hc])
  | pollev =>
    obtain ⟨e, rfl⟩ | rfl | ⟨e, rest, -, rfl⟩ := execPollev_next h
    · exact .inl (by simp [State.raise])
    · exact .inl (by simp)
    · exact .inl (by cases c <;> rfl)
  | shutdown =>
    obtain ⟨-, rfl⟩ | ⟨-, -, hcases⟩ := execShutdown_next h
    · exact .inl (by simp)
    cases c with
    | x => exact .inr (.inl ⟨.inr ⟨rfl, rfl⟩, by obtain ⟨-, rfl⟩ | ⟨-, rfl⟩ := hcases <;> simp [State.bank]⟩)
    | d =>
      obtain ⟨-, rfl⟩ | ⟨-, rfl⟩ := hcases
      · exact .inl (by simp [bank_setBank, (busWrite_onlyLevels ..).bank])
      · exact .inl (by simp [bank_setBank])
  | tick b =>
    obtain ⟨-, rfl⟩ | ⟨-, rfl⟩ := execTick_next h
    · exact .inl rfl
    · by_cases hc : c = b
      · subst hc
        exact .inr (.inr ⟨rfl, by simp⟩)
      · exact .inl (by simp [bank_setBank, hc])
  | edge p k =>
    obtain rfl | ⟨-, ht, -, -⟩ := execEdge_next h
    · exact .inl rfl
    · exact .inl (by rw [ht]; cases c <;> rfl)

/-- Settles O53: by what a turn and an instruction do to a bank's record. -/
theorem statusChangesOnlyByUpdate : Obligations.StatusChangesOnlyByUpdate := by
  intro s t b h hne
  obtain rfl | ⟨hturn, he⟩ | ⟨c, he⟩ | ⟨slot, rest, hi, hw, hstep, he⟩ := step_next h
  · exact absurd rfl hne
  · obtain hb | ⟨rfl, hs, hb⟩ := hostStep_bank he b
    · exact absurd (by rw [hb]) hne
    · exact .inl ⟨rfl, congrArg BankState.status hb, hs, .inl hturn⟩
  · exact absurd (by rw [rendererStep_bank he b]) hne
  rw [← takeSlot_bank s slot rest b] at hne
  obtain ⟨w, i, ha, hd, he⟩ | ⟨_, e, -, rfl⟩ | ⟨w, i, -, hd, he⟩ | ⟨ha, he⟩ | ⟨c, -, he⟩ | ⟨ha, rfl⟩ := perform_next he
  · obtain hb | ⟨hi', -⟩ | ⟨-, hb⟩ := exec_bank he b
    · exact absurd (by rw [hb]) hne
    · refine .inr ⟨slot, rest, hi, .inr ⟨w, ha, waitsFor_command (s := s) (w := w) (ha ▸ hw), ?_⟩⟩
      obtain ⟨c, st, rfl⟩ | ⟨rfl, rfl⟩ := hi'
      · exact .inr ⟨c, st, hd⟩
      · exact .inl ⟨hd, rfl⟩
    · exact absurd (by rw [hb]) hne
  · exact absurd (by simp [State.raise]) hne
  · obtain hb | ⟨⟨c, st, rfl⟩ | ⟨rfl, -⟩, -⟩ | ⟨-, hb⟩ := exec_bank he b
    · exact absurd (by rw [hb]) hne
    · cases decodeStimulus_port hd
    · cases decodeStimulus_port hd
    · exact absurd (by rw [hb]) hne
  · obtain hb | ⟨rfl, hs, hb⟩ := hostStep_bank he b
    · exact absurd (by rw [hb]) hne
    · exact .inl ⟨rfl, congrArg BankState.status hb, hs, .inr ⟨slot, rest, hi, ha, by rw [hstep, ha]; rfl⟩⟩
  · exact absurd (by rw [rendererStep_bank he b]) hne
  · exact .inr ⟨slot, rest, hi, .inl ha⟩

/-- Settles O54: of the turns and instructions TICK alone writes a phase. -/
theorem phaseChangesOnlyByTick : Obligations.PhaseChangesOnlyByTick := by
  intro s t b h hne
  obtain rfl | ⟨-, he⟩ | ⟨c, he⟩ | ⟨slot, rest, hi, -, -, he⟩ := step_next h
  · exact absurd rfl hne
  · obtain hb | ⟨-, -, hb⟩ := hostStep_bank he b <;> exact absurd (by rw [hb]) hne
  · exact absurd (by rw [rendererStep_bank he b]) hne
  rw [← takeSlot_bank s slot rest b] at hne ⊢
  obtain ⟨w, i, -, hd, he⟩ | ⟨_, e, -, rfl⟩ | ⟨w, i, ha, hd, he⟩ | ⟨-, he⟩ | ⟨c, -, he⟩ | ⟨ha, rfl⟩ := perform_next he
  · obtain hb | ⟨-, hb⟩ | ⟨rfl, -⟩ := exec_bank he b
    · exact absurd (by rw [hb]) hne
    · exact absurd (by rw [hb]) hne
    · cases decodeCommand_port hd
  · exact absurd (by simp [State.raise]) hne
  · obtain hb | ⟨-, hb⟩ | ⟨rfl, hb⟩ := exec_bank he b
    · exact absurd (by rw [hb]) hne
    · exact absurd (by rw [hb]) hne
    · exact ⟨slot, rest, hi, .inr ⟨w, ha, hd, by rw [hb, BitVec.toNat_add]; rfl⟩⟩
  · obtain hb | ⟨-, -, hb⟩ := hostStep_bank he b <;> exact absurd (by rw [hb]) hne
  · exact absurd (by rw [rendererStep_bank he b]) hne
  · exact ⟨slot, rest, hi, .inl ha⟩

/-- Settles O46: the lists hold their reset value on every channel, and no expander register is listed. -/
theorem resetValues : Obligations.ResetValues := by
  intro k
  refine ⟨fun c hc => ?_, fun c hc => ?_, fun b => ?_, fun c hc => ?_, rfl, rfl, fun p => by cases p <;> rfl, rfl, rfl,
    fun r => rfl⟩
  · exact List.getElem?_replicate_of_lt hc
  · exact List.getElem?_replicate_of_lt hc
  · rw [bank_resetWith]
    exact ⟨rfl, rfl, rfl⟩
  · exact List.getElem?_replicate_of_lt hc

end Sys2Proof.Machine

namespace Sys2Proof.Machine

/-! ### A failed transaction (R43, R44) -/

/-- A failed write leaves its register with the written value if the draw says that it landed, else with the old one. -/
theorem busWrite_fail_exp {r : ExpReg} {v : Byte} {s : State} (h : s.nextDraw.ok = false) :
    (busWrite r v s).1.exp r = if s.nextDraw.landed then v else s.exp r := by
  rw [busWrite_fail h]
  cases s.nextDraw.landed <;> simp

/-- Settles O15: the two outcomes of a failed write by the draw, and the frames of a write and of a read. -/
theorem failedTransactionEffects : Obligations.FailedTransactionEffects := by
  intro s r v h
  have hwrite : (busWrite r v s).2 = some { reg := s.addr r, dir := .write } := by rw [busWrite_fail h]
  have hread : (busRead r s).2 = .error { reg := s.addr r, dir := .read } := by rw [busRead_fail h]
  exact ⟨hwrite, busWrite_fail_exp h, busWrite_onlyRegister r v s, hread, busRead_mem r s⟩

/-! ### Every agent and every instruction keeps the memory canonical (R42) -/

theorem rendererStep_mem_wf {s t : State} {b : Bank} (hm : Memory.wf s.mem = true) (h : rendererStep b s = .next t) :
    Memory.wf t.mem = true := by
  obtain ⟨-, rfl⟩ | ⟨r, c, rest, -, -, ⟨rfl, -⟩ | ⟨-, -, -, l, -, rfl⟩⟩ := rendererStep_next h
  · exact hm
  · rwa [setBank_mem]
  · rw [setBank_mem]
    exact applyBit_mem_wf _ _ _ s hm

theorem hostStep_mem_wf {s t : State} (hm : Memory.wf s.mem = true) (h : hostStep s = .next t) :
    Memory.wf t.mem = true := by
  obtain ⟨-, rfl⟩ | ⟨b, masks, -, hf⟩ | ⟨err, -, -, rfl⟩ | ⟨err, -, rfl⟩ := hostStep_next h
  · exact hm
  · obtain ⟨-, ⟨m, rest, -, -, rfl⟩ | ⟨m, e, -, -, -, rfl⟩⟩ := flashStep_next hf
    · exact applyMask_mem_wf b m s hm
    · simpa [endFlash] using applyMask_mem_wf b m s hm
  · simpa using hm
  · simpa using hm

theorem exec_mem_wf {s t : State} {i : Instr} (hm : Memory.wf s.mem = true) (h : exec i s = .next t) :
    Memory.wf t.mem = true := by
  cases i with
  | init =>
    obtain ⟨e, rfl⟩ | ⟨-, rfl⟩ := execInit_next h
    · exact hm
    · have hw := busWrites_mem_wf initWrites s hm
      cases (busWrites initWrites s).2 <;> exact hw
  | wrout m =>
    obtain ⟨e, rfl⟩ | ⟨-, -, -, rfl⟩ := execWrout_next h
    · exact hm
    · rw [finish_mem]
      exact busWrite_mem_wf _ _ s hm
  | rdin =>
    obtain ⟨e, rfl⟩ | ⟨-, -, rfl⟩ := execRdin_next h
    · exact hm
    · have hr : Memory.wf (busRead .gpioB s).1.mem = true := by rwa [busRead_mem]
      rw [finishRead]
      split <;> exact hr
  | update b c st =>
    obtain ⟨e, rfl⟩ | ⟨-, -, ⟨n, lvl, -, -, -, -, rfl⟩ | ⟨n, -, -, -, rfl⟩ | ⟨m, -, -, -, rfl⟩⟩ := execUpdate_next h
    · exact hm
    · rw [finish_mem, setBank_mem]
      exact applyBit_mem_wf b n.toNat lvl s hm
    · rwa [respond_mem, setBank_mem]
    · rw [finish_mem, setBank_mem]
      exact applyMask_mem_wf b m s hm
  | flash b md =>
    obtain ⟨e, rfl⟩ | ⟨-, -, rfl⟩ := execFlash_next h
    · exact hm
    · rwa [setHost_mem, setFlashActive_mem]
  | pollev => obtain ⟨e, rfl⟩ | rfl | ⟨e, rest, -, rfl⟩ := execPollev_next h <;> exact hm
  | shutdown =>
    obtain ⟨-, rfl⟩ | ⟨-, -, ⟨-, rfl⟩ | ⟨-, rfl⟩⟩ := execShutdown_next h
    · exact hm
    · exact busWrite_mem_wf _ _ s hm
    · exact hm
  | tick b =>
    obtain ⟨-, rfl⟩ | ⟨-, rfl⟩ := execTick_next h
    · exact hm
    · rwa [setBank_mem]
  | edge p k =>
    obtain rfl | ⟨-, ht, -, -⟩ := execEdge_next h
    · exact hm
    · rw [ht]
      exact hm

/-- Settles O50: an agent's turn and an instruction write registers by bus transactions only, and a reset keeps the memory. -/
theorem stepKeepsMemoryCanonical : Obligations.StepKeepsMemoryCanonical := by
  intro s t hm h
  obtain rfl | ⟨-, he⟩ | ⟨b, he⟩ | ⟨slot, rest, -, -, -, he⟩ := step_next h
  · exact hm
  · exact hostStep_mem_wf hm he
  · exact rendererStep_mem_wf hm he
  have hu : Memory.wf (s.takeSlot slot rest).mem = true := hm
  obtain ⟨w, i, -, -, he⟩ | ⟨_, e, -, rfl⟩ | ⟨w, i, -, -, he⟩ | ⟨-, he⟩ | ⟨b, -, he⟩ | ⟨-, rfl⟩ := perform_next he
  · exact exec_mem_wf hu he
  · exact hu
  · exact exec_mem_wf hu he
  · exact hostStep_mem_wf hu he
  · exact rendererStep_mem_wf hu he
  · exact hu

end Sys2Proof.Machine

namespace Sys2Proof

/-! ### A word cut at a bit: fields side by side are the fields of the whole -/

/-- A slice is two bit strings side by side when each is its own part of the slice. -/
theorem extractLsb'_eq_append_iff {k n m : Nat} (w : BitVec k) (start : Nat) (hi : BitVec n) (lo : BitVec m) :
    w.extractLsb' start (n + m) = hi ++ lo ↔ w.extractLsb' (start + m) n = hi ∧ w.extractLsb' start m = lo := by
  rw [← BitVec.extractLsb'_append_extractLsb'_eq_extractLsb' (start₂ := start + m) rfl]
  refine ⟨fun h => ⟨?_, ?_⟩, fun ⟨hhi, hlo⟩ => by rw [hhi, hlo]⟩
  · simpa only [BitVec.extractLsb'_append_eq_left] using congrArg (BitVec.extractLsb' m n) h
  · simpa only [BitVec.extractLsb'_append_eq_right] using congrArg (BitVec.extractLsb' 0 m) h

/-- A word is two bit strings side by side when each is its own part of the word. -/
theorem append_eq_iff {n m : Nat} (w : BitVec (n + m)) (hi : BitVec n) (lo : BitVec m) :
    hi ++ lo = w ↔ w.extractLsb' m n = hi ∧ w.extractLsb' 0 m = lo := by
  rw [eq_comm]
  simpa [BitVec.extractLsb'_eq_self] using extractLsb'_eq_append_iff w 0 hi lo

/-- One bit of a word is the slice of width one at it. -/
theorem getLsbD_eq_slice (w : Word) (i : Nat) : w.getLsbD i = (w.extractLsb' i 1).getLsbD 0 := by
  simp

/-- A slice as a number. -/
theorem toNat_extractLsb'_eq_div (w : Word) (start n : Nat) :
    (w.extractLsb' start n).toNat = w.toNat / 2 ^ start % 2 ^ n := by
  rw [BitVec.extractLsb'_toNat, Nat.shiftRight_eq_div_pow]

/-! ### What each field holds is what its code spells (R60 to R62) -/

theorem extractLsb'_eq_iff_opField (w : Word) (op : BitVec 4) : w.extractLsb' 12 4 = op ↔ opField w = op.toNat :=
  BitVec.toNat_inj.symm

theorem bankField_eq_iff (w : Word) (b : Bank) : bankField w = b ↔ w.extractLsb' 11 1 = b.code := by
  rw [bankField, getLsbD_eq_slice]
  generalize w.extractLsb' 11 1 = v
  revert v
  cases b <;> decide

theorem edgeField_eq_iff (w : Word) (k : EdgeKind) : edgeField w = k ↔ w.extractLsb' 2 1 = k.code := by
  rw [edgeField, getLsbD_eq_slice]
  generalize w.extractLsb' 2 1 = v
  revert v
  cases k <;> decide

theorem statusField_eq_some_iff (w : Word) (st : Status) : statusField w = some st ↔ w.extractLsb' 8 3 = st.code := by
  rw [statusField]
  generalize w.extractLsb' 8 3 = v
  revert v
  rcases st with _ | _ | (_ | _ | _) <;> decide

theorem modeField_eq_some_iff (w : Word) (md : FlashMode) : modeField w = some md ↔ w.extractLsb' 0 2 = md.code := by
  rw [modeField]
  generalize w.extractLsb' 0 2 = v
  revert v
  cases md <;> decide

theorem lineField_eq_iff (w : Word) (p : Line) : lineField w = p ↔ w.extractLsb' 0 2 = p.code := by
  rw [lineField]
  generalize w.extractLsb' 0 2 = v
  revert v
  cases p <;> decide

/-- The number 0xFF is ALL and no channel, so what the channel field holds is a well-formed target (R61). -/
theorem targetField_eq_iff (w : Word) (c : Target) :
    targetField w = c ↔ w.extractLsb' 0 8 = c.code ∧ c.wf = true := by
  rw [targetField]
  generalize w.extractLsb' 0 8 = v
  by_cases hv : v = 0xFF#8
  · cases c with
    | all => simp [hv, Target.code, Target.wf]
    | chan n => simpa [hv, Target.code, Target.wf] using fun h => Eq.symm h
  · cases c with
    | all => simp [hv, Target.code]
    | chan n => simpa [hv, Target.code, Target.wf] using fun h : v = n => h ▸ hv

/-- A format with reserved bits gives its instruction exactly when they are 0. -/
theorem reservedZero_eq_ok_iff {n : Nat} (bits : BitVec n) (i j : Instr) :
    reservedZero bits i = .ok j ↔ bits = 0#n ∧ i = j := by
  unfold reservedZero
  split <;> simp [*]

/-! ### The format of each instruction, field by field (R60, R61) -/

/-- The fields of `w` spell the instruction: its opcode, the reserved bits of its format 0, and each operand in its own field, from
high to low. -/
def Instr.SpelledBy (w : Word) : Instr → Prop
  | .init => opField w = 0x1 ∧ w.extractLsb' 0 12 = 0#12
  | .wrout m => opField w = 0x2 ∧ w.extractLsb' 8 4 = 0#4 ∧ w.extractLsb' 0 8 = m
  | .rdin => opField w = 0x3 ∧ w.extractLsb' 0 12 = 0#12
  | .update b c st => opField w = 0x4 ∧ bankField w = b ∧ statusField w = some st ∧ targetField w = c
  | .flash b md => opField w = 0x5 ∧ bankField w = b ∧ w.extractLsb' 2 9 = 0#9 ∧ modeField w = some md
  | .pollev => opField w = 0x6 ∧ w.extractLsb' 0 12 = 0#12
  | .shutdown => opField w = 0x7 ∧ w.extractLsb' 0 12 = 0#12
  | .tick b => opField w = 0xE ∧ bankField w = b ∧ w.extractLsb' 0 11 = 0#11
  | .edge p k => opField w = 0xF ∧ w.extractLsb' 3 9 = 0#9 ∧ edgeField w = k ∧ lineField w = p

/-- The encoder writes exactly the words whose fields spell the instruction (R60 to R62, R67): cut `encode i` at its fields. -/
theorem spelledBy_iff (w : Word) (i : Instr) : i.SpelledBy w ↔ encode i = w ∧ i.wf = true := by
  cases i <;> rw [encode, append_eq_iff] <;>
    simp [Instr.SpelledBy, ↓extractLsb'_eq_append_iff, extractLsb'_eq_iff_opField, bankField_eq_iff, statusField_eq_some_iff,
      modeField_eq_some_iff, targetField_eq_iff, edgeField_eq_iff, lineField_eq_iff, Instr.wf, and_assoc]

/-- The command port's decoder answers the command whose fields the word holds, and nothing else (R64, R66). -/
theorem decodeCommand_eq_ok_iff (w : Word) (i : Instr) :
    decodeCommand w = .ok i ↔ i.SpelledBy w ∧ i.port = .command := by
  refine ⟨fun h => ⟨?_, Machine.decodeCommand_port h⟩, fun ⟨h, hp⟩ => ?_⟩
  · unfold decodeCommand at h
    split at h
    case h_2 hop =>
      obtain ⟨hr, rfl⟩ := (reservedZero_eq_ok_iff ..).1 h
      exact ⟨hop, hr, rfl⟩
    case h_4 hop =>
      split at h <;> cases h
      exact ⟨hop, rfl, ‹_›, rfl⟩
    case h_5 hop =>
      split at h
      · obtain ⟨hr, rfl⟩ := (reservedZero_eq_ok_iff ..).1 h
        exact ⟨hop, rfl, hr, ‹_›⟩
      · cases h
    case h_8 | h_9 | h_10 => cases h
    all_goals
      next hop =>
        obtain ⟨hr, rfl⟩ := (reservedZero_eq_ok_iff ..).1 h
        exact ⟨hop, hr⟩
  · cases i <;> simp only [Instr.SpelledBy, reduceCtorEq, Instr.port] at h hp <;>
      simp [decodeCommand, h, reservedZero]

/-- The stimulus port's decoder answers the stimulus whose fields the word holds, and nothing else (R65, R66). -/
theorem decodeStimulus_eq_ok_iff (w : Word) (i : Instr) :
    decodeStimulus w = .ok i ↔ i.SpelledBy w ∧ i.port = .stimulus := by
  refine ⟨fun h => ⟨?_, Machine.decodeStimulus_port h⟩, fun ⟨h, hp⟩ => ?_⟩
  · unfold decodeStimulus at h
    split at h
    case h_1 hop =>
      obtain ⟨hr, rfl⟩ := (reservedZero_eq_ok_iff ..).1 h
      exact ⟨hop, rfl, hr⟩
    case h_2 hop =>
      obtain ⟨hr, rfl⟩ := (reservedZero_eq_ok_iff ..).1 h
      exact ⟨hop, hr, rfl, rfl⟩
    all_goals cases h
  · cases i <;> simp only [Instr.SpelledBy, reduceCtorEq, Instr.port] at h hp <;>
      simp [decodeStimulus, h, reservedZero]

/-- Decoder and encoder agree on every word and every instruction (R60 to R67). -/
theorem decode_eq_ok_iff (p : Port) (w : Word) (i : Instr) :
    decode p w = .ok i ↔ encode i = w ∧ i.wf = true ∧ i.port = p := by
  rw [← and_assoc, ← spelledBy_iff]
  cases p with
  | command => exact decodeCommand_eq_ok_iff w i
  | stimulus => exact decodeStimulus_eq_ok_iff w i

/-- Settles O2: `decode_eq_ok_iff` at the instruction's own word. -/
theorem decodeEncodeRoundTrip : Obligations.DecodeEncodeRoundTrip :=
  fun i hwf => (decode_eq_ok_iff i.port (encode i) i).2 ⟨rfl, hwf, rfl⟩

/-- Settles O3: `decode_eq_ok_iff` read from left to right. -/
theorem decodedWordIsItsEncoding : Obligations.DecodedWordIsItsEncoding :=
  fun p w i => (decode_eq_ok_iff p w i).1

/-! ### The opcode map (R63) -/

/-- The bits of the opcode. -/
def opcodeMask : Word := 0xF000#16

/-- Every row's mask covers the opcode, so a word that matches a row has the opcode of the row's pattern. -/
theorem opcode_of_accepts {w : Word} {r : OpcodeRow} (hr : r ∈ opcodeTable) (h : r.accepts w = true) :
    w &&& opcodeMask = r.pattern &&& opcodeMask := by
  have hmask : ∀ r ∈ opcodeTable, r.mask &&& opcodeMask = opcodeMask := by decide
  have hw : w &&& r.mask = r.pattern := by simpa [OpcodeRow.accepts] using h
  rw [← hw, BitVec.and_assoc, hmask r hr]

/-- No two rows share an opcode, so no word matches two rows. -/
theorem row_eq_of_accepts {w : Word} {r q : OpcodeRow} (hr : r ∈ opcodeTable) (hq : q ∈ opcodeTable)
    (hrw : r.accepts w = true) (hqw : q.accepts w = true) : r = q := by
  have hop : ∀ r ∈ opcodeTable, ∀ q ∈ opcodeTable,
      r.pattern &&& opcodeMask = q.pattern &&& opcodeMask → r = q := by decide
  exact hop r hr q hq ((opcode_of_accepts hr hrw).symm.trans (opcode_of_accepts hq hqw))

/-- The encoding of every instruction matches the instruction's row of the opcode map. -/
theorem tableRow_statement : ∀ i : Instr, Laws.TableRow.Statement i
  | .init => Laws.TableRow.init
  | .wrout m => Laws.TableRow.wrout m
  | .rdin => Laws.TableRow.rdin
  | .update b c st => Laws.TableRow.update b c st
  | .flash b md => Laws.TableRow.flash b md
  | .pollev => Laws.TableRow.pollev
  | .shutdown => Laws.TableRow.shutdown
  | .tick b => Laws.TableRow.tick b
  | .edge p k => Laws.TableRow.edge p k

/-- A word that decodes matches the row of what it decodes to, a row of the port it came on. -/
theorem row_of_decode {p : Port} {w : Word} {i : Instr} (h : decode p w = .ok i) :
    i.row ∈ opcodeTable ∧ i.row.accepts w = true ∧ i.row.port = p := by
  obtain ⟨rfl, -, rfl⟩ := (decode_eq_ok_iff p w i).1 h
  obtain ⟨hmem, hport, hacc⟩ := tableRow_statement i
  exact ⟨hmem, hacc, hport⟩

/-- Settles O4: a word taken by both ports would match a row of each, and it matches one row only. -/
theorem wordMatchesAtMostOneRow : Obligations.WordMatchesAtMostOneRow := by
  refine ⟨fun p w => ?_, fun w i j hi hj => ?_, fun w r q => row_eq_of_accepts, fun p w i h => (row_of_decode h).2⟩
  · cases decode p w with
    | ok i => exact .inl ⟨i, rfl⟩
    | error r => exact .inr ⟨r, rfl⟩
  · obtain ⟨hci, hwi, hpi⟩ := row_of_decode hi
    obtain ⟨hcj, hwj, hpj⟩ := row_of_decode hj
    have hrow : i.row = j.row := row_eq_of_accepts hci hcj hwi hwj
    cases hpi.symm.trans ((congrArg OpcodeRow.port hrow).trans hpj)

/-! ### The rejected words in numbers (R64, R65) -/

theorem opField_eq_div (w : Word) : opField w = w.toNat / 4096 := by
  have hw := w.isLt
  rw [opField, toNat_extractLsb'_eq_div]
  omega

/-- A format with reserved bits rejects a word exactly when one of them is 1. -/
theorem reservedZero_rejects_iff (w : Word) (start n : Nat) (j : Instr) :
    (∀ i, reservedZero (w.extractLsb' start n) j ≠ .ok i) ↔ w.toNat / 2 ^ start % 2 ^ n ≠ 0 := by
  have hzero : w.extractLsb' start n = 0#n ↔ w.toNat / 2 ^ start % 2 ^ n = 0 := by
    rw [← BitVec.toNat_inj, toNat_extractLsb'_eq_div, BitVec.toNat_ofNat, Nat.zero_mod]
  simp [reservedZero_eq_ok_iff, hzero]

theorem statusField_eq_none_iff (w : Word) : statusField w = none ↔ 5 ≤ w.toNat / 256 % 8 := by
  rw [statusField, ← show (w.extractLsb' 8 3).toNat = w.toNat / 256 % 8 from toNat_extractLsb'_eq_div w 8 3]
  generalize w.extractLsb' 8 3 = v
  revert v
  decide

theorem modeField_eq_none_iff (w : Word) : modeField w = none ↔ 2 ≤ w.toNat % 4 := by
  rw [modeField, ← show (w.extractLsb' 0 2).toNat = w.toNat % 4 by simp]
  generalize w.extractLsb' 0 2 = v
  revert v
  decide

/-- The words the command port rejects (R64), opcode by opcode. -/
theorem decodeCommand_rejects_iff (w : Word) :
    (∀ i, decodeCommand w ≠ .ok i) ↔
      w.toNat / 4096 = 0 ∨ 8 ≤ w.toNat / 4096 ∨
        ((w.toNat / 4096 = 1 ∨ w.toNat / 4096 = 3 ∨ w.toNat / 4096 = 6 ∨ w.toNat / 4096 = 7) ∧ w.toNat % 4096 ≠ 0) ∨
        (w.toNat / 4096 = 2 ∧ w.toNat / 256 % 16 ≠ 0) ∨
        (w.toNat / 4096 = 5 ∧ w.toNat / 4 % 512 ≠ 0) ∨
        (w.toNat / 4096 = 4 ∧ 5 ≤ w.toNat / 256 % 8) ∨
        (w.toNat / 4096 = 5 ∧ 2 ≤ w.toNat % 4) := by
  have hop := opField_eq_div w
  unfold decodeCommand
  split
  case h_1 | h_2 | h_3 | h_6 | h_7 =>
    rw [reservedZero_rejects_iff]
    omega
  case h_4 =>
    cases hs : statusField w with
    | none =>
      refine iff_of_true nofun ?_
      have hhigh := (statusField_eq_none_iff w).1 hs
      omega
    | some st =>
      have hlow : ¬ 5 ≤ w.toNat / 256 % 8 := fun h => by simp [(statusField_eq_none_iff w).2 h] at hs
      refine iff_of_false (fun h => h _ rfl) ?_
      omega
  case h_5 =>
    cases hm : modeField w with
    | none =>
      refine iff_of_true nofun ?_
      have hhigh := (modeField_eq_none_iff w).1 hm
      omega
    | some md =>
      have hlow : ¬ 2 ≤ w.toNat % 4 := fun h => by simp [(modeField_eq_none_iff w).2 h] at hm
      rw [reservedZero_rejects_iff]
      omega
  case h_8 | h_9 | h_10 =>
    simp only [imp_false, hop] at *
    have hunused : w.toNat / 4096 = 0 ∨ 8 ≤ w.toNat / 4096 := by omega
    exact iff_of_true nofun (hunused.imp_right .inl)

/-- The words the stimulus port rejects (R65), opcode by opcode. -/
theorem decodeStimulus_rejects_iff (w : Word) :
    (∀ i, decodeStimulus w ≠ .ok i) ↔
      w.toNat / 4096 < 14 ∨ (w.toNat / 4096 = 14 ∧ w.toNat % 2048 ≠ 0) ∨
        (w.toNat / 4096 = 15 ∧ w.toNat / 8 % 512 ≠ 0) := by
  have hop := opField_eq_div w
  have hw := w.isLt
  unfold decodeStimulus
  split
  case h_1 | h_2 =>
    rw [reservedZero_rejects_iff]
    omega
  all_goals
    simp only [imp_false, hop] at *
    refine iff_of_true nofun ?_
    omega

end Sys2Proof

namespace Sys2Proof.Machine

/-- Settles O5: `decodeCommand_rejects_iff`, and a word with no instruction is answered by the error response. -/
theorem illegalCommandWords : Obligations.IllegalCommandWords := by
  refine fun w => ⟨decodeCommand_rejects_iff w, fun h s => ?_⟩
  obtain ⟨i, hi, -⟩ | ⟨-, hrun⟩ := runCommand_cases w s
  · exact absurd hi (h i)
  · exact hrun

/-- Settles O6: `decodeStimulus_rejects_iff`, and a word with no instruction is refused. -/
theorem illegalStimulusWords : Obligations.IllegalStimulusWords := by
  refine fun w => ⟨decodeStimulus_rejects_iff w, fun h s => ?_⟩
  obtain ⟨i, hi, -⟩ | ⟨-, hrun⟩ := runStimulus_cases w s
  · exact absurd hi (h i)
  · exact hrun

/-! ### A placed word (R59; log 5) -/

/-- With no agent inside an operation nothing waits. -/
theorem waitsFor_idle {s : State} (hh : s.host = none) (hx : s.bankX.pass = []) (hd : s.bankD.pass = []) (a : Activity) :
    s.waitsFor a = none := by
  cases hw : s.waitsFor a with
  | none => rfl
  | some g =>
    obtain ⟨w, op, -, hop, -⟩ | ⟨w, b, -, -, hp, -⟩ := waitsFor_some hw
    · cases hh.symm.trans hop
    · cases b
      · exact absurd hx hp
      · exact absurd hd hp

/-- A legal word is run at the port that holds its opcode. -/
theorem perform_portActivity {w : Word} {i : Instr} (h : decode (portOf w) w = .ok i) (s : State) :
    perform (portActivity w) s = exec i s := by
  unfold portActivity
  cases hp : portOf w <;> rw [hp, decode] at h
  · simp only [perform, runCommand, h]
  · simp only [perform, runStimulus, h]

/-- With nothing to wait for, `withFetchWord` only puts the word's entry first on the schedule. -/
theorem withFetchWord_idle {s : State} (hidle : ∀ a, s.waitsFor a = none) (w : Word) :
    s.withFetchWord 16 w.toNat = { s with inputs := s.wordSlot w :: s.inputs } := by
  have hw : BitVec.ofNat 16 (w.toNat % 2 ^ 16) = w := by
    rw [Nat.mod_eq_of_lt w.isLt, BitVec.ofNat_toNat, BitVec.setWidth_eq]
  simp only [State.withFetchWord, hw, hidle, State.released]

/-- An entry that waits for no agent is taken up. -/
theorem step_of_waitsFor_none {s : State} {slot : Slot} {rest : List Slot} (hi : s.inputs = slot :: rest)
    (hw : s.waitsFor slot.activity = none) : step s = perform slot.activity (s.takeSlot slot rest) := by
  simp [step, hi, runSlot, hw]

/-- Settles O9: the entry is first, waits for no agent, and takes no time. -/
theorem fetchedWordRunsNext : Obligations.FetchedWordRunsNext := by
  intro s w i hh hx hd hdec
  rw [withFetchWord_idle (waitsFor_idle hh hx hd)]
  calc step { s with inputs := s.wordSlot w :: s.inputs }
      = perform (portActivity w) s :=
        step_of_waitsFor_none (slot := s.wordSlot w) (rest := s.inputs) rfl (waitsFor_idle hh hx hd _)
    _ = exec i s := perform_portActivity hdec s

end Sys2Proof.Machine

namespace Sys2Proof.Machine

/-! ### Frames of a command that ends after bus transactions -/

/-- The frame of transactions that leave the direct pins alone. -/
theorem OnlyLevels.onlyBus {s t : State} (h : OnlyLevels s t) (hd : t.dout = s.dout) : OnlyBus s t := by
  unfold OnlyLevels at h
  rw [hd] at h
  rw [h]
  rfl

theorem OnlyBus.trans {s t u : State} (h : OnlyBus s t) (k : OnlyBus t u) : OnlyBus s u := by
  unfold OnlyBus at *
  rw [h] at k
  exact k

theorem OnlyBus.respond {s t : State} (h : OnlyBus s t) (r : Response) : OnlyBus s (t.respond r) := by
  rw [h]
  rfl

theorem OnlyBus.setInitialized {s t : State} (h : OnlyBus s t) (v : Bool) :
    OnlyBus { s with initialized := v } (t.setInitialized v) := by
  rw [h]
  rfl

theorem busRead_onlyBus (r : ExpReg) (s : State) : OnlyBus s (busRead r s).1 :=
  (busRead_onlyLevels r s).onlyBus (busRead_dout r s)

theorem busWrite_onlyBus (r : ExpReg) (v : Byte) (s : State) : OnlyBus s (busWrite r v s).1 :=
  (busWrite_onlyLevels r v s).onlyBus (busWrite_dout r v s)

theorem busWrites_onlyBus (l : List (ExpReg × Byte)) (s : State) : OnlyBus s (busWrites l s).1 :=
  (busWrites_onlyLevels l s).onlyBus (busWrites_dout l s)

theorem OnlyBus.cfg {s t : State} (h : OnlyBus s t) : t.cfg = s.cfg := by rw [h]

theorem OnlyBus.addr {s t : State} (h : OnlyBus s t) (r : ExpReg) : t.addr r = s.addr r := by
  rw [State.addr, h.cfg, State.addr]

@[simp] theorem busRead_responses (r : ExpReg) (s : State) : (busRead r s).1.responses = s.responses := by
  rw [busRead_onlyLevels r s]

@[simp] theorem busWrite_responses (r : ExpReg) (v : Byte) (s : State) : (busWrite r v s).1.responses = s.responses := by
  rw [busWrite_onlyLevels r v s]

@[simp] theorem busWrites_responses (l : List (ExpReg × Byte)) (s : State) :
    (busWrites l s).1.responses = s.responses := by
  rw [busWrites_onlyLevels l s]

/-! ### WROUT and RDIN (R74 to R76) -/

/-- Settles O13: one write to the latch, which succeeds. -/
theorem wroutWritesLatch : Obligations.WroutWritesLatch := by
  intro s m hh hi hl hgood
  have hok : s.nextDraw.ok = true := hgood 0 (by omega)
  have hw := busWrite_ok (r := .olatA) (v := m) hok
  have hrun : exec (.wrout m) s = .next ((busWrite .olatA m s).1.respond .done) := by
    rw [execWrout_run hh hi hl, hw]
    rfl
  refine ⟨_, hrun, ?latch, busWrite_onlyRegister _ _ _, ?trace, ?response, (busWrite_onlyBus _ _ _).respond _⟩
  case latch => simp [hw]
  case trace => simp [hw]
  case response => simp [Response.done]

/-- Settles O14: one read of the input register, which succeeds and returns the draw. -/
theorem rdinReturnsPortB : Obligations.RdinReturnsPortB := by
  intro s hh hi hgood
  have hok : s.nextDraw.ok = true := hgood 0 (by omega)
  have hr := busRead_ok (r := .gpioB) hok
  have hrun : exec .rdin s = .next ((busRead .gpioB s).1.respond (.withData s.nextDraw.portB)) := by
    rw [execRdin_run hh hi, hr]
    rfl
  refine ⟨_, hrun, busRead_mem _ _, ?trace, ?response, (busRead_onlyBus _ _).respond _⟩
  case trace => simp [hr, State.readValue]
  case response => simp [Response.withData]

/-- Settles O16: a failed transaction is the command's response, and its effects are those of the transaction alone. -/
theorem busErrorGoesToCaller : Obligations.BusErrorGoesToCaller := by
  intro s hh hi hfail
  constructor
  · intro m hl
    have hrun : exec (.wrout m) s =
        .next ((busWrite .olatA m s).1.raise (.busError { reg := s.addr .olatA, dir := .write })) := by
      rw [execWrout_run hh hi hl, busWrite_fail hfail]
      rfl
    refine ⟨_, hrun, busWrite_fail_exp hfail, busWrite_onlyRegister _ _ _, ?_, (busWrite_onlyBus _ _ _).respond _⟩
    simp [State.raise, ErrorResult.response]
  · have hrun : exec .rdin s =
        .next ((busRead .gpioB s).1.raise (.busError { reg := s.addr .gpioB, dir := .read })) := by
      rw [execRdin_run hh hi, busRead_fail hfail]
      rfl
    refine ⟨_, hrun, busRead_mem _ _, ?_, (busRead_onlyBus _ _).respond _⟩
    simp [State.raise, ErrorResult.response]

/-! ### Lists of register writes (R71, R73) -/

/-- Past a write that succeeds, the list goes on with the rest. -/
theorem busWrites_cons_ok {r : ExpReg} {v : Byte} {rest : List (ExpReg × Byte)} {s : State} (h : s.nextDraw.ok = true) :
    busWrites ((r, v) :: rest) s = busWrites rest (busWrite r v s).1 := by
  rw [busWrites, busWrite_ok h]

/-- A write that fails ends the list. -/
theorem busWrites_cons_fail {r : ExpReg} {v : Byte} {rest : List (ExpReg × Byte)} {s : State}
    (h : s.nextDraw.ok = false) : busWrites ((r, v) :: rest) s = busWrite r v s := by
  rw [busWrites, busWrite_fail h]

/-- A write uses up one draw, whether it succeeds or not. -/
theorem busWrite_draws (r : ExpReg) (v : Byte) (s : State) :
    (busWrite r v s).1.draws = s.dropDraw.draws ∧ (busWrite r v s).1.drawCount = s.dropDraw.drawCount := by
  cases hok : s.nextDraw.ok
  · rw [busWrite_fail hok]
    cases s.nextDraw.landed <;> exact ⟨rfl, rfl⟩
  · rw [busWrite_ok hok]
    exact ⟨rfl, rfl⟩

theorem busWrite_drawAt (r : ExpReg) (v : Byte) (s : State) (n : Nat) :
    (busWrite r v s).1.drawAt n = s.drawAt (n + 1) :=
  drawAt_congr (busWrite_draws r v s).1 (busWrite_draws r v s).2 n

theorem busWrite_busGood {r : ExpReg} {v : Byte} {s : State} {n : Nat} (h : s.BusGood (n + 1)) :
    (busWrite r v s).1.BusGood n :=
  h.drop (busWrite_draws r v s).1 (busWrite_draws r v s).2

/-- Writes that all succeed are followed by the rest of the list. -/
theorem busWrites_append {l rest : List (ExpReg × Byte)} {s : State} (h : s.BusGood l.length) :
    busWrites (l ++ rest) s = busWrites rest (busWrites l s).1 := by
  induction l generalizing s with
  | nil => rfl
  | cons p l ih =>
    have hok : s.nextDraw.ok = true := h 0 (Nat.zero_lt_succ _)
    rw [List.cons_append, busWrites_cons_ok hok, busWrites_cons_ok hok, ih (busWrite_busGood h)]

theorem busWrites_ok {l : List (ExpReg × Byte)} {s : State} (h : s.BusGood l.length) : (busWrites l s).2 = none := by
  have happ := busWrites_append (rest := []) h
  rw [List.append_nil] at happ
  rw [happ]
  rfl

theorem busWrites_drawAt {l : List (ExpReg × Byte)} {s : State} (h : s.BusGood l.length) (n : Nat) :
    (busWrites l s).1.drawAt n = s.drawAt (n + l.length) := by
  induction l generalizing s with
  | nil => rfl
  | cons p l ih =>
    have hok : s.nextDraw.ok = true := h 0 (Nat.zero_lt_succ _)
    rw [busWrites_cons_ok hok, ih (busWrite_busGood h), busWrite_drawAt]
    rfl

/-- The draw that decides the transaction after writes that all succeed. -/
theorem busWrites_nextDraw {l : List (ExpReg × Byte)} {s : State} (h : s.BusGood l.length) :
    (busWrites l s).1.nextDraw = s.drawAt l.length := by
  rw [← drawAt_zero, busWrites_drawAt h, Nat.zero_add]

/-- Writes that all succeed are seen at the wires in their order. -/
theorem busWrites_trace {l : List (ExpReg × Byte)} {s : State} (h : s.BusGood l.length) :
    (busWrites l s).1.trace = s.trace ++ l.map (fun p => .busWrite s.cfg.slaveAddr (s.addr p.1) p.2 true) := by
  induction l generalizing s with
  | nil => exact (List.append_nil _).symm
  | cons p l ih =>
    have hok : s.nextDraw.ok = true := h 0 (Nat.zero_lt_succ _)
    have hO := busWrite_onlyBus p.1 p.2 s
    have htrace : (busWrite p.1 p.2 s).1.trace =
        s.trace ++ [.busWrite s.cfg.slaveAddr (s.addr p.1) p.2 true] := by simp [busWrite_ok hok]
    rw [busWrites_cons_ok hok, ih (busWrite_busGood h), htrace]
    simp only [hO.addr, hO.cfg, List.append_assoc, List.map_cons, List.singleton_append]

/-- A register the list does not name keeps its byte. -/
theorem busWrites_exp_of_notMem {l : List (ExpReg × Byte)} {s : State} (hwf : s.cfg.wf) {r : ExpReg}
    (hr : r ∉ l.map Prod.fst) : (busWrites l s).1.exp r = s.exp r := by
  rw [State.exp, (busWrites_onlyBus l s).addr]
  refine busWrites_reach l s fun p hp => addr_toNat_ne hwf ?_
  rintro rfl
  exact hr (List.mem_map_of_mem hp)

/-- After writes that all succeed, to registers named once each, every register of the list holds its byte. -/
theorem busWrites_exp_of_mem {l : List (ExpReg × Byte)} {s : State} (hwf : s.cfg.wf) (hnd : (l.map Prod.fst).Nodup)
    (h : s.BusGood l.length) {p : ExpReg × Byte} (hp : p ∈ l) : (busWrites l s).1.exp p.1 = p.2 := by
  induction l generalizing s with
  | nil => cases hp
  | cons q l ih =>
    have hok : s.nextDraw.ok = true := h 0 (Nat.zero_lt_succ _)
    have hwf' : (busWrite q.1 q.2 s).1.cfg.wf := by rwa [(busWrite_onlyBus _ _ _).cfg]
    obtain ⟨hq, hnd'⟩ := List.nodup_cons.1 hnd
    rw [busWrites_cons_ok hok]
    rcases List.mem_cons.1 hp with rfl | hp
    · rw [busWrites_exp_of_notMem hwf' hq]
      simp [busWrite_ok hok]
    · exact ih hwf' hnd' (busWrite_busGood h) hp

theorem busWrite_exp_other {r q : ExpReg} {v : Byte} {s : State} (hwf : s.cfg.wf) (hrq : r ≠ q) :
    (busWrite q v s).1.exp r = s.exp r := by
  rw [State.exp, (busWrite_onlyBus _ _ _).addr]
  exact busWrite_onlyRegister q v s _ (addr_toNat_ne hwf hrq)

/-- A failed write is seen at the wires as failed. -/
theorem busWrite_fail_trace {r : ExpReg} {v : Byte} {s : State} (h : s.nextDraw.ok = false) :
    (busWrite r v s).1.trace = s.trace ++ [.busWrite s.cfg.slaveAddr (s.addr r) v false] := by
  rw [busWrite_fail h]
  cases s.nextDraw.landed <;> simp

/-- The failed write comes after those before it, and the list ends with it (R73). -/
theorem busWrites_stop {pre post : List (ExpReg × Byte)} {r : ExpReg} {v : Byte} {s : State}
    (hgood : s.BusGood pre.length) (hfail : (s.drawAt pre.length).ok = false) :
    busWrites (pre ++ (r, v) :: post) s = busWrite r v (busWrites pre s).1 := by
  rw [busWrites_append hgood, busWrites_cons_fail (by rwa [busWrites_nextDraw hgood])]

/-! ### INIT (R71 to R73) -/

theorem initWrites_nodup : (initWrites.map Prod.fst).Nodup := by decide

/-- INIT names four registers, so two entries at different places are of different registers. -/
theorem initWrites_reg_ne {i j : Nat} {p q : ExpReg × Byte} (hp : initWrites[i]? = some p) (hq : initWrites[j]? = some q)
    (hij : i ≠ j) : p.1 ≠ q.1 := by
  have hi : i < (initWrites.map Prod.fst).length := by simpa using (List.getElem?_eq_some_iff.1 hp).1
  intro he
  exact hij ((List.getElem?_inj hi initWrites_nodup).1 (by simp [hp, hq, he]))

/-- A register of INIT is not among those written before its turn. -/
theorem initWrites_notMem_take {k j : Nat} {p : ExpReg × Byte} (hp : initWrites[j]? = some p) (hkj : k ≤ j) :
    p.1 ∉ (initWrites.take k).map Prod.fst := by
  intro hm
  obtain ⟨q, hq, he⟩ := List.mem_map.1 hm
  obtain ⟨i, hi⟩ := List.mem_iff_getElem?.1 hq
  have hik : i < k := by
    by_contra hge
    rw [List.getElem?_take_eq_none (by omega)] at hi
    cases hi
  rw [List.getElem?_take_of_lt hik] at hi
  exact initWrites_reg_ne hi hp (by omega) he

/-- Settles O11: the four writes succeed, one after the other, and INIT ends with INITIALIZED and OK. -/
theorem initConfiguresExpander : Obligations.InitConfiguresExpander := by
  intro s hwf hh hgood
  have hrun : exec .init s = .next (((busWrites initWrites s).1.setInitialized true).respond .done) := by
    rw [execInit_run hh, busWrites_ok (l := initWrites) hgood]
    rfl
  have hexp {p : ExpReg × Byte} (hp : p ∈ initWrites) : (busWrites initWrites s).1.exp p.1 = p.2 :=
    busWrites_exp_of_mem hwf initWrites_nodup hgood hp
  refine ⟨_, hrun, rfl, hexp (p := (.iodirA, 0x00#8)) (by decide), hexp (p := (.iodirB, 0xFF#8)) (by decide),
    hexp (p := (.gppuB, 0xFF#8)) (by decide), hexp (p := (.gpintenB, 0x00#8)) (by decide), ?reach,
    busWrites_trace (l := initWrites) hgood, ?response, ((busWrites_onlyBus _ _).setInitialized true).respond _⟩
  case reach =>
    intro a hA hB hpu hint
    exact execInit_reach hrun (by simp [initWrites, hA, hB, hpu, hint])
  case response => simp [Response.done]

/-- INIT whose write number k is the first to fail: the writes before it, the failed one, and its error (R71, R73). -/
theorem execInit_stop {s : State} {k : Nat} {r : ExpReg} {v : Byte} (hh : s.halted = false)
    (hkth : initWrites[k]? = some (r, v)) (hgood : s.BusGood k) (hfail : (s.drawAt k).ok = false) :
    exec .init s = .next ((busWrite r v (busWrites (initWrites.take k) s).1).1.raise
      (.busError { reg := s.addr r, dir := .write })) := by
  obtain ⟨hk, hget⟩ := List.getElem?_eq_some_iff.1 hkth
  have hlen : (initWrites.take k).length = k := List.length_take_of_le (Nat.le_of_lt hk)
  have hsplit : initWrites = initWrites.take k ++ (r, v) :: initWrites.drop (k + 1) := by
    rw [← hget, ← List.drop_eq_getElem_cons hk, List.take_append_drop]
  have hpre : s.BusGood (initWrites.take k).length := by rwa [hlen]
  have hstop : busWrites initWrites s = busWrite r v (busWrites (initWrites.take k) s).1 := by
    conv_lhs => rw [hsplit]
    exact busWrites_stop hpre (by rwa [hlen])
  have hnext : (busWrites (initWrites.take k) s).1.nextDraw.ok = false := by
    rw [busWrites_nextDraw hpre, hlen, hfail]
  rw [execInit_run hh, hstop, busWrite_fail hnext, (busWrites_onlyBus _ s).addr]
  rfl

/-- Settles O12: INIT is its first k writes, which succeed, and write number k, which fails (`execInit_stop`). -/
theorem initStopsAtFailedWrite : Obligations.InitStopsAtFailedWrite := by
  intro s k hwf hh hk hgood hfail l
  have hl : l = initWrites := rfl
  clear_value l
  subst hl
  obtain ⟨⟨r, v⟩, hkth⟩ : ∃ p, initWrites[k]? = some p := ⟨_, List.getElem?_eq_getElem hk⟩
  have hlen : (initWrites.take k).length = k := List.length_take_of_le (Nat.le_of_lt hk)
  have hpre : s.BusGood (initWrites.take k).length := by rwa [hlen]
  have hrun := execInit_stop hh hkth hgood hfail
  generalize hu : (busWrites (initWrites.take k) s).1 = u at hrun
  have hbus : OnlyBus s u := hu ▸ busWrites_onlyBus _ _
  have hdraw : u.nextDraw = s.drawAt k := by rw [← hu, busWrites_nextDraw hpre, hlen]
  have hnext : u.nextDraw.ok = false := by rw [hdraw, hfail]
  have hother {j : Nat} {p : ExpReg × Byte} (hp : initWrites[j]? = some p) (hj : j ≠ k) :
      (busWrite r v u).1.exp p.1 = u.exp p.1 :=
    busWrite_exp_other (by rwa [hbus.cfg]) (initWrites_reg_ne hp hkth hj)
  have hkept {j : Nat} {p : ExpReg × Byte} (hp : initWrites[j]? = some p) (hj : k ≤ j) : u.exp p.1 = s.exp p.1 :=
    hu ▸ busWrites_exp_of_notMem hwf (initWrites_notMem_take hp hj)
  refine ⟨_, hrun, ?before, ?own, ?after, fun a ha => execInit_reach hrun ha, ?trace, ?bus⟩
  case before =>
    intro j q x hj hq
    have hmem : (q, x) ∈ initWrites.take k := List.mem_of_getElem? (i := j) (by rw [List.getElem?_take_of_lt hj, hq])
    have hnd : ((initWrites.take k).map Prod.fst).Nodup :=
      initWrites_nodup.sublist ((List.take_sublist k _).map Prod.fst)
    calc (busWrite r v u).1.exp q = u.exp q := hother hq (by omega)
      _ = x := hu ▸ busWrites_exp_of_mem hwf hnd hpre hmem
  case own =>
    intro q x hq
    cases hkth.symm.trans hq
    constructor
    · calc (busWrite r v u).1.exp r = if u.nextDraw.landed then v else u.exp r := busWrite_fail_exp hnext
        _ = if (s.drawAt k).landed then v else s.exp r := by rw [hdraw, hkept hkth le_rfl]
    · simp [State.raise, ErrorResult.response, ← hu]
  case after =>
    intro j q x hj hq
    exact (hother hq (by omega)).trans (hkept hq (by omega))
  case trace =>
    have hone : (initWrites.drop k).take 1 = [(r, v)] := by
      obtain ⟨hk, hget⟩ := List.getElem?_eq_some_iff.1 hkth
      rw [List.drop_eq_getElem_cons hk, hget, List.take_one, List.head?_cons]
      rfl
    calc (busWrite r v u).1.trace
        = u.trace ++ [.busWrite s.cfg.slaveAddr (s.addr r) v false] := by
          rw [busWrite_fail_trace hnext, hbus.addr, hbus.cfg]
      _ = _ := by rw [← hu, busWrites_trace hpre, hone, List.append_assoc, List.map_singleton]
  case bus => exact (hbus.trans (busWrite_onlyBus r v u)).respond _

end Sys2Proof.Machine

namespace Sys2Proof.Machine

/-! ### What transactions can do to a lamp, whether they succeed or not (R44, R54 to R56) -/

theorem level_x_congr {s t : State} (h : t.exp .olatA = s.exp .olatA) (c : Nat) : t.level .x c = s.level .x c := by
  simp only [State.level, h]

theorem level_d_congr {s t : State} (h : t.dout = s.dout) (c : Nat) : t.level .d c = s.level .d c := by
  simp only [State.level, h]

@[simp] theorem level_finish (e : Option BusError) (s : State) (b : Bank) (c : Nat) :
    (finish e s).level b c = s.level b c := by
  cases e <;> exact level_respond ..

@[simp] theorem level_setFlashActive (s : State) (b : Bank) (v : Bool) (b' : Bank) (c : Nat) :
    (s.setFlashActive b v).level b' c = s.level b' c := level_setBank ..

/-- A write leaves its register with the written value or, failed, perhaps with the old one. -/
theorem busWrite_exp_cases (r : ExpReg) (v : Byte) (s : State) :
    (busWrite r v s).1.exp r = v ∨ (busWrite r v s).1.exp r = s.exp r := by
  cases hok : s.nextDraw.ok
  · rw [busWrite_fail_exp hok]
    exact ite_eq_or_eq _ _ _
  · exact .inl (by simp [busWrite_ok hok])

theorem applyBitX_dout (c : Nat) (lvl : Bool) (s : State) : (applyBitX c lvl s).1.dout = s.dout := by
  have hr := busRead_dout .olatA s
  rw [applyBitX]
  split <;> (rename_i he; rw [he] at hr)
  · exact hr
  · exact (busWrite_dout ..).trans hr

/-- The read-modify-write leaves the latch as it was, or with its bit set to the level. -/
theorem applyBitX_latch_cases (c : Nat) (lvl : Bool) (s : State) :
    (applyBitX c lvl s).1.exp .olatA = withBit (s.exp .olatA) c lvl ∨
      (applyBitX c lvl s).1.exp .olatA = s.exp .olatA := by
  cases hok : s.nextDraw.ok
  · exact .inr (by simp [applyBitX_readFails hok])
  · simpa [applyBitX, busRead_ok hok, State.readValue] using
      busWrite_exp_cases .olatA (withBit (s.exp .olatA) c lvl)
        (s.dropDraw.emit (.busRead s.cfg.slaveAddr (s.addr .olatA) (some (s.exp .olatA))))

/-- ApplyBit leaves a lamp as it was, or it is its own channel's and has the level. -/
theorem applyBit_level_cases (b : Bank) (c : Nat) (lvl : Bool) (s : State) {b' : Bank} {j : Nat} (hj : b' = .x → j < 8) :
    (applyBit b c lvl s).1.level b' j = s.level b' j ∨
      (b' = b ∧ j = c ∧ (applyBit b c lvl s).1.level b' j = some lvl) := by
  cases b with
  | x =>
    cases b' with
    | d => exact .inl (level_d_congr (applyBitX_dout c lvl s) j)
    | x =>
      obtain hv | hv := applyBitX_latch_cases c lvl s
      · simp only [applyBit, State.level, hv, withBit_getLsbD _ _ _ _ (hj rfl)]
        by_cases hc : j = c <;> simp [hc]
      · exact .inl (level_x_congr hv j)
  | d =>
    cases b' with
    | x => exact .inl rfl
    | d =>
      by_cases hc : j = c
      · subst hc
        by_cases hlen : j < s.dout.length <;> simp [applyBit, State.level, hlen]
      · exact .inl (by simp [applyBit, State.level, Ne.symm hc])

/-- ApplyMask leaves a lamp as it was, or it is one of its bank and has its bit of the mask. -/
theorem applyMask_level_cases (b : Bank) (m : Byte) (s : State) (b' : Bank) (j : Nat) :
    (applyMask b m s).1.level b' j = s.level b' j ∨
      (b' = b ∧ (applyMask b m s).1.level b' j = some (m.getLsbD j)) := by
  cases b with
  | x =>
    cases b' with
    | d => exact .inl (level_d_congr (busWrite_dout ..) j)
    | x =>
      obtain hv | hv := busWrite_exp_cases .olatA m s
      · exact .inr ⟨rfl, by simp only [applyMask, State.level, hv]⟩
      · exact .inl (level_x_congr hv j)
  | d =>
    cases b' with
    | x => exact .inl (level_x_congr (exp_congr (pinWrites_mem ..) (pinWrites_onlyLevels ..).cfg _) j)
    | d =>
      simp only [applyMask, State.level, pinWrites_dout]
      split
      · exact .inr (by simp)
      · exact .inl rfl

/-- ApplyMask touches no lamp of the other bank. -/
theorem applyMask_level_other {b b' : Bank} (h : b' ≠ b) (m : Byte) (s : State) (j : Nat) :
    (applyMask b m s).1.level b' j = s.level b' j :=
  (applyMask_level_cases b m s b' j).resolve_right fun hb => h hb.1

/-! ### ON is steady (R93) -/

/-- A lamp of bank b that was lit is lit if its channel holds ON. -/
def StaysLit (b : Bank) (c : Nat) (s t : State) : Prop :=
  (t.bank b).status[c]? = some .on → s.level b c = some true → t.level b c = some true

theorem staysLit_of_level {b : Bank} {c : Nat} {s t : State} (h : t.level b c = s.level b c) : StaysLit b c s t :=
  fun _ hlit => h.trans hlit

/-- A channel that has gone OFF holds no ON. -/
theorem staysLit_of_allOff {b : Bank} {c : Nat} {s t : State} (h : (t.bank b).AllOff) : StaysLit b c s t := by
  intro hon
  cases h _ (List.mem_of_getElem? hon)

theorem State.Inv.count_le_eight {s : State} (h : s.Inv) (b : Bank) : s.count b ≤ 8 := by
  obtain ⟨-, hn, -⟩ := h.cfg_wf
  cases b
  · exact le_rfl
  · exact hn

theorem State.Inv.channel_lt_count {s : State} (h : s.Inv) {b : Bank} {c : Nat} {st : Status}
    (hs : (s.bank b).status[c]? = some st) : c < s.count b := by
  rw [← h.status_length b]
  exact (List.getElem?_eq_some_iff.1 hs).1

theorem State.Inv.channel_lt_eight {s : State} (h : s.Inv) {b : Bank} {c : Nat} {st : Status}
    (hs : (s.bank b).status[c]? = some st) : c < 8 :=
  (h.channel_lt_count hs).trans_le (h.count_le_eight b)

section
variable {s t : State} {b : Bank} {c : Nat} (h : s.Inv) (hon : (s.bank b).status[c]? = some .on)
include h hon

/-- The renderer applies levels to blinking channels only (R87). -/
theorem rendererStep_staysLit {b' : Bank} (ht : rendererStep b' s = .next t) : StaysLit b c s t := by
  obtain ⟨-, rfl⟩ | ⟨r, ch, rest, -, -, ⟨rfl, -⟩ | ⟨-, -, hblink, l, -, rfl⟩⟩ := rendererStep_next ht
  · exact staysLit_of_level rfl
  · exact staysLit_of_level (level_setBank ..)
  · refine staysLit_of_level ((level_setBank ..).trans ?_)
    refine (applyBit_level_cases b' ch _ s fun _ => h.channel_lt_eight hon).resolve_right ?_
    rintro ⟨rfl, rfl, -⟩
    rw [hon] at hblink
    cases hblink

/-- The host's turn changes lamps of a bank in its FLASH, and in SHUTDOWN, which turns them OFF. -/
theorem hostStep_staysLit (hflash : (s.bank b).flashActive = false) (ht : hostStep s = .next t) : StaysLit b c s t := by
  obtain ⟨-, rfl⟩ | ⟨b', masks, hs, hf⟩ | ⟨err, -, -, rfl⟩ | ⟨err, -, rfl⟩ := hostStep_next ht
  · exact staysLit_of_level rfl
  · have hne : b ≠ b' := by
      rintro rfl
      rw [(h.flashInOrder.1 b).2 ⟨masks, hs⟩] at hflash
      cases hflash
    obtain ⟨-, ⟨m, rest, -, -, rfl⟩ | ⟨m, e, -, -, -, rfl⟩⟩ := flashStep_next hf
    · exact staysLit_of_level (by simp [applyMask_level_other hne])
    · exact staysLit_of_level (by simp [endFlash, applyMask_level_other hne])
  · cases b with
    | x => exact staysLit_of_level (applyMask_level_other (b := .d) (b' := .x) (by decide) 0x00#8 s c)
    | d => exact staysLit_of_allOff (allOff_replicate _ _)
  · exact staysLit_of_level ((level_finish ..).trans rfl)

/-- UPDATE gives a channel that it turns ON the level 1, and leaves the others' lamps or darkens them with OFF. -/
theorem execUpdate_staysLit {b' : Bank} {tgt : Target} {st : Status} (ht : exec (.update b' tgt st) s = .next t) :
    StaysLit b c s t := by
  obtain ⟨e, rfl⟩ | ⟨-, -, ⟨n, lvl, -, hn, hst, -, rfl⟩ | ⟨n, -, -, -, rfl⟩ | ⟨m, -, hst, -, rfl⟩⟩ := execUpdate_next ht
  · exact staysLit_of_level (level_respond ..)
  · intro hon' hlit
    rw [level_finish, level_setBank]
    obtain hl | ⟨rfl, rfl, hl⟩ := applyBit_level_cases b' n.toNat lvl s (b' := b) fun _ => h.channel_lt_eight hon
    · exact hl.trans hlit
    · obtain rfl : st = .on := by simpa [h.status_length b, hn] using hon'
      obtain ⟨-, rfl⟩ | ⟨⟨⟩, -⟩ := hst
      exact hl
  · exact staysLit_of_level (by simp)
  · intro hon' hlit
    rw [level_finish, level_setBank]
    obtain hl | ⟨rfl, hl⟩ := applyMask_level_cases b' m s b c
    · exact hl.trans hlit
    · obtain rfl : st = .on := by simpa [h.channel_lt_count hon] using hon'
      obtain ⟨-, rfl⟩ | ⟨⟨⟩, -⟩ := hst
      rw [hl, fullMask_getLsbD _ _ (h.count_le_eight b) (h.channel_lt_eight hon), decide_eq_true (h.channel_lt_count hon)]

/-- Of the instructions WROUT alone may darken a lamp whose channel stays ON. -/
theorem exec_staysLit {i : Instr} (hw : b = .x → ∀ m, i ≠ .wrout m) (ht : exec i s = .next t) : StaysLit b c s t := by
  cases i with
  | init =>
    obtain ⟨e, rfl⟩ | ⟨-, rfl⟩ := execInit_next ht
    · exact staysLit_of_level (level_respond ..)
    · have hend (e : Option BusError) (u : State) : (finishInit e u).level b c = u.level b c := by
        cases e <;> cases b <;> rfl
      refine staysLit_of_level ((hend ..).trans ?_)
      cases b with
      | x => exact level_x_congr (busWrites_exp_of_notMem h.cfg_wf (by decide)) c
      | d => exact level_d_congr (busWrites_dout ..) c
  | wrout m =>
    obtain ⟨e, rfl⟩ | ⟨-, -, -, rfl⟩ := execWrout_next ht
    · exact staysLit_of_level (level_respond ..)
    · cases b with
      | x => exact absurd rfl (hw rfl m)
      | d => exact staysLit_of_level (level_d_congr (by simp) c)
  | rdin =>
    obtain ⟨e, rfl⟩ | ⟨-, -, rfl⟩ := execRdin_next ht
    · exact staysLit_of_level (level_respond ..)
    · have hr : (busRead .gpioB s).1.level b c = s.level b c :=
        level_congr (busRead_mem ..) (busRead_onlyBus ..).cfg (busRead_dout ..) b c
      rw [finishRead]
      split <;> exact staysLit_of_level ((level_respond ..).trans hr)
  | update b' tgt st => exact execUpdate_staysLit h hon ht
  | flash b' md =>
    obtain ⟨e, rfl⟩ | ⟨-, -, rfl⟩ := execFlash_next ht
    · exact staysLit_of_level (level_respond ..)
    · exact staysLit_of_level (by simp)
  | pollev =>
    obtain ⟨e, rfl⟩ | rfl | ⟨e, rest, -, rfl⟩ := execPollev_next ht <;> exact staysLit_of_level (level_congr rfl rfl rfl b c)
  | shutdown =>
    obtain ⟨-, rfl⟩ | ⟨-, -, hcases⟩ := execShutdown_next ht
    · exact staysLit_of_level (level_respond ..)
    · cases b with
      | x => obtain ⟨-, rfl⟩ | ⟨-, rfl⟩ := hcases <;> exact staysLit_of_allOff (allOff_replicate _ _)
      | d => obtain ⟨-, rfl⟩ | ⟨-, rfl⟩ := hcases <;> exact staysLit_of_level (level_d_congr (by simp) c)
  | tick b' =>
    obtain ⟨-, rfl⟩ | ⟨-, rfl⟩ := execTick_next ht
    · exact staysLit_of_level rfl
    · exact staysLit_of_level (level_setBank ..)
  | edge p k =>
    obtain rfl | ⟨-, ht, -, -⟩ := execEdge_next ht
    · exact staysLit_of_level rfl
    · exact staysLit_of_level (by rw [ht]; cases b <;> rfl)

end

/-- A reset turns every channel OFF (R37). -/
theorem restart_staysLit (s u : State) (b : Bank) (c : Nat) : StaysLit b c u s.restart :=
  staysLit_of_allOff (by cases b <;> exact fun _ => List.eq_of_mem_replicate)

/-- Settles O31: every turn of an agent and every entry taken up leaves an ON channel lit (`StaysLit`). -/
theorem onLampStaysLit : Obligations.OnLampStaysLit := by
  intro s t b c h ht hon hon' hlit hflash hwrout
  suffices hstay : StaysLit b c s t from hstay hon' hlit
  obtain rfl | ⟨-, he⟩ | ⟨b', he⟩ | ⟨slot, rest, hi, -, -, he⟩ := step_next ht
  · exact staysLit_of_level rfl
  · exact hostStep_staysLit h hon hflash he
  · exact rendererStep_staysLit h hon he
  have hu := h.takeSlot slot rest
  have hlevel : (s.takeSlot slot rest).level b c = s.level b c := level_congr rfl rfl rfl b c
  suffices hstay : StaysLit b c (s.takeSlot slot rest) t from fun ho hl => hstay ho (hlevel.trans hl)
  rw [← takeSlot_bank s slot rest b] at hon hflash
  obtain ⟨w, i, ha, hd, he⟩ | ⟨_, e, -, rfl⟩ | ⟨w, i, -, hd, he⟩ | ⟨-, he⟩ | ⟨b', -, he⟩ | ⟨-, rfl⟩ := perform_next he
  · refine exec_staysLit hu hon (fun hb m => ?_) he
    rintro rfl
    exact hwrout hb slot rest w m hi ha hd
  · exact staysLit_of_level (level_respond ..)
  · refine exec_staysLit hu hon (fun _ m => ?_) he
    rintro rfl
    cases decodeStimulus_port hd
  · exact hostStep_staysLit hu hon hflash he
  · exact rendererStep_staysLit hu hon he
  · exact restart_staysLit _ _ b c

end Sys2Proof.Machine

namespace Sys2Proof.Machine

/-! ### The end of a command, and frames of a command that records a status -/

@[simp] theorem finish_none_responses (s : State) : (finish none s).responses = s.responses ++ [{ code := .ok }] := rfl

@[simp] theorem finish_some_responses (e : BusError) (s : State) :
    (finish (some e) s).responses = s.responses ++ [{ code := .busError, reg := some e.reg, dir := some e.dir }] := rfl

@[simp] theorem finish_exp (e : Option BusError) (s : State) (r : ExpReg) : (finish e s).exp r = s.exp r :=
  exp_congr (finish_mem ..) (finish_cfg ..) r

theorem OnlyLevels.responses {s t : State} (h : OnlyLevels s t) : t.responses = s.responses := by rw [h]

theorem OnlyBus.setBankX {s u : State} (h : OnlyBus s u) (v : BankState) :
    OnlyBus { s with bankX := v } (u.setBank .x v) := by
  rw [h]
  rfl

theorem OnlyBus.finish {s t : State} (h : OnlyBus s t) (e : Option BusError) : OnlyBus s (finish e t) := by
  cases e <;> exact h.respond _

/-- The read-modify-write touches expander memory, draws and trace, and returns nothing to the host. -/
theorem applyBitX_frame {c : Nat} {lvl : Bool} {s u : State} {e : Option BusError} (h : applyBitX c lvl s = (u, e)) :
    OnlyBus s u ∧ u.responses = s.responses := by
  have hO : OnlyLevels s u := by simpa [applyBit, h] using applyBit_onlyLevels .x c lvl s
  exact ⟨hO.onlyBus (by simpa [h] using applyBitX_dout c lvl s), hO.responses⟩

/-- The frame of pin writes, which use no draw and leave expander memory alone. -/
theorem pinWrites_onlyPins (m : Byte) (l : List Nat) (s : State) : OnlyPins s (pinWrites m l s) := by
  have h := pinWrites_onlyLevels m l s
  rw [OnlyLevels, pinWrites_mem, pinWrites_draws, pinWrites_drawCount] at h
  rw [h]
  rfl

theorem OnlyPins.setBankD {s u : State} (h : OnlyPins s u) (v : BankState) :
    OnlyPins { s with bankD := v } (u.setBank .d v) := by
  rw [h]
  rfl

theorem OnlyPins.respond {s t : State} (h : OnlyPins s t) (r : Response) : OnlyPins s (t.respond r) := by
  rw [h]
  rfl

/-- Recording one channel's status changes no other status and nothing else of the bank. -/
theorem onlyStatusAt_of_set {b : Bank} {c : Nat} {st : Status} {s t : State}
    (h : t.bank b = { s.bank b with status := (s.bank b).status.set c st }) : OnlyStatusAt b c s t := by
  refine ⟨fun j hj => ?_, by rw [h]⟩
  rw [h]
  exact List.getElem?_set_ne (Ne.symm hj)

/-! ### UPDATE's checks (R80, R84, R119, R125) -/

/-- A check that fails ends UPDATE before it has changed anything. -/
theorem execUpdate_error {s : State} {b : Bank} {c : Target} {e : ErrorResult} (st : Status)
    (h : firstError [checkHalted s, checkChannel b c s, checkBankReady b s] = some e) :
    exec (.update b c st) s = .next (s.raise e) := guarded_error h

/-- Settles O19: each error is the first of the checks that fails, and the refusal comes after all of them. -/
theorem updateChecksInOrder : Obligations.UpdateChecksInOrder := by
  intro s b st hh
  have hhalt : checkHalted s = none := by simp [checkHalted, hh]
  have hready (hb : b = .x) (hi : s.initialized = false) : checkBankReady b s = some .notInitialized := by
    subst hb
    simp [checkBankReady, checkInitialized, hi]
  refine ⟨fun n _ hn => ?range, fun n hn hb hi => ?ready, fun hb hi => ?readyAll, fun r hi => ?refusal⟩
  case range =>
    have hrange : checkChannel b (.chan n) s = some (.invalidChannel b n) := if_pos hn
    exact execUpdate_error (e := .invalidChannel b n) st (by rw [hhalt, hrange]; rfl)
  case ready =>
    have hrange : checkChannel b (.chan n) s = none := if_neg (Nat.not_le.2 hn)
    exact execUpdate_error (e := .notInitialized) st (by rw [hhalt, hrange, hready hb hi]; rfl)
  case readyAll =>
    exact execUpdate_error (c := .all) (e := .notInitialized) st (by rw [hhalt, hready hb hi]; rfl)
  case refusal => rw [execUpdate_all hh hi, updateAll]

/-! ### UPDATE of one channel (R81, R82) -/

/-- UPDATE B, C, ON or OFF past its checks: the level is applied, the status recorded whatever the bus does, and the command
ends with the apply's outcome (R81). -/
theorem execUpdate_lamp {s : State} {b : Bank} {c : Byte} {st : Status} {lvl : Bool}
    (hst : st = .on ∧ lvl = true ∨ st = .off ∧ lvl = false) (hh : s.halted = false)
    (hb : b = .x → s.initialized = true) (hc : c.toNat < s.count b) (hl : (s.bank b).lock = none) :
    exec (.update b (.chan c) st) s = .next (finish (applyBit b c.toNat lvl s).2
      ((applyBit b c.toNat lvl s).1.setBank b { s.bank b with status := (s.bank b).status.set c.toNat st })) := by
  rw [execUpdate_chan hh hb hc]
  obtain ⟨rfl, rfl⟩ | ⟨rfl, rfl⟩ := hst <;> exact recordAndApply_run hl

/-- UPDATE X, C, ON or OFF in terms of the read-modify-write's result. -/
theorem execUpdate_lampX {s u : State} {c : Byte} {st : Status} {lvl : Bool} {e : Option BusError}
    (hst : st = .on ∧ lvl = true ∨ st = .off ∧ lvl = false) (hh : s.halted = false) (hi : s.initialized = true)
    (hc : c.toNat < 8) (hl : s.bankX.lock = none) (hu : applyBitX c.toNat lvl s = (u, e)) :
    exec (.update .x (.chan c) st) s =
      .next (finish e (u.setBank .x { s.bankX with status := s.bankX.status.set c.toNat st })) := by
  rw [execUpdate_lamp (b := .x) hst hh (fun _ => hi) hc hl, applyBit, hu]
  rfl

/-- Settles O20: one read and one write of the latch succeed (`applyBitX_ok`), and the status is recorded. -/
theorem updateExpanderLamp : Obligations.UpdateExpanderLamp := by
  intro s c st lvl hst hc hlen hh hi hl hgood
  obtain ⟨u, hu, hexp, hreg, -, -, -, htrace⟩ := applyBitX_ok (c := c.toNat) (lvl := lvl) hgood
  obtain ⟨hbus, hresp⟩ := applyBitX_frame hu
  have hlevel (j : Nat) (hj : j < 8) : u.level .x j = if j = c.toNat then some lvl else s.level .x j := by
    simp only [State.level, hexp, withBit_getLsbD _ _ _ _ hj, apply_ite some]
  refine ⟨_, execUpdate_lampX hst hh hi hc hl hu, ?status, onlyStatusAt_of_set rfl, ?lamp, fun j hj hne => ?others, hreg,
    ?trace, ?response, (hbus.setBankX _).respond _⟩
  case status => simp [finish, hlen, hc]
  case lamp => simp [hlevel _ hc]
  case others => simp [hlevel _ hj, hne]
  case trace => simp [htrace, finish, hexp]
  case response => simp [hresp]

/-- Settles O21: the failed read and the failed write of the read-modify-write, with the status recorded in both. -/
theorem updateKeepsStatusOnBusError : Obligations.UpdateKeepsStatusOnBusError := by
  intro s c st lvl hst hc hlen hh hi hl hfail
  have hstatus : (s.bankX.status.set c.toNat st)[c.toNat]? = some st := by simp [hlen, hc]
  cases hread : s.nextDraw.ok
  · have hu := applyBitX_readFails (c := c.toNat) (lvl := lvl) hread
    obtain ⟨hbus, -⟩ := applyBitX_frame hu
    exact ⟨_, execUpdate_lampX hst hh hi hc hl hu, hstatus, onlyStatusAt_of_set rfl, fun _ => ⟨by simp, by simp⟩,
      by simp, onlyRegister_of_mem (by simp), (hbus.setBankX _).respond _⟩
  · have hwrite : (s.drawAt 1).ok = false := hfail.resolve_left (by simp [hread])
    obtain ⟨u, hu, hexp, hreg, -⟩ := applyBitX_writeFails (c := c.toNat) (lvl := lvl) hread hwrite
    obtain ⟨hbus, hresp⟩ := applyBitX_frame hu
    exact ⟨_, execUpdate_lampX hst hh hi hc hl hu, hstatus, onlyStatusAt_of_set rfl, by simp,
      fun _ => ⟨hexp, by simp [hresp]⟩, hreg, (hbus.setBankX _).respond _⟩

/-- Settles O22: one pin write, which cannot fail. -/
theorem updateDirectLamp : Obligations.UpdateDirectLamp := by
  intro s c st lvl hst hc hlen hdout hh hl
  refine ⟨_, execUpdate_lamp (b := .d) hst hh (by simp) hc hl, ?status, onlyStatusAt_of_set rfl, ?lamp, fun j hj => ?others,
    rfl, rfl, rfl⟩
  case status => exact List.getElem?_set_self (by rwa [State.bank, hlen])
  case lamp => simp [State.level, applyBit, hdout, hc]
  case others => simp [applyBit, Ne.symm hj]

/-- UPDATE of one channel with a blink status past its checks (R82). -/
theorem execUpdate_blink {s : State} {b : Bank} {c : Byte} {r : Blink} (hh : s.halted = false)
    (hb : b = .x → s.initialized = true) (hc : c.toNat < s.count b) :
    exec (.update b (.chan c) (.blink r)) s =
      .next ((s.setBank b { s.bank b with status := (s.bank b).status.set c.toNat (.blink r) }).respond .done) :=
  execUpdate_chan hh hb hc

/-- Settles O23: the status is recorded and nothing applied. -/
theorem updateBlinkOnlyRecords : Obligations.UpdateBlinkOnlyRecords := by
  intro s b c r hc hlen hh hi
  refine ⟨_, execUpdate_blink hh hi hc, ?status, onlyStatusAt_of_set (st := .blink r) (by simp), ?other, fun j => by simp, by simp,
    ?response, ?frame⟩
  case status => simp [hlen, hc]
  case other => exact (respond_bank ..).trans (setBank_bank_ne s (otherBank_ne b) _)
  case response => simp [Response.done]
  case frame => cases b <;> rfl

/-! ### UPDATE of ALL channels (R83) -/

/-- The mask with every channel's bit at one level. -/
theorem uniformMask_getLsbD {n j : Nat} (lvl : Bool) (hn : n ≤ 8) (hj : j < n) :
    (if lvl then fullMask n else 0x00#8).getLsbD j = lvl := by
  cases lvl
  · simp
  · simp [fullMask_getLsbD n j hn (hj.trans_le hn), hj]

theorem execUpdate_allLamps {s : State} {b : Bank} {st : Status} {lvl : Bool}
    (hst : st = .on ∧ lvl = true ∨ st = .off ∧ lvl = false) (hh : s.halted = false)
    (hb : b = .x → s.initialized = true) (hl : (s.bank b).lock = none) :
    exec (.update b .all st) s =
      .next (finish (applyMask b (if lvl then fullMask (s.count b) else 0x00#8) s).2
        ((applyMask b (if lvl then fullMask (s.count b) else 0x00#8) s).1.setBank b
          { s.bank b with status := List.replicate (s.count b) st })) := by
  rw [execUpdate_all hh hb]
  obtain ⟨rfl, rfl⟩ | ⟨rfl, rfl⟩ := hst <;> exact recordAndApplyAll_run hl

/-- Pin writes of one level to every direct channel leave every pin at it. -/
theorem pinWrites_dout_uniform {s : State} {m : Byte} {lvl : Bool} (hlen : s.dout.length = s.cfg.nD)
    (hm : ∀ j, j < s.cfg.nD → m.getLsbD j = lvl) :
    (pinWrites m (List.range s.cfg.nD) s).dout = List.replicate s.cfg.nD (some lvl) := by
  refine List.ext_getElem? fun j => ?_
  rw [pinWrites_dout]
  by_cases hj : j < s.cfg.nD
  · simp [hj, hlen, hm j hj]
  · simp [hj, hlen]

/-- A write is seen at the wires with its outcome. -/
theorem busWrite_trace (r : ExpReg) (v : Byte) (s : State) :
    (busWrite r v s).1.trace = s.trace ++ [.busWrite s.cfg.slaveAddr (s.addr r) v s.nextDraw.ok] := by
  cases hok : s.nextDraw.ok
  · exact busWrite_fail_trace hok
  · simp [busWrite_ok hok]

/-- Settles O24: one ApplyMask of a uniform mask; on bank X one write, by the draw, on bank D one pin write a channel. -/
theorem updateAllChannels : Obligations.UpdateAllChannels := by
  intro s st lvl hst hh
  refine ⟨fun hi hl => ?expander, fun hl hn hlen => ?direct⟩
  case expander =>
    have hrun := execUpdate_allLamps (b := .x) hst hh (fun _ => hi) hl
    have hmask : (if lvl then fullMask (s.count .x) else 0x00#8) = if lvl then 0xFF#8 else 0x00#8 := rfl
    simp only [hmask, applyMask] at hrun
    generalize (if lvl then 0xFF#8 else 0x00#8 : Byte) = m at hrun ⊢
    refine ⟨_, hrun, by simp [State.bank, State.count, channelCount, Config.nX], ?trace, fun hok => ⟨?_, ?_⟩,
      fun hfail => ⟨?_, ?_⟩, (busWrite_onlyRegister .olatA m s).congr_mem (by simp), ?frame⟩
    case trace => simpa using busWrite_trace .olatA m s
    case frame =>
      rw [finish_bankX]
      exact ((busWrite_onlyBus .olatA m s).setBankX _).finish _
    · simp [busWrite_ok hok]
    · simp [busWrite_ok hok]
    · simpa using busWrite_fail_exp hfail
    · have herr : (busWrite .olatA m s).2 = some { reg := s.addr .olatA, dir := .write } := by rw [busWrite_fail hfail]
      simp [herr]
  case direct =>
    have hbit (j : Nat) (hj : j < s.cfg.nD) := uniformMask_getLsbD lvl hn hj
    refine ⟨_, execUpdate_allLamps (b := .d) hst hh (by simp) hl, rfl, pinWrites_dout_uniform hlen hbit, ?trace, ?response,
      ((pinWrites_onlyPins ..).setBankD _).respond _⟩
    case trace =>
      refine (pinWrites_trace _ _ _).trans (congrArg (s.trace ++ ·) (List.map_congr_left fun c hc => ?_))
      exact congrArg _ (hbit c (List.mem_range.1 hc))
    case response => exact congrArg (· ++ [_]) (pinWrites_onlyLevels ..).responses

end Sys2Proof.Machine

namespace Sys2Proof.Machine

/-! ### TICK's step T0 (R17, R87) -/

/-- The state after step T0: the next phase, and the whole pass before the renderer. -/
def State.tickStarted (s : State) (b : Bank) : State :=
  s.setBank b { s.bank b with phase := (s.bank b).phase + 1#3, pass := passSteps (s.count b) }

theorem execTick_run {s : State} {b : Bank} (hh : s.halted = false) : exec (.tick b) s = .next (s.tickStarted b) := by
  simp [exec, execTick, hh, State.tickStarted, State.setPass, State.setPhase]

theorem execTick_halted {s : State} {b : Bank} (hh : s.halted = true) : exec (.tick b) s = .next s := by
  simp [exec, execTick, hh]

@[simp] theorem tickStarted_bank (s : State) (b : Bank) : (s.tickStarted b).bank b =
    { s.bank b with phase := (s.bank b).phase + 1#3, pass := passSteps (s.count b) } := setBank_bank ..

@[simp] theorem tickStarted_count (s : State) (b b' : Bank) : (s.tickStarted b).count b' = s.count b' := by
  simp [State.tickStarted, State.count]

/-- The phase goes from 7 to 0. -/
theorem phase_succ_toNat (p : Phase) : (p + 1#3).toNat = (p.toNat + 1) % 8 := by
  rw [BitVec.toNat_add]
  rfl

/-- Settles O25: `execTick_run`, with the pass in the order of R87. -/
theorem tickStartsPass : Obligations.TickStartsPass := by
  intro s b hh
  refine ⟨_, execTick_run hh, ?phase, ?pass, ?frame⟩
  case phase => rw [tickStarted_bank]; exact phase_succ_toNat _
  case pass => simp [passSteps]
  case frame => rw [tickStarted_bank, State.tickStarted]

/-! ### One step T(s, c) of the renderer (R87 to R89) -/

/-- A step whose level is applied goes on with the pass. -/
theorem rendererStep_applied {s : State} {b : Bank} {r : Blink} {c : Nat} {rest : List (Blink × Nat)}
    (hp : (s.bank b).pass = (r, c) :: rest) (hl : (s.bank b).lock = none) (hh : s.halted = false)
    (hf : (s.bank b).flashActive = false) (hs : (s.bank b).status[c]? = some (.blink r))
    (hok : (applyBit b c (subphase (s.bank b).phase r) s).2 = none) :
    rendererStep b s =
      .next ((applyBit b c (subphase (s.bank b).phase r) s).1.setBank b { s.bank b with pass := rest }) := by
  rw [rendererStep_apply hp hl hh hf hs, hok, finishRender, State.setPass, (applyBit_onlyLevels ..).bank b]

/-- A step whose level meets a bus error ends the pass. -/
theorem rendererStep_dropped {s : State} {b : Bank} {r : Blink} {c : Nat} {rest : List (Blink × Nat)} {e : BusError}
    (hp : (s.bank b).pass = (r, c) :: rest) (hl : (s.bank b).lock = none) (hh : s.halted = false)
    (hf : (s.bank b).flashActive = false) (hs : (s.bank b).status[c]? = some (.blink r))
    (hfail : (applyBit b c (subphase (s.bank b).phase r) s).2 = some e) :
    rendererStep b s =
      .next ((applyBit b c (subphase (s.bank b).phase r) s).1.setBank b { s.bank b with pass := [] }) := by
  rw [rendererStep_apply hp hl hh hf hs, hfail, finishRender, State.setPass, (applyBit_onlyLevels ..).bank b]

/-- Settles O26: `applyBit_level` on the channel's own status, and `rendererStep_skip` for every other case. -/
theorem rendererStepAppliesPhaseBit : Obligations.RendererStepAppliesPhaseBit := by
  intro s b r c rest hp hl
  refine ⟨fun hh hf hs hx hd hgood => ?applies, fun hskip => ?skips⟩
  case applies =>
    have hlen : c < (s.bank b).status.length := (List.getElem?_eq_some_iff.1 hs).1
    obtain ⟨hok, hown, hrest, hother, hreg⟩ := applyBit_level (b := b) (c := c) (lvl := subphase (s.bank b).phase r) (s := s)
      (by rintro rfl; exact ⟨hx ▸ hlen, hgood rfl⟩) (by rintro rfl; exact hd ▸ hlen)
    have hO := applyBit_onlyLevels b c (subphase (s.bank b).phase r) s
    refine ⟨_, rendererStep_applied hp hl hh hf hs hok, ?_, fun j hj hne => ?_, fun j => ?_, setBank_bank .., ?_, ?_,
      hreg.congr_mem (setBank_mem ..), hO.onlyChannels.setBank .., ?_⟩
    · rw [level_setBank, hown]
      cases r <;> rfl
    · rw [level_setBank, hrest j (fun _ => hj) hne]
    · rw [level_setBank, hother]
    · rw [setBank_bank_ne _ (otherBank_ne b), hO.bank]
    · rw [setBank_responses, hO.responses]
    · rw [setBank_host, hO.host]
  case skips =>
    refine rendererStep_skip hp hl ?_
    rintro ⟨hh, hf, hs⟩
    simp [hh, hf, hs] at hskip

/-- Settles O27: the read-modify-write fails, whichever of its transactions does, and the pass is dropped. -/
theorem rendererDropsBusError : Obligations.RendererDropsBusError := by
  intro s r c rest hp hl hh hf hs hfail
  obtain ⟨u, e, hu⟩ : ∃ u e, applyBitX c (subphase s.bankX.phase r) s = (u, some e) := by
    cases hread : s.nextDraw.ok
    · exact ⟨_, _, applyBitX_readFails hread⟩
    · obtain ⟨u, hu, -⟩ := applyBitX_writeFails (c := c) (lvl := subphase s.bankX.phase r) hread
        (hfail.resolve_left (by simp [hread]))
      exact ⟨u, _, hu⟩
  have happly : applyBit .x c (subphase (s.bank .x).phase r) s = (u, some e) := hu
  obtain ⟨hbus, hresp⟩ := applyBitX_frame hu
  have hrun := rendererStep_dropped (b := .x) hp hl hh hf hs (congrArg Prod.snd happly)
  have hreg := applyBit_onlyRegister .x c (subphase (s.bank .x).phase r) s
  rw [happly] at hrun hreg
  exact ⟨_, hrun, rfl, hreg, hresp, hbus.setBankX _⟩

/-! ### Runs of the renderer that apply nothing, and what every run keeps (R90) -/

theorem wholeTick_run {s : State} {b : Bank} (hh : s.halted = false) :
    wholeTick b s = rendererRun b (3 * s.count b) (s.tickStarted b) := by
  rw [wholeTick, execTick_run hh, andThen]

theorem rendererRun_succ {s t : State} {b : Bank} (h : rendererStep b s = .next t) (n : Nat) :
    rendererRun b (n + 1) s = rendererRun b n t := by
  rw [rendererRun, h, andThen]

theorem rendererStep_total {s : State} {b : Bank} (hl : (s.bank b).lock = none) : ∃ t, rendererStep b s = .next t := by
  unfold rendererStep
  split
  · exact ⟨_, rfl⟩
  · exact ⟨_, withLock_free hl⟩

/-- The renderer can always run on, and moves nothing of its bank's record but its own place. -/
theorem rendererRun_total {s : State} {b : Bank} (hl : (s.bank b).lock = none) (n : Nat) :
    ∃ t, rendererRun b n s = .next t ∧ t.bank b = { s.bank b with pass := (t.bank b).pass } := by
  induction n generalizing s with
  | zero => exact ⟨s, rfl, rfl⟩
  | succ n ih =>
    obtain ⟨u, hu⟩ := rendererStep_total hl
    have hub := rendererStep_bank hu b
    obtain ⟨t, ht, htb⟩ := ih (s := u) (by rw [hub]; exact hl)
    exact ⟨t, (rendererRun_succ hu n).trans ht, by rw [htb, hub]⟩

/-- A pass none of whose steps finds its status on its channel, or under a flash, is run through without effect. -/
theorem rendererRun_skip {s : State} {b : Bank} {l : List (Blink × Nat)} (hp : (s.bank b).pass = l)
    (hl : (s.bank b).lock = none)
    (hn : (s.bank b).flashActive = true ∨ ∀ p ∈ l, (s.bank b).status[p.2]? ≠ some (.blink p.1)) :
    rendererRun b l.length s = .next (s.setBank b { s.bank b with pass := [] }) := by
  induction l generalizing s with
  | nil =>
    have hsame : s.setBank b { s.bank b with pass := [] } = s := by rw [← hp, setBank_same]
    rw [hsame]
    rfl
  | cons p l ih =>
    have hstep : rendererStep b s = .next (s.setBank b { s.bank b with pass := l }) := by
      refine rendererStep_skip hp hl ?_
      rintro ⟨-, hf, hs⟩
      obtain hf' | hn := hn
      · simp [hf'] at hf
      · exact hn p (by simp) hs
    have hrest : (s.bank b).flashActive = true ∨ ∀ q ∈ l, (s.bank b).status[q.2]? ≠ some (.blink q.1) :=
      hn.imp_right fun hn q hq => hn q (List.mem_cons_of_mem _ hq)
    rw [List.length_cons, rendererRun_succ hstep, ih (by simp) (by simpa using hl) (by simpa using hrest)]
    simp

/-- Settles O28: `rendererRun_skip` on the whole pass, and `rendererRun_total` for the phase. -/
theorem tickCornerCases : Obligations.TickCornerCases := by
  intro s b hp hl
  refine ⟨fun hh => ?halted, fun hh hquiet => ?quiet, fun hh => ?wraps⟩
  case halted => rw [wholeTick, execTick_halted hh, andThen, rendererRun_idle b _ s hp]
  case quiet =>
    have hnone : (s.bank b).flashActive = true ∨ ∀ st ∈ (s.bank b).status, isBlink st = false := by
      obtain hoff | hf | ⟨rfl, hi, hq⟩ := hquiet
      · exact .inr hoff
      · exact .inl hf
      · exact .inr (hq hi).1
    have hskip : ((s.tickStarted b).bank b).flashActive = true ∨
        ∀ p ∈ passSteps (s.count b), ((s.tickStarted b).bank b).status[p.2]? ≠ some (.blink p.1) := by
      rw [tickStarted_bank]
      refine hnone.imp_right fun hoff p _ hs => ?_
      cases hoff _ (List.mem_of_getElem? hs)
    rw [wholeTick_run hh, ← passSteps_length, rendererRun_skip (by simp) (by simpa using hl) hskip, tickStarted_bank,
      State.tickStarted, setBank_setBank, ← hp]
  case wraps =>
    obtain ⟨t, ht, htb⟩ := rendererRun_total (s := s.tickStarted b) (b := b) (by simpa using hl) (3 * s.count b)
    have hphase : (t.bank b).phase = (s.bank b).phase + 1#3 := by rw [htb, tickStarted_bank]
    exact ⟨t, (wholeTick_run hh).trans ht, by rw [hphase, phase_succ_toNat], fun h7 => by rw [hphase, h7]; rfl⟩

/-! ### Runs of the renderer with no bus error (R19, R87) -/

/-- How many steps of a pass find their status on their channel. -/
def State.hits (s : State) (b : Bank) (l : List (Blink × Nat)) : Nat :=
  l.countP (fun p => decide ((s.bank b).status[p.2]? = some (.blink p.1)))

/-- What the steps `l` of a pass leave when they meet no bus error and the steps `rest` lie ahead: the blinking channels of
the steps show the phase, and every other lamp is as it was. -/
structure Rendered (b : Bank) (l rest : List (Blink × Nat)) (s t : State) : Prop where
  frame : OnlyLevels (s.setBank b { s.bank b with pass := rest }) t
  latchOnly : OnlyRegister .olatA s t
  shown : ∀ c r, (s.bank b).status[c]? = some (.blink r) →
    t.level b c = if (r, c) ∈ l then some (subphase (s.bank b).phase r) else s.level b c
  steady : ∀ c st, (s.bank b).status[c]? = some st → isBlink st = false → t.level b c = s.level b c
  other : ∀ c, t.level (otherBank b) c = s.level (otherBank b) c
  draws : b = .x → ∀ n, t.drawAt n = s.drawAt (n + 2 * s.hits b l)

theorem OnlyLevels.setBank {s t : State} (h : OnlyLevels s t) (b : Bank) (v : BankState) :
    OnlyLevels (s.setBank b v) (t.setBank b v) := by
  rw [h]
  cases b <;> rfl

theorem Rendered.bank {b : Bank} {l rest : List (Blink × Nat)} {s t : State} (h : Rendered b l rest s t) :
    t.bank b = { s.bank b with pass := rest } := (h.frame.bank b).trans (setBank_bank ..)

theorem Rendered.halted {b : Bank} {l rest : List (Blink × Nat)} {s t : State} (h : Rendered b l rest s t) :
    t.halted = s.halted := h.frame.halted.trans (setBank_halted ..)

theorem Rendered.nil {b : Bank} {s : State} (hp : (s.bank b).pass = []) : Rendered b [] [] s s where
  frame := by
    rw [← hp, setBank_same]
    exact .refl s
  latchOnly := fun _ _ => rfl
  shown := fun _ _ _ => by simp
  steady := fun _ _ _ _ => rfl
  other := fun _ => rfl
  draws := fun _ _ => rfl

theorem OnlyRegister.trans {r : ExpReg} {s t u : State} (h : OnlyRegister r s t) (k : OnlyRegister r t u)
    (hc : t.cfg = s.cfg) : OnlyRegister r s u := fun a ha =>
  (k a (by rwa [State.addr, hc])).trans (h a ha)

theorem Rendered.trans {b : Bank} {l l' rest rest' : List (Blink × Nat)} {s u t : State} (h : Rendered b l rest s u)
    (k : Rendered b l' rest' u t) : Rendered b (l ++ l') rest' s t where
  frame := by
    have hset := h.frame.setBank b { s.bank b with pass := rest' }
    have hk := k.frame
    rw [setBank_setBank] at hset
    rw [h.bank] at hk
    exact hset.trans hk
  latchOnly := h.latchOnly.trans k.latchOnly (h.frame.cfg.trans (setBank_cfg ..))
  shown := fun c r hs => by
    rw [k.shown c r (by rw [h.bank]; exact hs), h.shown c r hs, h.bank]
    by_cases hl' : (r, c) ∈ l' <;> by_cases hl : (r, c) ∈ l <;> simp [hl, hl']
  steady := fun c st hs hst =>
    (k.steady c st (by rw [h.bank]; exact hs) hst).trans (h.steady c st hs hst)
  other := fun c => (k.other c).trans (h.other c)
  draws := fun hb n => by
    have hhits : u.hits b l' = s.hits b l' := by rw [State.hits, h.bank]; rfl
    rw [k.draws hb, h.draws hb, hhits, State.hits, State.hits, State.hits, List.countP_append]
    congr 1
    omega

/-- The good draws that are left after a run. -/
theorem Rendered.busGood {b : Bank} {l rest : List (Blink × Nat)} {s t : State} {n : Nat} (h : Rendered b l rest s t)
    (hgood : b = .x → s.BusGood (2 * s.hits b l + n)) (hb : b = .x) : t.BusGood n := fun k hk => by
  rw [h.draws hb]
  exact hgood hb _ (by omega)

/-- A step whose channel does not hold its status. -/
theorem rendered_skip {s : State} {b : Bank} {p : Blink × Nat} (rest : List (Blink × Nat))
    (hs : (s.bank b).status[p.2]? ≠ some (.blink p.1)) :
    Rendered b [p] rest s (s.setBank b { s.bank b with pass := rest }) where
  frame := .refl _
  latchOnly := onlyRegister_of_mem (setBank_mem ..)
  shown := fun c r hc => by
    have hne : (r, c) ∉ [p] := by
      rw [List.mem_singleton]
      rintro rfl
      exact hs hc
    rw [if_neg hne, level_setBank]
  steady := fun _ _ _ _ => level_setBank ..
  other := fun _ => level_setBank ..
  draws := fun _ n => by
    have hzero : s.hits b [p] = 0 := by simp [State.hits, hs]
    rw [hzero]
    exact drawAt_congr (setBank_draws ..) (setBank_drawCount ..) n

/-- A step that applies its level with no bus error. -/
theorem rendered_apply {s : State} {b : Bank} {r : Blink} {c : Nat} (rest : List (Blink × Nat)) (h : s.Inv)
    (hs : (s.bank b).status[c]? = some (.blink r)) (hgood : b = .x → s.BusGood 2) :
    (applyBit b c (subphase (s.bank b).phase r) s).2 = none ∧
      Rendered b [(r, c)] rest s
        ((applyBit b c (subphase (s.bank b).phase r) s).1.setBank b { s.bank b with pass := rest }) := by
  have hc8 := h.channel_lt_eight hs
  obtain ⟨hok, hown, hrest, hother, hreg⟩ := applyBit_level (b := b) (c := c) (lvl := subphase (s.bank b).phase r) (s := s)
    (fun hb => ⟨hc8, hgood hb⟩) (by rintro rfl; rw [h.dout_length]; exact h.channel_lt_count hs)
  have hkept {j : Nat} {st : Status} (hj : (s.bank b).status[j]? = some st) (hne : j ≠ c) :
      (applyBit b c (subphase (s.bank b).phase r) s).1.level b j = s.level b j :=
    hrest j (fun _ => h.channel_lt_eight hj) hne
  refine ⟨hok, (applyBit_onlyLevels ..).setBank .., hreg.congr_mem (setBank_mem ..), fun j q hj => ?shown,
    fun j st hj hst => ?steady, fun j => (level_setBank ..).trans (hother j), ?draws⟩
  case shown =>
    rw [level_setBank]
    by_cases hjc : j = c
    · subst hjc
      obtain rfl : q = r := by simpa [hs] using hj.symm
      simpa using hown
    · simpa [hjc] using hkept hj hjc
  case steady =>
    rw [level_setBank]
    refine hkept hj ?_
    rintro rfl
    cases hs.symm.trans hj
    cases hst
  case draws =>
    rintro rfl n
    obtain ⟨u, hu, -, -, -, hd, hn, -⟩ := applyBitX_ok (c := c) (lvl := subphase (s.bank .x).phase r) (hgood rfl)
    have hone : s.hits .x [(r, c)] = 1 := by simp [State.hits, hs]
    rw [hone, applyBit, hu]
    exact (drawAt_congr (setBank_draws ..) (setBank_drawCount ..) n).trans (drawAt_congr hd hn n)

/-- One step of a tick under the invariant, neither halted nor in a flash, with no bus error. -/
theorem rendererStep_rendered {s : State} {b : Bank} {p : Blink × Nat} {rest : List (Blink × Nat)} (h : s.Inv)
    (hh : s.halted = false) (hf : (s.bank b).flashActive = false) (hp : (s.bank b).pass = p :: rest)
    (hgood : b = .x → s.BusGood (2 * s.hits b [p])) : ∃ t, rendererStep b s = .next t ∧ Rendered b [p] rest s t := by
  by_cases hs : (s.bank b).status[p.2]? = some (.blink p.1)
  · have hone : s.hits b [p] = 1 := by simp [State.hits, hs]
    obtain ⟨hok, hR⟩ := rendered_apply rest h hs fun hb => by simpa [hone] using hgood hb
    exact ⟨_, rendererStep_applied hp (h.lock_free b) hh hf hs hok, hR⟩
  · exact ⟨_, rendererStep_skip hp (h.lock_free b) (fun hn => hs hn.2.2), rendered_skip rest hs⟩

/-- A whole pass with no bus error in its own transactions, two for each step that finds its status. -/
theorem rendererRun_rendered {s : State} {b : Bank} {l : List (Blink × Nat)} (h : s.Inv) (hh : s.halted = false)
    (hf : (s.bank b).flashActive = false) (hp : (s.bank b).pass = l) (hgood : b = .x → s.BusGood (2 * s.hits b l)) :
    ∃ t, rendererRun b l.length s = .next t ∧ Rendered b l [] s t ∧ t.Inv := by
  induction l generalizing s with
  | nil => exact ⟨s, rfl, .nil hp, h⟩
  | cons p l ih =>
    have hsplit : 2 * s.hits b (p :: l) = 2 * s.hits b [p] + 2 * s.hits b l := by
      rw [← Nat.mul_add, State.hits, ← List.singleton_append, List.countP_append]
      rfl
    rw [hsplit] at hgood
    obtain ⟨u, hu, hR⟩ := rendererStep_rendered h hh hf hp fun hb => (hgood hb).mono (Nat.le_add_right ..)
    have hhits : u.hits b l = s.hits b l := by rw [State.hits, hR.bank]; rfl
    obtain ⟨t, ht, hR', hInv⟩ := ih (rendererStep_inv h hu) (hR.halted.trans hh) (by rw [hR.bank]; exact hf)
      (by rw [hR.bank]) (fun hb => by rw [hhits]; exact hR.busGood hgood hb)
    exact ⟨t, (rendererRun_succ hu _).trans ht, hR.trans hR', hInv⟩

/-! ### Whole ticks with no bus error (R19, R92, R93) -/

theorem mem_passSteps {n c : Nat} {r : Blink} : (r, c) ∈ passSteps n ↔ c < n := by
  cases r <;> simp [passSteps]

/-- The pass of a tick makes two transactions for each blinking channel (R54, R87). -/
theorem tickStarted_hits {s : State} (h : s.Inv) (b : Bank) :
    (s.tickStarted b).hits b (passSteps (s.count b)) = s.blinkCount b := by
  rw [State.hits, tickStarted_bank, ← h.status_length b]
  exact passSteps_hits _

theorem wholeTick_rendered {s : State} {b : Bank} (h : s.Inv) (hh : s.halted = false)
    (hf : (s.bank b).flashActive = false) (hgood : b = .x → s.BusGood (2 * s.blinkCount b)) :
    ∃ t, wholeTick b s = .next t ∧ Rendered b (passSteps (s.count b)) [] (s.tickStarted b) t ∧ t.Inv := by
  have hInv : (s.tickStarted b).Inv := h.setRenderer List.suffix_rfl
  obtain ⟨t, ht, hR, htInv⟩ := rendererRun_rendered (b := b) (l := passSteps (s.count b)) hInv
    ((setBank_halted ..).trans hh) (by simpa using hf) (by simp)
    (fun hb => (tickStarted_hits h b).symm ▸ (hgood hb).congr (setBank_draws ..) (setBank_drawCount ..))
  exact ⟨t, by rw [wholeTick_run hh, ← passSteps_length, ht], hR, htInv⟩

section
variable {s t : State} {b : Bank} (hR : Rendered b (passSteps (s.count b)) [] (s.tickStarted b) t)
include hR

/-- After a tick the renderer is between ticks again, at the next phase. -/
theorem bank_of_tickRendered (hp : (s.bank b).pass = []) : t.bank b = { s.bank b with phase := (s.bank b).phase + 1#3 } := by
  rw [hR.bank, tickStarted_bank, ← hp]

theorem level_of_tickRendered (h : s.Inv) {c : Nat} {r : Blink} (hs : (s.bank b).status[c]? = some (.blink r)) :
    t.level b c = some (subphase ((s.bank b).phase + 1#3) r) := by
  rw [hR.shown c r (by simpa using hs), if_pos (mem_passSteps.2 (h.channel_lt_count hs)), tickStarted_bank]

end

/-- Settles O29: what the pass leaves (`Rendered`), read from the state before the tick. -/
theorem wholeTickShowsPhase : Obligations.WholeTickShowsPhase := by
  intro s b h hh hf hp hgood
  obtain ⟨t, ht, hR, -⟩ := wholeTick_rendered h hh hf (b := b) (by rintro rfl; exact hgood rfl)
  have hlevel (b' : Bank) (c : Nat) : (s.tickStarted b).level b' c = s.level b' c := level_setBank ..
  have hO : OnlyChannels (s.tickStarted b) t :=
    ((OnlyChannels.refl (s.tickStarted b)).setBank b _).trans hR.frame.onlyChannels
  refine ⟨t, ht, bank_of_tickRendered hR hp, ?other, fun c r hs => level_of_tickRendered hR h hs, fun c st hs hst => ?steady,
    fun c => (hR.other c).trans (hlevel ..), ?latch, ?responses, ?host, ((OnlyChannels.refl s).setBank b _).trans hO⟩
  case other =>
    rw [hR.frame.bank, State.tickStarted, setBank_setBank, setBank_bank_ne _ (otherBank_ne b)]
  case steady => exact (hR.steady c st (by simpa using hs) hst).trans (hlevel ..)
  case latch => exact (onlyRegister_of_mem (setBank_mem ..)).trans hR.latchOnly (setBank_cfg ..)
  case responses => rw [hR.frame.responses, State.tickStarted, setBank_setBank, setBank_responses]
  case host => rw [hR.frame.host, State.tickStarted, setBank_setBank, setBank_host]

/-- k whole ticks with no bus error advance the phase by k, and after the last one the blinking channels show it. -/
theorem wholeTicks_show {s : State} {b : Bank} {k : Nat} (h : s.Inv) (hh : s.halted = false)
    (hf : (s.bank b).flashActive = false) (hp : (s.bank b).pass = [])
    (hgood : b = .x → s.BusGood (k * (2 * s.blinkCount b))) :
    ∃ t, wholeTicks b k s = .next t ∧ t.bank b = { s.bank b with phase := (s.bank b).phase + BitVec.ofNat 3 k } ∧
      (0 < k → ∀ c r, (s.bank b).status[c]? = some (.blink r) → t.level b c = some (subphase (t.bank b).phase r)) := by
  induction k generalizing s with
  | zero => exact ⟨s, rfl, by simp, by simp⟩
  | succ k ih =>
    rw [Nat.succ_mul, Nat.add_comm] at hgood
    obtain ⟨u, hu, hR, huInv⟩ := wholeTick_rendered h hh hf (b := b) fun hb => (hgood hb).mono (Nat.le_add_right ..)
    have hub := bank_of_tickRendered hR hp
    have hugood (hb : b = .x) : u.BusGood (k * (2 * u.blinkCount b)) := by
      rw [State.blinkCount, hub]
      refine hR.busGood (fun hb => ?_) hb
      rw [tickStarted_hits h]
      exact (hgood hb).congr (setBank_draws ..) (setBank_drawCount ..)
    obtain ⟨t, ht, htb, hshown⟩ := ih huInv (hR.halted.trans ((setBank_halted ..).trans hh)) (by rw [hub]; exact hf)
      (by rw [hub]; exact hp) hugood
    have hphase : (s.bank b).phase + 1#3 + BitVec.ofNat 3 k = (s.bank b).phase + BitVec.ofNat 3 (k + 1) := by
      rw [BitVec.add_assoc, ← BitVec.ofNat_add, Nat.add_comm 1 k]
    refine ⟨t, by rw [wholeTicks, hu, andThen, ht], by rw [htb, hub, ← hphase], fun _ c r hs => ?_⟩
    by_cases hk : 0 < k
    · exact hshown hk c r (by rw [hub]; exact hs)
    · obtain rfl : k = 0 := by omega
      cases ht
      rw [level_of_tickRendered hR h hs, hub]

/-- Settles O30: from phase 0 the phase after k ticks is k modulo 8. -/
theorem blinkRatesOverTicks : Obligations.BlinkRatesOverTicks := by
  intro s b k h hh hf hp hphase hgood
  obtain ⟨t, ht, htb, hshown⟩ := wholeTicks_show h hh hf hp (b := b) (k := k) (by rintro rfl; exact hgood rfl)
  have hk : (t.bank b).phase.toNat = k % 8 := by
    rw [htb, hphase, BitVec.zero_add, BitVec.toNat_ofNat]
  refine ⟨t, ht, by rw [htb], hk, fun hpos c r hs => ?_⟩
  rw [hshown hpos c r hs, ← hk]
  cases r <;> rfl

end Sys2Proof.Machine

namespace Sys2Proof.Machine

/-! ### The sequences of FLASH (R95, R96) -/

/-- The first n masks of SWEEP light the channels in ascending order. -/
theorem sweepMasks_light {n k : Nat} (hk : k < n) : (sweepMasks n)[k]? = some (fullMask (k + 1)) := by
  rw [sweepMasks, List.getElem?_append_left (by simpa using hk)]
  simp [hk]

/-- The last n masks of SWEEP darken the channels in ascending order. -/
theorem sweepMasks_darken {n k : Nat} (hk : k < n) :
    (sweepMasks n)[n + k]? = some (fullMask n &&& ~~~fullMask (k + 1)) := by
  rw [sweepMasks, List.getElem?_append_right (by simp)]
  simp [hk]

theorem sweepMasks_eight : sweepMasks 8 = [0x01#8, 0x03#8, 0x07#8, 0x0F#8, 0x1F#8, 0x3F#8, 0x7F#8, 0xFF#8,
    0xFE#8, 0xFC#8, 0xF8#8, 0xF0#8, 0xE0#8, 0xC0#8, 0x80#8, 0x00#8] := by decide

theorem sweepMasks_four : sweepMasks 4 = [0x1#8, 0x3#8, 0x7#8, 0xF#8, 0xE#8, 0xC#8, 0x8#8, 0x0#8] := by decide

/-- Settles O33: the two halves of `sweepMasks`, and the lists for 8 and 4 channels by computation. -/
theorem sweepSequence : Obligations.SweepSequence := by
  intro rep n _
  refine ⟨?length, fun k => sweepMasks_light, fun k => sweepMasks_darken, ?eight, ?four⟩
  case length => simp [flashSeq, sweepMasks, Nat.two_mul]
  case eight => rintro rfl; exact sweepMasks_eight
  case four => rintro rfl; exact sweepMasks_four

theorem blinkMasks_length (n rep : Nat) : (blinkMasks n rep).length = 2 * rep := by
  induction rep with
  | zero => rfl
  | succ rep ih => rw [blinkMasks, List.length_cons, List.length_cons, ih, Nat.mul_succ]

/-- Each repetition of BLINK is the full mask and the empty one. -/
theorem blinkMasks_getElem? (n : Nat) {rep j : Nat} (hj : j < rep) :
    (blinkMasks n rep)[2 * j]? = some (fullMask n) ∧ (blinkMasks n rep)[2 * j + 1]? = some 0x00#8 := by
  induction rep generalizing j with
  | zero => cases hj
  | succ rep ih =>
    cases j with
    | zero => exact ⟨rfl, rfl⟩
    | succ j => exact ih (Nat.lt_of_succ_lt_succ hj)

/-- Settles O34: by induction on the repetitions; that there is one is R6's condition on the parameters. -/
theorem blinkSequence : Obligations.BlinkSequence := by
  intro k n hk
  obtain ⟨-, -, -, -, hrep⟩ := hk
  exact ⟨hrep, blinkMasks_length _ _, fun j => blinkMasks_getElem? n⟩

/-! ### One step of FLASH (R94, R97) -/

/-- Settles O32: step F0, past its checks. -/
theorem flashStarts : Obligations.FlashStarts := fun _ _ _ hh hi => execFlash_run hh hi

section
variable {s : State} {b : Bank} (hl : (s.bank b).lock = none)
include hl

/-- A mask that is applied sends the host on to the remaining ones. -/
theorem hostStep_mask {m : Byte} {rest : List Byte} (hs : s.host = some (.flash b (m :: rest)))
    (hok : (applyMask b m s).2 = none) :
    hostStep s = .next ((applyMask b m s).1.setHost (some (.flash b rest))) := by
  simp only [hostStep, hs, flashStep_mask hl, hok, finishMask]

/-- The restore, with no mask left, ends the FLASH. -/
theorem hostStep_restore (hs : s.host = some (.flash b [])) (hok : (applyMask b (s.statusMask b) s).2 = none) :
    hostStep s = .next (endFlash b none (applyMask b (s.statusMask b) s).1) := by
  simp only [hostStep, hs, flashStep_restore hl, hok]

/-- A mask or a restore that meets a bus error ends the FLASH with it. -/
theorem hostStep_flash_fails {masks : List Byte} {e : BusError} (hs : s.host = some (.flash b masks))
    (hfail : (applyMask b (masks.headD (s.statusMask b)) s).2 = some e) :
    hostStep s = .next (endFlash b (some e) (applyMask b (masks.headD (s.statusMask b)) s).1) := by
  cases masks with
  | nil =>
    rw [List.headD_nil] at hfail ⊢
    simp only [hostStep, hs, flashStep_restore hl, hfail]
  | cons m rest =>
    rw [List.headD_cons] at hfail ⊢
    simp only [hostStep, hs, flashStep_mask hl, hfail, finishMask]

end

/-- Settles O35: the failed write of the mask, or of the restore's. -/
theorem flashEndsOnBusError : Obligations.FlashEndsOnBusError := by
  intro s masks hs hl hfail
  generalize hm : masks.headD (s.statusMask .x) = m
  have herr : (applyMask .x m s).2 = some { reg := s.addr .olatA, dir := .write } := by
    rw [applyMask, busWrite_fail hfail]
  have hrun := hostStep_flash_fails (b := .x) hl hs (hm ▸ herr)
  rw [hm] at hrun
  have hbus := busWrite_onlyBus .olatA m s
  refine ⟨_, hrun, rfl, ?bank, busWrite_fail_exp hfail, busWrite_onlyRegister _ _ _, ?response, ?frame⟩
  case bank => simp [endFlash, State.setFlashActive, State.bank, (applyMask_onlyLevels ..).bankX]
  case response => simp [endFlash, State.setFlashActive, (applyMask_onlyLevels ..).responses]
  case frame =>
    rw [applyMask, hbus]
    rfl

@[simp] theorem setBank_drawAt (s : State) (b : Bank) (v : BankState) (n : Nat) : (s.setBank b v).drawAt n = s.drawAt n :=
  drawAt_congr (setBank_draws ..) (setBank_drawCount ..) n

@[simp] theorem setHost_drawAt (s : State) (o : Option HostOp) (n : Nat) : (s.setHost o).drawAt n = s.drawAt n :=
  drawAt_congr (setHost_draws ..) (setHost_drawCount ..) n

@[simp] theorem finish_drawAt (e : Option BusError) (s : State) (n : Nat) : (finish e s).drawAt n = s.drawAt n :=
  drawAt_congr (finish_draws ..) (finish_drawCount ..) n

/-- What host steps of a FLASH on bank b that have applied the masks `ms` with no bus error leave: outside the bank's lamps,
its FLASH_ACTIVE, the host's place and the responses. -/
structure FlashShown (b : Bank) (ms : List Byte) (s t : State) : Prop where
  other : ∀ c, t.level (otherBank b) c = s.level (otherBank b) c
  latchOnly : OnlyRegister .olatA s t
  otherRecord : t.bank (otherBank b) = s.bank (otherBank b)
  wires : t.trace = s.trace ++ ms.flatMap (s.maskTrace b)
  frame : OnlyChannels s t
  pins : t.dout.length = s.dout.length
  draws : b = .x → ∀ n, t.drawAt n = s.drawAt (n + ms.length)

theorem OnlyChannels.cfg {s t : State} (h : OnlyChannels s t) : t.cfg = s.cfg := by rw [h]

theorem maskTrace_congr {s t : State} (h : t.cfg = s.cfg) (b : Bank) (m : Byte) : t.maskTrace b m = s.maskTrace b m := by
  cases b <;> simp only [State.maskTrace, State.addr, h]

theorem FlashShown.trans {b : Bank} {ms ms' : List Byte} {s u t : State} (h : FlashShown b ms s u)
    (k : FlashShown b ms' u t) : FlashShown b (ms ++ ms') s t where
  other := fun c => (k.other c).trans (h.other c)
  latchOnly := h.latchOnly.trans k.latchOnly h.frame.cfg
  otherRecord := k.otherRecord.trans h.otherRecord
  wires := by
    rw [k.wires, h.wires, List.flatMap_append, List.append_assoc, funext (maskTrace_congr h.frame.cfg b)]
  frame := h.frame.trans k.frame
  pins := k.pins.trans h.pins
  draws := fun hb n => by
    rw [k.draws hb, h.draws hb, List.length_append]
    congr 1
    omega

theorem FlashShown.setHost {b : Bank} {ms : List Byte} {s t : State} (h : FlashShown b ms s t) (o : Option HostOp) :
    FlashShown b ms s (t.setHost o) where
  other := fun c => (level_setHost ..).trans (h.other c)
  latchOnly := h.latchOnly
  otherRecord := (setHost_bank ..).trans h.otherRecord
  wires := h.wires
  frame := h.frame.setHost o
  pins := h.pins
  draws := fun hb n => (setHost_drawAt ..).trans (h.draws hb n)

theorem FlashShown.endFlash {b : Bank} {ms : List Byte} {s t : State} (h : FlashShown b ms s t) :
    FlashShown b ms s (endFlash b none t) where
  other := fun c => by simpa [Machine.endFlash] using h.other c
  latchOnly := h.latchOnly.congr_mem (by simp [Machine.endFlash])
  otherRecord := by
    simpa [Machine.endFlash, State.setFlashActive, setBank_bank_ne _ (otherBank_ne b)] using h.otherRecord
  wires := by simpa [Machine.endFlash, State.setFlashActive] using h.wires
  frame := ((h.frame.setBank b _).setHost none).finish none
  pins := by simpa [Machine.endFlash] using h.pins
  draws := fun hb n => by simpa [Machine.endFlash, State.setFlashActive] using h.draws hb n

section
variable {s : State} {b : Bank} (hx : b = .x → s.nextDraw.ok = true) (hd : b = .d → s.dout.length = s.cfg.nD)
include hx hd

theorem applyMask_flashShown (m : Byte) : FlashShown b [m] s (applyMask b m s).1 := by
  obtain ⟨-, -, hother, hreg⟩ := applyMask_level (m := m) hx hd
  have hO := applyMask_onlyLevels b m s
  refine ⟨hother, hreg, hO.bank _, ?_, hO.onlyChannels, applyMask_dout_length .., ?_⟩
  · simpa using applyMask_trace (m := m) hx
  · rintro rfl n
    exact busWrite_drawAt ..

/-- The restore gives every channel the level of its status (R94). -/
theorem applyMask_restores {c : Nat} {st : Status} (hc : c < s.count b) (hc8 : c < 8)
    (hs : (s.bank b).status[c]? = some st) :
    (applyMask b (s.statusMask b) s).1.level b c = some (levelOf (s.bank b).phase st) := by
  obtain ⟨-, hlevel, -, -⟩ := applyMask_level (m := s.statusMask b) hx hd
  rw [hlevel c hc, statusMask_getLsbD hc8 hs]

/-- The step of FLASH that applies a mask. -/
theorem hostStep_flashMask {m : Byte} {rest : List Byte} (hl : (s.bank b).lock = none)
    (hs : s.host = some (.flash b (m :: rest))) :
    ∃ t, hostStep s = .next t ∧ FlashShown b [m] s t ∧ (∀ c, c < s.count b → t.level b c = some (m.getLsbD c)) ∧
      t.bank b = s.bank b ∧ t.host = some (.flash b rest) ∧ t.responses = s.responses := by
  obtain ⟨hok, hlevel, -, -⟩ := applyMask_level (m := m) hx hd
  have hO := applyMask_onlyLevels b m s
  exact ⟨_, hostStep_mask hl hs hok, (applyMask_flashShown hx hd m).setHost _,
    fun c hc => (level_setHost ..).trans (hlevel c hc), (setHost_bank ..).trans (hO.bank b), rfl, hO.responses⟩

end

/-- A FLASH on bank b is over (R94): the bank's lamps show the statuses at the present phase, FLASH_ACTIVE is 0, the host is
free and has its OK. -/
structure FlashOver (b : Bank) (s t : State) : Prop where
  restored : ∀ c st, c < s.count b → c < 8 → (s.bank b).status[c]? = some st →
    t.level b c = some (levelOf (s.bank b).phase st)
  record : t.bank b = { s.bank b with flashActive := false }
  host : t.host = none
  response : t.responses = s.responses ++ [{ code := .ok }]

/-- The step of FLASH that restores the bank. -/
theorem hostStep_flashRestore {s : State} {b : Bank} (hx : b = .x → s.nextDraw.ok = true)
    (hd : b = .d → s.dout.length = s.cfg.nD) (hl : (s.bank b).lock = none) (hs : s.host = some (.flash b [])) :
    ∃ t, hostStep s = .next t ∧ FlashShown b [s.statusMask b] s t ∧ FlashOver b s t := by
  obtain ⟨hok, -⟩ := applyMask_level (m := s.statusMask b) hx hd
  have hO := applyMask_onlyLevels b (s.statusMask b) s
  refine ⟨_, hostStep_restore hl hs hok, (applyMask_flashShown hx hd _).endFlash, fun c st hc hc8 hst => ?_, ?_, ?_, ?_⟩
  · simpa [endFlash] using applyMask_restores hx hd hc hc8 hst
  · simp [endFlash, State.setFlashActive, hO.bank]
  · simp [endFlash]
  · simp [endFlash, State.setFlashActive, hO.responses]

/-- Settles O59: a mask step (`hostStep_flashMask`) or the restore (`hostStep_flashRestore`). -/
theorem flashStepApplies : Obligations.FlashStepApplies := by
  intro s b masks hs hl hx hd
  cases masks with
  | cons m rest =>
    obtain ⟨t, ht, hF, hlevel, hbank, hhost, hresp⟩ := hostStep_flashMask hx hd hl hs
    refine ⟨t, ht, hF.other, hF.latchOnly, hF.otherRecord, by simpa using hF.wires, hF.frame, ?_, by simp⟩
    rintro m' rest' ⟨⟩
    exact ⟨hlevel, hbank, hhost, hresp⟩
  | nil =>
    obtain ⟨t, ht, hF, hover⟩ := hostStep_flashRestore hx hd hl hs
    exact ⟨t, ht, hF.other, hF.latchOnly, hF.otherRecord, by simpa using hF.wires, hF.frame, by simp,
      fun _ => ⟨hover.restored, hover.record, hover.host, hover.response⟩⟩

/-! ### A whole FLASH (R94, R98) -/

theorem hostRun_succ {s t : State} (h : hostStep s = .next t) (n : Nat) : hostRun (n + 1) s = hostRun n t := by
  rw [hostRun, h, andThen]

/-- The masks and the restore, one host step each, from any state inside a FLASH. -/
theorem hostRun_flash {s : State} {b : Bank} {masks : List Byte} (hs : s.host = some (.flash b masks))
    (hl : (s.bank b).lock = none) (hd : b = .d → s.dout.length = s.cfg.nD)
    (hgood : b = .x → s.BusGood (masks.length + 1)) :
    ∃ t, hostRun (masks.length + 1) s = .next t ∧ FlashShown b (masks ++ [s.statusMask b]) s t ∧ FlashOver b s t := by
  have hx (hb : b = .x) : s.nextDraw.ok = true := hgood hb 0 (Nat.succ_pos _)
  induction masks generalizing s with
  | nil =>
    obtain ⟨t, ht, hF, hover⟩ := hostStep_flashRestore hx hd hl hs
    exact ⟨t, hostRun_succ ht 0, hF, hover⟩
  | cons m rest ih =>
    obtain ⟨u, hu, hF, -, hbank, hhost, hresp⟩ := hostStep_flashMask hx hd hl hs
    have hugood (hb : b = .x) : u.BusGood (rest.length + 1) := fun k hk => by
      rw [hF.draws hb]
      exact hgood hb (k + 1) (Nat.succ_lt_succ hk)
    obtain ⟨t, ht, hF', hover⟩ := ih hhost (by rw [hbank]; exact hl) (fun hb => by rw [hF.pins, hF.frame.cfg]; exact hd hb)
      hugood (fun hb => hugood hb 0 (Nat.succ_pos _))
    have hmask : u.statusMask b = s.statusMask b := by rw [State.statusMask, hbank, State.statusMask]
    have hcount : u.count b = s.count b := by rw [State.count, hF.frame.cfg, State.count]
    rw [hmask] at hF'
    refine ⟨t, (hostRun_succ hu _).trans ht, hF.trans hF', ?_, ?_, hover.host, ?_⟩
    · rw [← hbank, ← hcount]
      exact hover.restored
    · rw [← hbank]
      exact hover.record
    · rw [← hresp]
      exact hover.response

/-- The state after step F0: FLASH_ACTIVE, and the masks before the host. -/
def State.flashStarted (s : State) (b : Bank) (masks : List Byte) : State :=
  (s.setFlashActive b true).setHost (some (.flash b masks))

@[simp] theorem flashStarted_bank (s : State) (b : Bank) (masks : List Byte) :
    (s.flashStarted b masks).bank b = { s.bank b with flashActive := true } := by
  simp [State.flashStarted, State.setFlashActive]

theorem flashStarted_responses (s : State) (b : Bank) (masks : List Byte) :
    (s.flashStarted b masks).responses = s.responses := setBank_responses ..

/-- Step F0 shows nothing. -/
theorem flashStarted_shown (s : State) (b : Bank) (masks : List Byte) : FlashShown b [] s (s.flashStarted b masks) where
  other := fun c => by simp [State.flashStarted]
  latchOnly := onlyRegister_of_mem (by simp [State.flashStarted])
  otherRecord := (setHost_bank ..).trans (setBank_bank_ne s (otherBank_ne b) _)
  wires := by simp [State.flashStarted, State.setFlashActive]
  frame := ((OnlyChannels.refl s).setBank b _).setHost _
  pins := by simp [State.flashStarted]
  draws := fun _ n => by simp [State.flashStarted, State.setFlashActive]

/-- With no command in progress no FLASH is active (R22). -/
theorem State.Inv.flash_inactive {s : State} (h : s.Inv) (hn : s.host = none) (b : Bank) :
    (s.bank b).flashActive = false := by
  rw [← Bool.not_eq_true, h.flashInOrder.1 b, hn]
  simp

/-- Settles O36: step F0 shows nothing, and `hostRun_flash` runs the masks and the restore. -/
theorem wholeFlashRestores : Obligations.WholeFlashRestores := by
  intro s b md h hh hn hi masks hgood
  have hstart := flashStarted_shown s b masks
  obtain ⟨t, ht, hF, hover⟩ := hostRun_flash (s := s.flashStarted b masks) (b := b) (masks := masks) rfl
    (by simpa using h.lock_free b) (fun _ => by rw [hstart.pins, hstart.frame.cfg, h.dout_length])
    (fun hb k hk => (congrArg BusDraw.ok (hstart.draws hb k)).trans (hgood hb k hk))
  have hall : FlashShown b (masks ++ [s.statusMask b]) s t := by
    simpa [State.statusMask] using hstart.trans hF
  refine ⟨_, t, execFlash_run hh hi, ht, fun c st hs => ?restored, hall.other, hall.latchOnly, ?record, hall.otherRecord,
    hover.host, flashStarted_responses s b masks ▸ hover.response, hall.wires, hall.frame⟩
  case restored =>
    have hc : c < (s.flashStarted b masks).count b := by
      rw [State.count, hstart.frame.cfg]
      exact h.channel_lt_count hs
    simpa using hover.restored c st hc (h.channel_lt_eight hs) (by simpa using hs)
  case record => rw [hover.record, flashStarted_bank, ← h.flash_inactive hn b]

end Sys2Proof.Machine

namespace Sys2Proof.Machine

/-! ### Which edges the monitor accepts (R101, R102) -/

theorem observed_eq_true_iff (p : Line) (k : EdgeKind) : observed p k = true ↔ p = .back ∨ k = .rise := by
  cases p <;> cases k <;> decide

theorem debounced_eq_true_iff (last : Option Nat) (window t : Nat) :
    debounced last window t = true ↔ ∃ u, last = some u ∧ t - u < window := by
  cases last <;> simp [debounced]

theorem debounced_eq_false_iff (last : Option Nat) (window t : Nat) :
    debounced last window t = false ↔ ∀ u, last = some u → window ≤ t - u := by
  cases last <;> simp [debounced]

/-- The state after an accepted edge (R102 to R105). -/
def State.edgeAccepted (s : State) (p : Line) : EdgeKind → State
  | .rise => pressEdge p (s.acceptEdge p)
  | .fall => releaseEdge (s.acceptEdge p)

/-- A halted block ignores every edge (R107). -/
theorem execEdge_halted {s : State} (hh : s.halted = true) (p : Line) (k : EdgeKind) : exec (.edge p k) s = .next s := by
  simp [exec, execEdge, hh]

theorem execEdge_unobserved {s : State} {p : Line} {k : EdgeKind} (ho : observed p k = false) :
    exec (.edge p k) s = .next s := by
  simp [exec, execEdge, ho]

theorem execEdge_debounced {s : State} {p : Line} (k : EdgeKind)
    (hd : debounced (lineGet s.lastEdge p) s.cfg.debounceMs s.now = true) : exec (.edge p k) s = .next s := by
  simp [exec, execEdge, hd]

theorem execEdge_accepted {s : State} {p : Line} {k : EdgeKind} (hh : s.halted = false) (ho : observed p k = true)
    (hd : debounced (lineGet s.lastEdge p) s.cfg.debounceMs s.now = false) :
    exec (.edge p k) s = .next (s.edgeAccepted p k) := by
  cases k <;> simp [exec, execEdge, hh, ho, hd, State.edgeAccepted]

/-! ### What an accepted edge does (R103 to R106) -/

/-- A press queues one event and touches nothing else but HOLD_START. -/
theorem pressEdge_frame (p : Line) (s : State) :
    pressEdge p s = { s with
      holdStart := (pressEdge p s).holdStart, evq := s.evq ++ [{ src := p, kind := .press, t := s.now }] } := by
  unfold pressEdge
  split <;> rfl

theorem pressEdge_holdStart (p : Line) (s : State) : (pressEdge p s).holdStart =
    if p = .back then if s.inPause then some s.now else none else s.holdStart := by
  unfold pressEdge
  split <;> rfl

theorem releaseEdge_holdStart (s : State) : (releaseEdge s).holdStart = none := by
  unfold releaseEdge
  split
  · assumption
  · rfl

/-- A release touches HOLD_START, which it clears, and the queue only. -/
theorem releaseEdge_frame (s : State) : releaseEdge s = { s with holdStart := none, evq := (releaseEdge s).evq } := by
  rw [← releaseEdge_holdStart s]
  unfold releaseEdge
  split
  · rfl
  · split <;> rfl

theorem releaseEdge_evq_of_none {s : State} (h : s.holdStart = none) : (releaseEdge s).evq = s.evq := by
  simp [releaseEdge, h]

theorem releaseEdge_evq_of_some {s : State} {h : Nat} (hs : s.holdStart = some h) : (releaseEdge s).evq =
    if isLongHold s.cfg (s.now - h) then s.evq ++ [{ src := .back, kind := .longHold, t := s.now }] else s.evq := by
  simp only [releaseEdge, hs]
  split <;> rfl

theorem isLongHold_eq_true_iff (k : Config) (e : Nat) : isLongHold k e = true ↔ k.longMinMs < e ∧ e < k.longMaxMs := by
  simp [isLongHold]

@[simp] theorem edgeAccepted_lastEdge (s : State) (p : Line) (k : EdgeKind) :
    (s.edgeAccepted p k).lastEdge = lineSet s.lastEdge p (some s.now) := by
  cases k with
  | rise => exact congrArg State.lastEdge (pressEdge_frame p (s.acceptEdge p))
  | fall => exact congrArg State.lastEdge (releaseEdge_frame (s.acceptEdge p))

/-- An accepted edge touches the InputMonitor's own fields only. -/
theorem edgeAccepted_frame (s : State) (p : Line) (k : EdgeKind) : s.edgeAccepted p k = { s with
    lastEdge := (s.edgeAccepted p k).lastEdge, holdStart := (s.edgeAccepted p k).holdStart,
    evq := (s.edgeAccepted p k).evq } := by
  cases k with
  | rise => rw [State.edgeAccepted, pressEdge_frame]; rfl
  | fall => rw [State.edgeAccepted, releaseEdge_frame]; rfl

/-- Settles O37: the three outcomes of an edge, by `observed` and `debounced`. -/
theorem edgeDebouncePerLine : Obligations.EdgeDebouncePerLine := by
  intro s p k hh
  refine ⟨fun hp hk => execEdge_unobserved ?unobserved, fun hobs => ⟨fun u hu hlt => ?ignored, fun hwin => ?accepted⟩⟩
  case unobserved => simp [← Bool.not_eq_true, observed_eq_true_iff, hp, hk]
  case ignored => exact execEdge_debounced k ((debounced_eq_true_iff ..).2 ⟨u, hu, hlt⟩)
  case accepted =>
    refine ⟨_, execEdge_accepted hh ((observed_eq_true_iff p k).2 hobs) ((debounced_eq_false_iff ..).2 hwin), ?_,
      fun q hq => ?_, edgeAccepted_frame s p k⟩
    · simp
    · simp [hq]

/-- Settles O38: an accepted rising edge is `pressEdge`. -/
theorem pressAndHoldStart : Obligations.PressAndHoldStart := by
  intro s p hh hwin
  refine ⟨_, execEdge_accepted hh ((observed_eq_true_iff p .rise).2 (.inr rfl)) ((debounced_eq_false_iff ..).2 hwin), ?queue,
    fun hp => ?back, fun hp => ?other, ?last, edgeAccepted_frame s p .rise⟩
  case queue => rw [State.edgeAccepted, pressEdge_frame]; rfl
  case back => rw [State.edgeAccepted, pressEdge_holdStart, if_pos hp]; rfl
  case other => rw [State.edgeAccepted, pressEdge_holdStart, if_neg hp]; rfl
  case last => simp

/-- Settles O39: an accepted falling edge of BACK is `releaseEdge`, whose one branch is `isLongHold`. -/
theorem longHoldWindow : Obligations.LongHoldWindow := by
  intro s hh hwin
  have hframe := releaseEdge_frame (s.acceptEdge .back)
  have hevq (h : Nat) (hs : s.holdStart = some h) := releaseEdge_evq_of_some (s := s.acceptEdge .back) hs
  refine ⟨releaseEdge (s.acceptEdge .back),
    execEdge_accepted hh ((observed_eq_true_iff .back .fall).2 (.inl rfl)) ((debounced_eq_false_iff ..).2 hwin),
    releaseEdge_holdStart _, by rw [hframe]; rfl, (releaseEdge_evq_of_none ·), fun h hs hmin hmax => ?long,
    fun h hs hout => ?short, hframe⟩
  case long => exact (hevq h hs).trans (if_pos ((isLongHold_eq_true_iff ..).2 ⟨hmin, hmax⟩))
  case short =>
    refine (hevq h hs).trans (if_neg fun hlong => ?_)
    obtain ⟨hmin, hmax⟩ : s.cfg.longMinMs < s.now - h ∧ s.now - h < s.cfg.longMaxMs := (isLongHold_eq_true_iff ..).1 hlong
    omega

/-- Settles O40: the hold began at the last accepted edge of BACK, and a release that clears it was not debounced. -/
theorem acceptedReleaseOutlastsDebounce : Obligations.AcceptedReleaseOutlastsDebounce := by
  intro s t h hInv hh hs ht hnone
  obtain ⟨hedge, hback, -, -⟩ := hInv.timesInOrder
  have hlast : lineGet s.lastEdge .back = some h := hback h hs
  refine ⟨?_, hedge .back h hlast⟩
  cases hd : debounced (lineGet s.lastEdge .back) s.cfg.debounceMs s.now with
  | false => exact (debounced_eq_false_iff ..).1 hd h hlast
  | true =>
    rw [execEdge_debounced .fall hd] at ht
    cases ht
    rw [hs] at hnone
    cases hnone

/-! ### The halted block (R107, R112, R123) -/

theorem firstError_checkHalted {s : State} (hh : s.halted = true) (l : List (Option ErrorResult)) :
    firstError (checkHalted s :: l) = some .halted := by
  simp [checkHalted, hh, firstError]

/-- Every command but SHUTDOWN checks HALTED first. -/
theorem execCommand_halted {s : State} {i : Instr} (hh : s.halted = true) (hp : i.port = .command) (hi : i ≠ .shutdown) :
    exec i s = .next (s.raise .halted) := by
  cases i with
  | shutdown => exact absurd rfl hi
  | tick b => cases hp
  | edge p k => cases hp
  | init | wrout _ | rdin | update _ _ _ | flash _ _ | pollev => exact guarded_error (firstError_checkHalted hh _)

theorem execShutdown_halted {s : State} (hh : s.halted = true) : exec .shutdown s = .next (s.respond .done) := by
  simp [exec, execShutdown, hh]

/-- An instruction of a halted block does nothing but answer the host. -/
theorem exec_halted {s t : State} {i : Instr} (hh : s.halted = true) (h : exec i s = .next t) :
    t = s ∨ ∃ r, t = s.respond r := by
  cases hp : i.port with
  | command =>
    by_cases hi : i = .shutdown
    · rw [hi, execShutdown_halted hh] at h
      cases h
      exact .inr ⟨_, rfl⟩
    · rw [execCommand_halted hh hp hi] at h
      cases h
      exact .inr ⟨_, rfl⟩
  | stimulus =>
    cases i with
    | tick b => rw [execTick_halted hh] at h; cases h; exact .inl rfl
    | edge p k => rw [execEdge_halted hh] at h; cases h; exact .inl rfl
    | init | wrout _ | rdin | update _ _ _ | flash _ _ | pollev | shutdown => cases hp

/-- Everything but the renderers' places, the clock, `in_pause`, the schedule and the responses keeps its value. -/
def OnlyIdling (s t : State) : Prop :=
  t = { s with
    bankX := { s.bankX with pass := t.bankX.pass }, bankD := { s.bankD with pass := t.bankD.pass }, now := t.now,
    inPause := t.inPause, inputs := t.inputs, responses := t.responses }

theorem OnlyIdling.refl (s : State) : OnlyIdling s s := rfl

theorem OnlyIdling.of_takeSlot {s t : State} {slot : Slot} {rest : List Slot} (h : OnlyIdling (s.takeSlot slot rest) t) :
    OnlyIdling s t := h

theorem respond_onlyIdling (s : State) (r : Response) : OnlyIdling s (s.respond r) := rfl

theorem exec_onlyIdling {s t : State} {i : Instr} (hh : s.halted = true) (h : exec i s = .next t) : OnlyIdling s t := by
  obtain rfl | ⟨r, rfl⟩ := exec_halted hh h
  · exact .refl _
  · exact respond_onlyIdling s r

/-- A halted renderer runs its pass out and applies nothing (R90). -/
theorem rendererStep_onlyIdling {s t : State} {b : Bank} (hh : s.halted = true) (h : rendererStep b s = .next t) :
    OnlyIdling s t := by
  obtain ⟨-, rfl⟩ | ⟨r, c, rest, -, -, ⟨rfl, -⟩ | ⟨hrun, -⟩⟩ := rendererStep_next h
  · exact .refl _
  · cases b <;> rfl
  · rw [hh] at hrun
    cases hrun

/-- The host of a halted block has no command in progress (R110). -/
theorem hostStep_onlyIdling {s t : State} (hn : s.host = none) (h : hostStep s = .next t) : OnlyIdling s t := by
  rw [hostStep, hn] at h
  cases h
  exact .refl _

theorem perform_onlyIdling {s t : State} {a : Activity} (hh : s.halted = true) (hn : s.host = none) (ha : a ≠ .reset)
    (h : perform a s = .next t) : OnlyIdling s t := by
  obtain ⟨_, i, -, -, he⟩ | ⟨_, e, -, rfl⟩ | ⟨_, i, -, -, he⟩ | ⟨-, he⟩ | ⟨b, -, he⟩ | ⟨hreset, -⟩ := perform_next h
  · exact exec_onlyIdling hh he
  · exact respond_onlyIdling s _
  · exact exec_onlyIdling hh he
  · exact hostStep_onlyIdling hn he
  · exact rendererStep_onlyIdling hh he
  · exact absurd hreset ha

/-- Settles O45: instructions by `execCommand_halted` and the two stimuli, a step by what a turn and an entry can do. -/
theorem haltedUntilReset : Obligations.HaltedUntilReset := by
  intro s hh
  refine ⟨fun i hp hi => execCommand_halted hh hp hi, fun _ => execTick_halted hh, execEdge_halted hh,
    fun hInv t slot rest hi hreset ht => ?_⟩
  have hn : s.host = none := hInv.darkWhenHalted.2.2 hh
  obtain rfl | ⟨-, he⟩ | ⟨b, he⟩ | ⟨slot', rest', hi', -, -, he⟩ := step_next ht
  · exact .refl _
  · exact hostStep_onlyIdling hn he
  · exact rendererStep_onlyIdling hh he
  · obtain ⟨rfl, rfl⟩ := List.cons.inj (hi.symm.trans hi')
    exact (perform_onlyIdling (s := s.takeSlot slot rest) hh hn hreset he).of_takeSlot

/-! ### POLLEV (R109) -/

theorem execPollev_empty {s : State} (hh : s.halted = false) (hq : s.evq = []) :
    exec .pollev s = .next (s.respond (.withEvent none)) := by
  simp [exec, execPollev, guarded, checkHalted, firstError, hh, hq]

theorem execPollev_oldest {s : State} {e : ButtonEvent} {rest : List ButtonEvent} (hh : s.halted = false)
    (hq : s.evq = e :: rest) : exec .pollev s = .next ({ s with evq := rest }.respond (.withEvent (some e))) := by
  simp [exec, execPollev, guarded, checkHalted, firstError, hh, hq]

/-- Settles O41: HALTED is the one check, and the queue's two cases are POLLEV's. -/
theorem pollTakesOldestEvent : Obligations.PollTakesOldestEvent := by
  refine ⟨⟨by decide, by decide⟩, fun s => ⟨fun hh => ?halted, fun hh hq => ?empty, fun e rest hh hq => ?oldest⟩⟩
  case halted => exact execCommand_halted hh rfl (by simp)
  case empty => exact execPollev_empty hh hq
  case oldest => exact execPollev_oldest hh hq

end Sys2Proof.Machine

namespace Sys2Proof.Machine

/-! ### Frames of a change of the host's place, and of HALTED -/

theorem OnlyBus.setHost {s u : State} (h : OnlyBus s u) (o : Option HostOp) :
    OnlyBus { s with host := o } (u.setHost o) := by
  rw [h]
  rfl

theorem OnlyPins.setHost {s u : State} (h : OnlyPins s u) (o : Option HostOp) :
    OnlyPins { s with host := o } (u.setHost o) := by
  rw [h]
  rfl

theorem OnlyChannels.setHalted {s u : State} (h : OnlyChannels s u) (v : Bool) :
    OnlyChannels { s with halted := v } (u.setHalted v) := by
  rw [h]
  rfl

/-! ### SHUTDOWN's step S1 (R110) -/

/-- The one transaction that S1 may make: the latch written 0x00, if the expander was initialized. -/
def clearLatch (s : State) : State × Option BusError :=
  if s.initialized then busWrite .olatA 0x00#8 s else (s, none)

section
variable {s : State}

theorem clearLatch_initialized (hi : s.initialized = true) : clearLatch s = busWrite .olatA 0x00#8 s := if_pos hi

theorem clearLatch_uninitialized (hi : s.initialized = false) : clearLatch s = (s, none) := if_neg (by simp [hi])

theorem clearLatch_ok (hi : s.initialized = true) (hok : s.nextDraw.ok = true) :
    (clearLatch s).1.exp .olatA = 0x00#8 ∧ (clearLatch s).2 = none := by
  rw [clearLatch_initialized hi, busWrite_ok hok]
  simp

theorem clearLatch_fails (hi : s.initialized = true) (hfail : s.nextDraw.ok = false) :
    (clearLatch s).1.exp .olatA = (if s.nextDraw.landed then 0x00#8 else s.exp .olatA) ∧
      (clearLatch s).2 = some { reg := s.addr .olatA, dir := .write } := by
  rw [clearLatch_initialized hi]
  exact ⟨busWrite_fail_exp hfail, by rw [busWrite_fail hfail]⟩

variable (s)

theorem clearLatch_onlyBus : OnlyBus s (clearLatch s).1 := by
  cases hi : s.initialized
  · rw [clearLatch_uninitialized hi]; rfl
  · rw [clearLatch_initialized hi]; exact busWrite_onlyBus ..

theorem clearLatch_onlyRegister : OnlyRegister .olatA s (clearLatch s).1 := by
  cases hi : s.initialized
  · rw [clearLatch_uninitialized hi]; exact onlyRegister_of_mem rfl
  · rw [clearLatch_initialized hi]; exact busWrite_onlyRegister _ _ s

theorem clearLatch_responses : (clearLatch s).1.responses = s.responses := by
  cases hi : s.initialized
  · rw [clearLatch_uninitialized hi]
  · rw [clearLatch_initialized hi, busWrite_responses]

theorem clearLatch_trace : (clearLatch s).1.trace = s.trace ++
    if s.initialized then [.busWrite s.cfg.slaveAddr (s.addr .olatA) 0x00#8 s.nextDraw.ok] else [] := by
  cases hi : s.initialized
  · simp [clearLatch_uninitialized hi]
  · simp [clearLatch_initialized hi, busWrite_trace]

/-- The state after step S1: bank X OFF, the latch cleared, and step S2 before the host with the error S1 keeps. -/
def State.shutdownBegun : State :=
  ((clearLatch s).1.setBank .x { s.bankX with status := List.replicate Config.nX .off }).setHost
    (some (.shutdownPins (clearLatch s).2))

@[simp] theorem shutdownBegun_bankX :
    s.shutdownBegun.bankX = { s.bankX with status := List.replicate Config.nX .off } := rfl

@[simp] theorem shutdownBegun_host : s.shutdownBegun.host = some (.shutdownPins (clearLatch s).2) := rfl

@[simp] theorem shutdownBegun_mem : s.shutdownBegun.mem = (clearLatch s).1.mem := rfl

@[simp] theorem shutdownBegun_exp (r : ExpReg) : s.shutdownBegun.exp r = (clearLatch s).1.exp r := rfl

@[simp] theorem shutdownBegun_responses : s.shutdownBegun.responses = s.responses := clearLatch_responses s

@[simp] theorem shutdownBegun_trace : s.shutdownBegun.trace = s.trace ++
    if s.initialized then [.busWrite s.cfg.slaveAddr (s.addr .olatA) 0x00#8 s.nextDraw.ok] else [] := clearLatch_trace s

theorem shutdownBegun_onlyBus :
    OnlyBus { s with bankX := s.shutdownBegun.bankX, host := s.shutdownBegun.host } s.shutdownBegun :=
  ((clearLatch_onlyBus s).setBankX _).setHost _

@[simp] theorem shutdownBegun_cfg : s.shutdownBegun.cfg = s.cfg := (shutdownBegun_onlyBus s).cfg

@[simp] theorem shutdownBegun_bankD : s.shutdownBegun.bankD = s.bankD := by rw [shutdownBegun_onlyBus s]

@[simp] theorem shutdownBegun_dout : s.shutdownBegun.dout = s.dout := by rw [shutdownBegun_onlyBus s]

theorem shutdownBegun_onlyRegister : OnlyRegister .olatA s s.shutdownBegun :=
  (clearLatch_onlyRegister s).congr_mem rfl

theorem shutdownBegun_onlyChannels : OnlyChannels s s.shutdownBegun := by
  rw [shutdownBegun_onlyBus s]
  rfl

end

/-- SHUTDOWN of a block that is not halted is step S1, before INIT as after it. -/
theorem execShutdown_run {s : State} (hh : s.halted = false) (hl : s.bankX.lock = none) :
    exec .shutdown s = .next s.shutdownBegun := by
  cases hi : s.initialized
  · rw [execShutdown_uninitialized hh hi hl, State.shutdownBegun, clearLatch_uninitialized hi]
  · rw [execShutdown_initialized hh hi hl, State.shutdownBegun, clearLatch_initialized hi]

/-- Settles O42: step S1 is its latch write (`clearLatch`), absent before INIT, good or failed after it. -/
theorem shutdownBegins : Obligations.ShutdownBegins := by
  intro s hh hl
  refine ⟨_, execShutdown_run hh hl, shutdownBegun_bankX s, fun hi => ?before, fun hi => ?wires, fun hi hok => ?good,
    fun hi hfail => ?failed, shutdownBegun_onlyRegister s, shutdownBegun_responses s, shutdownBegun_onlyBus s⟩
  case before => simp [hi, clearLatch_uninitialized hi]
  case wires => simp [hi]
  case good => simpa using clearLatch_ok hi hok
  case failed => simpa using clearLatch_fails hi hfail

/-! ### SHUTDOWN's steps S2 and S3 (R110) -/

/-- Bank D with every status OFF and every pin written 0: what step S2 does to the lamps. -/
def State.directDark (s : State) : State :=
  (pinWrites 0x00#8 (List.range s.cfg.nD) s).setBank .d { s.bankD with status := List.replicate s.cfg.nD .off }

section
variable (s : State)

@[simp] theorem directDark_bankD : s.directDark.bankD = { s.bankD with status := List.replicate s.cfg.nD .off } := rfl

@[simp] theorem directDark_trace : s.directDark.trace =
    s.trace ++ (List.range s.cfg.nD).map (fun c => .pinWrite c (s.cfg.pinOut.getD c 0) false) := by
  simp [State.directDark, pinWrites_trace]

theorem directDark_dout {s : State} (hlen : s.dout.length = s.cfg.nD) :
    s.directDark.dout = List.replicate s.cfg.nD (some false) := by
  simpa [State.directDark] using pinWrites_dout_uniform hlen fun _ _ => BitVec.getLsbD_zero

theorem directDark_onlyPins : OnlyPins { s with bankD := s.directDark.bankD } s.directDark :=
  (pinWrites_onlyPins ..).setBankD _

@[simp] theorem directDark_cfg : s.directDark.cfg = s.cfg := by rw [directDark_onlyPins s]

@[simp] theorem directDark_bankX : s.directDark.bankX = s.bankX := by rw [directDark_onlyPins s]

@[simp] theorem directDark_mem : s.directDark.mem = s.mem := by rw [directDark_onlyPins s]

@[simp] theorem directDark_exp (r : ExpReg) : s.directDark.exp r = s.exp r :=
  exp_congr (directDark_mem s) (directDark_cfg s) r

@[simp] theorem directDark_responses : s.directDark.responses = s.responses := (pinWrites_onlyLevels ..).responses

theorem directDark_onlyChannels : OnlyChannels s s.directDark := (pinWrites_onlyLevels ..).onlyChannels.setBank .d _

end

/-- The block halted and the host answered with the error S1 kept, or with OK: step S3. -/
def State.shutdownEnded (s : State) (err : Option BusError) : State := finish err ((s.setHalted true).setHost none)

section
variable (s : State) (err : Option BusError)

@[simp] theorem shutdownEnded_halted : (s.shutdownEnded err).halted = true := finish_halted ..
@[simp] theorem shutdownEnded_host : (s.shutdownEnded err).host = none := finish_host ..
@[simp] theorem shutdownEnded_bankX : (s.shutdownEnded err).bankX = s.bankX := finish_bankX ..
@[simp] theorem shutdownEnded_bankD : (s.shutdownEnded err).bankD = s.bankD := finish_bankD ..
@[simp] theorem shutdownEnded_dout : (s.shutdownEnded err).dout = s.dout := finish_dout ..
@[simp] theorem shutdownEnded_mem : (s.shutdownEnded err).mem = s.mem := finish_mem ..
@[simp] theorem shutdownEnded_exp (r : ExpReg) : (s.shutdownEnded err).exp r = s.exp r := finish_exp ..
@[simp] theorem shutdownEnded_trace : (s.shutdownEnded err).trace = s.trace := finish_trace ..

@[simp] theorem shutdownEnded_none_responses : (s.shutdownEnded none).responses = s.responses ++ [{ code := .ok }] := rfl

@[simp] theorem shutdownEnded_some_responses (e : BusError) : (s.shutdownEnded (some e)).responses =
    s.responses ++ [{ code := .busError, reg := some e.reg, dir := some e.dir }] := rfl

theorem shutdownEnded_onlyChannels {u : State} (h : OnlyChannels s u) :
    OnlyChannels { s with halted := true } (u.shutdownEnded err) :=
  ((h.setHalted true).setHost none).finish err

end

theorem hostStep_shutdownPins {s : State} {err : Option BusError} (hs : s.host = some (.shutdownPins err))
    (hl : s.bankD.lock = none) : hostStep s = .next (s.directDark.setHost (some (.shutdownHalt err))) := by
  rw [hostStep, hs]
  exact shutdownPinsStep_run hl

theorem hostStep_shutdownHalt {s : State} {err : Option BusError} (hs : s.host = some (.shutdownHalt err)) :
    hostStep s = .next (s.shutdownEnded err) := by
  rw [hostStep, hs]
  rfl

/-- Settles O60: S2 is `hostStep_shutdownPins`, S3 is `hostStep_shutdownHalt`. -/
theorem shutdownContinues : Obligations.ShutdownContinues := by
  refine ⟨fun s err hs hl hlen => ?pins, fun _ hs => hostStep_shutdownHalt hs, fun _ _ hs => hostStep_shutdownHalt hs⟩
  exact ⟨_, hostStep_shutdownPins hs hl, directDark_bankD s, directDark_dout hlen, rfl, directDark_trace s,
    directDark_responses s, (directDark_onlyPins s).setHost _⟩

/-! ### The whole of SHUTDOWN (R110) -/

/-- S2 and S3 with no other agent between them. -/
theorem hostRun_shutdown {s : State} {err : Option BusError} (hs : s.host = some (.shutdownPins err))
    (hl : s.bankD.lock = none) : hostRun 2 s = .next (s.directDark.shutdownEnded err) := by
  rw [hostRun_succ (hostStep_shutdownPins hs hl), hostRun_succ (hostStep_shutdownHalt rfl)]
  rfl

/-- Settles O43: step S1 (`execShutdown_run`), then S2 and S3 (`hostRun_shutdown`). -/
theorem wholeShutdownHalts : Obligations.WholeShutdownHalts := by
  intro s h hh _
  have hrun : hostRun 2 s.shutdownBegun = .next (s.shutdownBegun.directDark.shutdownEnded (clearLatch s).2) :=
    hostRun_shutdown (shutdownBegun_host s) ((congrArg BankState.lock (shutdownBegun_bankD s)).trans (h.lock_free .d))
  refine ⟨_, _, execShutdown_run hh (h.lock_free .x), hrun, ?halted, ?host, ?bankX, ?bankD, ?dout, ?latchOnly,
    fun hi => ?before, fun hi hok => ?good, fun hi hfail => ?failed, ?wires, ?frame⟩
  case halted => exact shutdownEnded_halted ..
  case host => exact shutdownEnded_host ..
  case bankX => simp [Config.nX]
  case bankD => simp
  case dout => simp [directDark_dout, h.dout_length]
  case latchOnly => exact (shutdownBegun_onlyRegister s).congr_mem (by simp)
  case before => simp [clearLatch_uninitialized hi]
  case good =>
    obtain ⟨hexp, herr⟩ := clearLatch_ok hi hok
    simp [hexp, herr]
  case failed =>
    obtain ⟨hexp, herr⟩ := clearLatch_fails hi hfail
    simp [hexp, herr]
  case wires => simp
  case frame =>
    exact shutdownEnded_onlyChannels _ _ ((shutdownBegun_onlyChannels s).trans (directDark_onlyChannels s.shutdownBegun))

/-! ### SHUTDOWN again, and SHUTDOWN inside a FLASH (R111) -/

/-- Settles O44: a halted block only answers OK, and a command word waits for the FLASH in progress. -/
theorem shutdownIdempotent : Obligations.ShutdownIdempotent := by
  refine ⟨fun _ hh => execShutdown_halted hh, fun s slot rest b masks hi hc hs => ?_⟩
  calc step s = agentStep .host s := step_of_waitsFor hi (hc ▸ waitsFor_command_busy hs _)
    _ = flashStep b masks s := by rw [agentStep, hostStep, hs]

end Sys2Proof.Machine

namespace Sys2Proof.Machine

/-! ### A block that is not ready, and a halted block (R121, R123, R125) -/

/-- With the block running and INIT not yet successful, the check of INITIALIZED is the first that fails. -/
theorem firstError_notInitialized {s : State} (hh : s.halted = false) (hi : s.initialized = false)
    (l : List (Option ErrorResult)) : firstError (checkHalted s :: checkInitialized s :: l) = some .notInitialized := by
  simp [checkHalted, checkInitialized, firstError, hh, hi]

/-- Settles O17: INITIALIZED is the first check that fails (`firstError_notInitialized`); UPDATE by its own order of checks. -/
theorem notInitializedCommands : Obligations.NotInitializedCommands := by
  intro s i hh hi hform
  obtain ⟨m, rfl⟩ | rfl | ⟨md, rfl⟩ | ⟨c, st, rfl, hc⟩ := hform
  case inl | inr.inl | inr.inr.inl => exact guarded_error (firstError_notInitialized hh hi [])
  case inr.inr.inr =>
    obtain ⟨-, hchan, hall, -⟩ := updateChecksInOrder s .x st hh
    obtain rfl | ⟨n, rfl, hn⟩ := hc
    · exact hall rfl hi
    · exact hchan n hn rfl hi

/-- Settles O18: every command but SHUTDOWN makes the check of HALTED first (`execCommand_halted`). -/
theorem haltedCommands : Obligations.HaltedCommands := fun _ _ hh hp hi => execCommand_halted hh hp hi

/-! ### With the locks free, every operation answers a next state (R50, R116) -/

theorem withLock_total {b : Bank} {a : Agent} {body : State → State × Option BusError}
    {after : Option BusError → State → State} {s : State} (hl : (s.bank b).lock = none) :
    ∃ t, withLock b a body after s = .next t := ⟨_, withLock_free hl⟩

/-- A failed check is a response like any other, so only the body can keep a command from answering. -/
theorem guarded_total {checks : List (Option ErrorResult)} {s : State} {body : Host.Outcome State Fault Refusal}
    (h : ∃ t, body = .next t) : ∃ t, guarded checks s body = .next t := by
  obtain ⟨e, -, he⟩ | ⟨-, he⟩ := guarded_cases checks s body
  · exact ⟨_, he⟩
  · rwa [he]

theorem updateChannel_total {s : State} {b : Bank} (hl : (s.bank b).lock = none) (c : Nat) (st : Status) :
    ∃ t, updateChannel b c st s = .next t := by
  cases st with
  | off => exact withLock_total hl
  | on => exact withLock_total hl
  | blink r => exact ⟨_, rfl⟩

/-- The broadcast blink ends with an error's response, or, its checks passed, is refused (R84, R124). -/
theorem execUpdate_broadcastBlink (s : State) (b : Bank) (k : Blink) :
    (∃ t, exec (.update b .all (.blink k)) s = .next t) ∨
      exec (.update b .all (.blink k)) s = .refused .broadcastBlink := by
  obtain ⟨e, -, he⟩ | ⟨-, he⟩ := guarded_cases [checkHalted s, checkChannel b .all s, checkBankReady b s] s
    (updateAll b (.blink k) s)
  · exact .inl ⟨_, he⟩
  · exact .inr he

theorem flashStep_total {s : State} {b : Bank} (hl : (s.bank b).lock = none) (masks : List Byte) :
    ∃ t, flashStep b masks s = .next t := by
  cases masks with
  | nil => exact withLock_total hl
  | cons m rest => exact withLock_total hl

/-! ### Every step answers, or is refused for a spelling of R124 (R116) -/

/-- The two spellings that have no meaning (R124): a word on the stimulus port that decodes to no stimulus, and an UPDATE of ALL
channels with a blink status; `r` is the refusal each is given. -/
def Activity.MisSpelled (a : Activity) (r : Refusal) : Prop :=
  (∃ w, a = .stimulus w ∧ r = .illegalStimulus w ∧ ∀ i, decode .stimulus w ≠ .ok i) ∨
    ∃ w b k, a = .command w ∧ r = .broadcastBlink ∧ decode .command w = .ok (.update b .all (.blink k))

section
variable {s : State} (hl : ∀ b, (s.bank b).lock = none)
include hl

theorem hostStep_total : ∃ t, hostStep s = .next t := by
  rw [hostStep]
  split
  case h_1 => exact ⟨_, rfl⟩
  case h_2 b masks _ => exact flashStep_total (hl b) masks
  case h_3 => exact withLock_total (hl .d)
  case h_4 => exact ⟨_, rfl⟩

theorem agentStep_total (a : Agent) : ∃ t, agentStep a s = .next t := by
  cases a with
  | host => exact hostStep_total hl
  | renderer b => exact rendererStep_total (hl b)
  | edge _ => exact ⟨_, rfl⟩

theorem execShutdown_total : ∃ t, exec .shutdown s = .next t := by
  cases hh : s.halted
  · exact ⟨_, execShutdown_run hh (hl .x)⟩
  · exact ⟨_, execShutdown_halted hh⟩

/-- With the locks free an instruction answers a next state, or is the broadcast blink refused (R84, R116). -/
theorem exec_answers (i : Instr) :
    (∃ t, exec i s = .next t) ∨ ∃ b k, i = .update b .all (.blink k) ∧ exec i s = .refused .broadcastBlink := by
  cases i with
  | init => exact .inl (guarded_total ⟨_, rfl⟩)
  | wrout m => exact .inl (guarded_total (withLock_total (hl .x)))
  | rdin => exact .inl (guarded_total ⟨_, rfl⟩)
  | update b c st =>
    cases c with
    | chan n => exact .inl (guarded_total (updateChannel_total (hl b) n.toNat st))
    | all =>
      cases st with
      | off => exact .inl (guarded_total (withLock_total (hl b)))
      | on => exact .inl (guarded_total (withLock_total (hl b)))
      | blink k => exact (execUpdate_broadcastBlink s b k).imp_right fun he => ⟨b, k, rfl, he⟩
  | flash b md => exact .inl (guarded_total ⟨_, rfl⟩)
  | pollev => exact .inl (guarded_total (by cases s.evq <;> exact ⟨_, rfl⟩))
  | shutdown => exact .inl (execShutdown_total hl)
  | tick b => exact .inl ⟨_, rfl⟩
  | edge p k => exact .inl ⟨_, rfl⟩

/-- With the locks free an entry that need not wait answers a next state, or is refused as R124 says. -/
theorem perform_answers (a : Activity) :
    (∃ t, perform a s = .next t) ∨ ∃ r, a.MisSpelled r ∧ perform a s = .refused r := by
  cases a with
  | command w =>
    obtain ⟨i, hd, hrun⟩ | ⟨-, hrun⟩ := runCommand_cases w s
    · obtain ⟨t, ht⟩ | ⟨b, k, rfl, hr⟩ := exec_answers hl i
      · exact .inl ⟨t, hrun.trans ht⟩
      · exact .inr ⟨_, .inr ⟨w, b, k, rfl, rfl, hd⟩, hrun.trans hr⟩
    · exact .inl ⟨_, hrun⟩
  | stimulus w =>
    obtain ⟨i, hd, hrun⟩ | ⟨hd, hrun⟩ := runStimulus_cases w s
    · obtain ⟨t, ht⟩ | ⟨b, k, rfl, -⟩ := exec_answers hl i
      · exact .inl ⟨t, hrun.trans ht⟩
      · cases decodeStimulus_port hd
    · exact .inr ⟨_, .inl ⟨w, rfl, rfl, hd⟩, hrun⟩
  | hostTurn => exact .inl (hostStep_total hl)
  | rendererTurn b => exact .inl (rendererStep_total (hl b))
  | reset => exact .inl ⟨_, rfl⟩

end

/-- From a state of the invariant a step answers a next state, or takes up a word of R124 and is refused for it. -/
theorem step_answers {s : State} (h : s.Inv) :
    (∃ t, step s = .next t) ∨
      ∃ slot rest r, s.inputs = slot :: rest ∧ slot.activity.MisSpelled r ∧ step s = .refused r := by
  obtain ⟨-, he⟩ | ⟨slot, rest, hi, ⟨a, -, he⟩ | ⟨-, he⟩⟩ := step_cases s
  · exact .inl ⟨_, he⟩
  · exact .inl (he ▸ agentStep_total h.lock_free a)
  · obtain ⟨t, ht⟩ | ⟨r, hm, hr⟩ := perform_answers (h.takeSlot slot rest).lock_free slot.activity
    · exact .inl ⟨t, he.trans ht⟩
    · exact .inr ⟨slot, rest, r, hi, hm, he.trans hr⟩

/-- Settles O51: no answer of `step_answers` is a fault, and its refusals are those of R124. -/
theorem stepNeverFaults : Obligations.StepNeverFaults := by
  intro s h
  obtain ⟨t, ht⟩ | ⟨slot, rest, r, hi, hm, hr⟩ := step_answers h
  · exact ⟨by simp [ht], by simp [ht]⟩
  · refine ⟨by simp [hr], fun r' hr' => ⟨slot, rest, hi, ?_⟩⟩
    cases hr.symm.trans hr'
    exact hm

end Sys2Proof.Machine

namespace Sys2Proof.Machine

/-! ### A reset while the device runs (R136, R138) -/

/-- Settles O47: a reset waits for no agent, and `State.restart` keeps what the entry it was taken from has set. -/
theorem resetKeepsExpander : Obligations.ResetKeepsExpander := by
  intro s slot rest hi ha
  have hw : s.waitsFor slot.activity = none := by rw [ha]; rfl
  calc step s
      = perform .reset (s.takeSlot slot rest) := by rw [step_of_waitsFor_none hi hw, ha]
    _ = .next (s.takeSlot slot rest).restart := rfl

/-! ### How much a step shows at the wires and returns to the host (R150) -/

/-- An event at the wires that is a bus transaction (R40, R41). -/
def IoEvent.isBus (e : IoEvent) : Bool :=
  match e with
  | .pinWrite _ _ _ => false
  | .busRead _ _ _ => true
  | .busWrite _ _ _ _ => true

/-- An event at the wires that is a direct pin write (R55). -/
def IoEvent.isPin (e : IoEvent) : Bool :=
  match e with
  | .pinWrite _ _ _ => true
  | .busRead _ _ _ => false
  | .busWrite _ _ _ _ => false

/-- From s to t at most so many bus transactions and pin writes are seen and at most so many responses returned, all added
at the end of what was there. -/
def AddsAtMost (buses pins answers : Nat) (s t : State) : Prop :=
  ∃ seen returned, t.trace = s.trace ++ seen ∧ t.responses = s.responses ++ returned ∧ returned.length ≤ answers ∧
    (seen.filter IoEvent.isBus).length ≤ buses ∧ (seen.filter IoEvent.isPin).length ≤ pins

section
variable {buses pins answers buses' pins' answers' : Nat} {s t u : State}

theorem AddsAtMost.of_same (htrace : t.trace = s.trace) (hresponses : t.responses = s.responses) :
    AddsAtMost 0 0 0 s t :=
  ⟨[], [], by simpa using htrace, by simpa using hresponses, le_rfl, le_rfl, le_rfl⟩

theorem AddsAtMost.refl (s : State) : AddsAtMost 0 0 0 s s := .of_same rfl rfl

theorem AddsAtMost.trans (h : AddsAtMost buses pins answers s t) (k : AddsAtMost buses' pins' answers' t u) :
    AddsAtMost (buses + buses') (pins + pins') (answers + answers') s u := by
  obtain ⟨seen, returned, htrace, hresponses, hanswers, hbuses, hpins⟩ := h
  obtain ⟨seen', returned', htrace', hresponses', hanswers', hbuses', hpins'⟩ := k
  refine ⟨seen ++ seen', returned ++ returned', by simp [htrace', htrace], by simp [hresponses', hresponses], ?_, ?_, ?_⟩
  · rw [List.length_append]; omega
  · rw [List.filter_append, List.length_append]; omega
  · rw [List.filter_append, List.length_append]; omega

theorem AddsAtMost.mono (h : AddsAtMost buses pins answers s t) (hbuses : buses ≤ buses') (hpins : pins ≤ pins')
    (hanswers : answers ≤ answers') : AddsAtMost buses' pins' answers' s t := by
  obtain ⟨seen, returned, htrace, hresponses, ha, hb, hp⟩ := h
  exact ⟨seen, returned, htrace, hresponses, ha.trans hanswers, hb.trans hbuses, hp.trans hpins⟩

theorem AddsAtMost.setBank (h : AddsAtMost buses pins answers s t) (b : Bank) (v : BankState) :
    AddsAtMost buses pins answers s (t.setBank b v) := h.trans (.of_same (setBank_trace ..) (setBank_responses ..))

theorem AddsAtMost.setHost (h : AddsAtMost buses pins answers s t) (o : Option HostOp) :
    AddsAtMost buses pins answers s (t.setHost o) := h

theorem AddsAtMost.setInitialized (h : AddsAtMost buses pins answers s t) (v : Bool) :
    AddsAtMost buses pins answers s (t.setInitialized v) := h

theorem AddsAtMost.setHalted (h : AddsAtMost buses pins answers s t) (v : Bool) :
    AddsAtMost buses pins answers s (t.setHalted v) := h

theorem AddsAtMost.respond (h : AddsAtMost buses pins answers s t) (r : Response) :
    AddsAtMost buses pins (answers + 1) s (t.respond r) :=
  h.trans ⟨[], [r], by simp, rfl, le_rfl, le_rfl, le_rfl⟩

theorem AddsAtMost.finish (h : AddsAtMost buses pins answers s t) (e : Option BusError) :
    AddsAtMost buses pins (answers + 1) s (finish e t) := by
  cases e <;> exact h.respond _

end

/-! ### The operations, one by one -/

/-- A read is seen at the wires with the value it returned, if it returned one. -/
theorem busRead_trace (r : ExpReg) (s : State) : (busRead r s).1.trace = s.trace ++
    [.busRead s.cfg.slaveAddr (s.addr r) (if s.nextDraw.ok then some (s.readValue r s.nextDraw) else none)] := by
  cases hok : s.nextDraw.ok
  · simp [busRead_fail hok]
  · simp [busRead_ok hok]

theorem busRead_adds (r : ExpReg) (s : State) : AddsAtMost 1 0 0 s (busRead r s).1 :=
  ⟨_, [], busRead_trace r s, by simp, le_rfl, le_rfl, le_rfl⟩

theorem busWrite_adds (r : ExpReg) (v : Byte) (s : State) : AddsAtMost 1 0 0 s (busWrite r v s).1 :=
  ⟨_, [], busWrite_trace r v s, by simp, le_rfl, le_rfl, le_rfl⟩

theorem busWrites_adds (l : List (ExpReg × Byte)) (s : State) : AddsAtMost l.length 0 0 s (busWrites l s).1 := by
  induction l generalizing s with
  | nil => exact .refl s
  | cons p rest ih =>
    have hw := busWrite_adds p.1 p.2 s
    rw [busWrites]
    rcases he : busWrite p.1 p.2 s with ⟨u, _ | e⟩ <;> rw [he] at hw
    · exact (hw.trans (ih u)).mono (by simp [Nat.add_comm]) le_rfl le_rfl
    · exact hw.mono (by simp) le_rfl le_rfl

theorem pinWrite_adds (c : Nat) (lvl : Bool) (s : State) : AddsAtMost 0 1 0 s (pinWrite c lvl s) :=
  ⟨[.pinWrite c (s.cfg.pinOut.getD c 0) lvl], [], rfl, by simp [pinWrite], le_rfl, le_rfl, le_rfl⟩

theorem pinWrites_adds (m : Byte) (l : List Nat) (s : State) : AddsAtMost 0 l.length 0 s (pinWrites m l s) := by
  induction l generalizing s with
  | nil => exact .refl s
  | cons c rest ih => exact ((pinWrite_adds c _ s).trans (ih _)).mono le_rfl (by simp [Nat.add_comm]) le_rfl

/-- ApplyBit (R54, R55): a read and a write on bank X, one pin write on bank D. -/
theorem applyBit_adds (b : Bank) (c : Nat) (lvl : Bool) (s : State) : AddsAtMost 2 1 0 s (applyBit b c lvl s).1 := by
  cases b with
  | d => exact (pinWrite_adds c lvl s).mono (by omega) le_rfl le_rfl
  | x =>
    have hr := busRead_adds .olatA s
    rw [applyBit, applyBitX]
    rcases he : busRead .olatA s with ⟨u, e | v⟩ <;> rw [he] at hr
    · exact hr.mono (by omega) (by omega) le_rfl
    · exact (hr.trans (busWrite_adds ..)).mono le_rfl (by omega) le_rfl

/-- ApplyMask (R56): one write on bank X, one pin write for each channel on bank D. -/
theorem applyMask_adds (b : Bank) (m : Byte) (s : State) : AddsAtMost 1 s.cfg.nD 0 s (applyMask b m s).1 := by
  cases b with
  | x => exact (busWrite_adds ..).mono le_rfl (by omega) le_rfl
  | d => exact (pinWrites_adds ..).mono (by omega) (by simp [State.count, channelCount]) le_rfl

/-! ### Every turn and every instruction stays within R150 -/

/-- The bounds of R150: 4 bus transactions, `N_D` pin writes, one response. -/
abbrev EffectsBounded (s t : State) : Prop := AddsAtMost 4 (max 1 s.cfg.nD) 1 s t

/-- Within R150 is what adds at most 4 transactions, one pin write or one for each direct channel, and one response. -/
theorem AddsAtMost.bounded {buses pins answers : Nat} {s t : State} (h : AddsAtMost buses pins answers s t)
    (hbuses : buses ≤ 4 := by omega) (hpins : pins ≤ max 1 s.cfg.nD := by omega) (hanswers : answers ≤ 1 := by omega) :
    EffectsBounded s t := h.mono hbuses hpins hanswers

theorem raise_bounded (s : State) (e : ErrorResult) : EffectsBounded s (s.raise e) := ((AddsAtMost.refl s).respond _).bounded

theorem rendererStep_bounded {s t : State} {b : Bank} (h : rendererStep b s = .next t) : EffectsBounded s t := by
  obtain ⟨-, rfl⟩ | ⟨r, c, rest, -, -, ⟨rfl, -⟩ | ⟨-, -, -, l, -, rfl⟩⟩ := rendererStep_next h
  · exact (AddsAtMost.refl _).bounded
  · exact ((AddsAtMost.refl s).setBank ..).bounded
  · exact ((applyBit_adds ..).setBank ..).bounded

theorem flashStep_bounded {s t : State} {b : Bank} {masks : List Byte} (h : flashStep b masks s = .next t) :
    EffectsBounded s t := by
  obtain ⟨-, ⟨m, rest, -, -, rfl⟩ | ⟨m, e, -, -, -, rfl⟩⟩ := flashStep_next h
  · exact ((applyMask_adds b m s).setHost _).bounded
  · exact ((((applyMask_adds b m s).setBank ..).setHost _).finish _).bounded

theorem hostStep_bounded {s t : State} (h : hostStep s = .next t) : EffectsBounded s t := by
  obtain ⟨-, rfl⟩ | ⟨b, masks, -, hf⟩ | ⟨err, -, -, rfl⟩ | ⟨err, -, rfl⟩ := hostStep_next h
  · exact (AddsAtMost.refl _).bounded
  · exact flashStep_bounded hf
  · exact (((pinWrites_adds ..).setBank ..).setHost _).bounded (hpins := by simp)
  · exact ((((AddsAtMost.refl s).setHalted true).setHost none).finish err).bounded

theorem exec_bounded {s t : State} {i : Instr} (h : exec i s = .next t) : EffectsBounded s t := by
  cases i with
  | init =>
    obtain ⟨e, rfl⟩ | ⟨-, rfl⟩ := execInit_next h
    · exact raise_bounded s e
    have hw : AddsAtMost 4 0 0 s (busWrites initWrites s).1 := busWrites_adds initWrites s
    cases (busWrites initWrites s).2 with
    | none => exact ((hw.setInitialized true).respond _).bounded
    | some e => exact (hw.respond _).bounded
  | wrout m =>
    obtain ⟨e, rfl⟩ | ⟨-, -, -, rfl⟩ := execWrout_next h
    · exact raise_bounded s e
    · exact ((busWrite_adds ..).finish _).bounded
  | rdin =>
    obtain ⟨e, rfl⟩ | ⟨-, -, rfl⟩ := execRdin_next h
    · exact raise_bounded s e
    · rw [finishRead]
      split <;> exact ((busRead_adds .gpioB s).respond _).bounded
  | update b c st =>
    obtain ⟨e, rfl⟩ | ⟨-, -, ⟨n, lvl, -, -, -, -, rfl⟩ | ⟨n, -, -, -, rfl⟩ | ⟨m, -, -, -, rfl⟩⟩ := execUpdate_next h
    · exact raise_bounded s e
    · exact (((applyBit_adds ..).setBank ..).finish _).bounded
    · exact (((AddsAtMost.refl s).setBank ..).respond _).bounded
    · exact (((applyMask_adds ..).setBank ..).finish _).bounded
  | flash b md =>
    obtain ⟨e, rfl⟩ | ⟨-, -, rfl⟩ := execFlash_next h
    · exact raise_bounded s e
    · exact (((AddsAtMost.refl s).setBank ..).setHost _).bounded
  | pollev =>
    obtain ⟨e, rfl⟩ | rfl | ⟨e, rest, -, rfl⟩ := execPollev_next h
    · exact raise_bounded s e
    · exact ((AddsAtMost.refl s).respond _).bounded
    · exact ((AddsAtMost.of_same rfl rfl : AddsAtMost 0 0 0 s { s with evq := rest }).respond _).bounded
  | shutdown =>
    obtain ⟨-, rfl⟩ | ⟨-, -, ⟨-, rfl⟩ | ⟨-, rfl⟩⟩ := execShutdown_next h
    · exact ((AddsAtMost.refl s).respond _).bounded
    · exact (((busWrite_adds ..).setBank ..).setHost _).bounded
    · exact (((AddsAtMost.refl s).setBank ..).setHost _).bounded
  | tick b =>
    obtain ⟨-, rfl⟩ | ⟨-, rfl⟩ := execTick_next h
    · exact (AddsAtMost.refl _).bounded
    · exact ((AddsAtMost.refl s).setBank ..).bounded
  | edge p k =>
    obtain rfl | ⟨-, ht, -⟩ := execEdge_next h
    · exact (AddsAtMost.refl _).bounded
    · exact (AddsAtMost.of_same (by rw [ht]) (by rw [ht])).bounded

theorem perform_bounded {s t : State} {a : Activity} (h : perform a s = .next t) : EffectsBounded s t := by
  obtain ⟨w, i, -, -, he⟩ | ⟨w, e, -, rfl⟩ | ⟨w, i, -, -, he⟩ | ⟨-, he⟩ | ⟨b, -, he⟩ | ⟨-, rfl⟩ := perform_next h
  · exact exec_bounded he
  · exact raise_bounded s e
  · exact exec_bounded he
  · exact hostStep_bounded he
  · exact rendererStep_bounded he
  · exact (AddsAtMost.of_same rfl rfl).bounded

/-- Taking up an entry shows and returns nothing. -/
theorem EffectsBounded.of_takeSlot {s t : State} {slot : Slot} {rest : List Slot}
    (h : EffectsBounded (s.takeSlot slot rest) t) : EffectsBounded s t := h

/-- A step is nothing, an agent's turn or an entry performed, and each of these is within the bounds of R150. -/
theorem step_bounded {s t : State} (h : step s = .next t) : EffectsBounded s t := by
  obtain rfl | ⟨-, he⟩ | ⟨b, he⟩ | ⟨slot, rest, -, -, -, he⟩ := step_next h
  · exact (AddsAtMost.refl _).bounded
  · exact hostStep_bounded he
  · exact rendererStep_bounded he
  · exact (perform_bounded he).of_takeSlot

/-- Settles O58: the bounds of `step_bounded`, with `IoEvent.isBus` and `IoEvent.isPin` written out. -/
theorem stepEffectsBounded : Obligations.StepEffectsBounded := fun _ _ => step_bounded

end Sys2Proof.Machine

namespace Sys2Proof.Machine

/-! ### A step that takes up a legal word (R59; logs 5 and 6) -/

/-- A command word that no command in progress holds up waits for nothing. -/
theorem waitsFor_command_idle {s : State} (h : s.host = none) (w : Word) : s.waitsFor (.command w) = none := by
  simp [State.waitsFor, h]

/-- A stimulus word waits for nothing unless it is a TICK of a bank whose tick is in progress (R88). -/
theorem waitsFor_stimulus_idle {s : State} {w : Word}
    (h : ∀ b, decodeStimulus w = .ok (.tick b) → (s.bank b).pass = []) : s.waitsFor (.stimulus w) = none := by
  cases hw : s.waitsFor (.stimulus w) with
  | none => rfl
  | some a =>
    obtain ⟨_, _, hact, -, -⟩ | ⟨_, b, hact, hd, hp, -⟩ := waitsFor_some hw
    · cases hact
    · cases hact
      exact absurd (h b hd) hp

/-- A legal command word runs its command. -/
theorem perform_command {w : Word} {i : Instr} (h : decodeCommand w = .ok i) (s : State) :
    perform (.command w) s = exec i s := by
  simp only [perform, runCommand, h]

/-- A legal stimulus word runs its stimulus. -/
theorem perform_stimulus {w : Word} {i : Instr} (h : decodeStimulus w = .ok i) (s : State) :
    perform (.stimulus w) s = exec i s := by
  simp only [perform, runStimulus, h]

/-- Settles O7: with no command in progress the entry is taken up, and its word is legal. -/
theorem stepRunsDecodedCommand : Obligations.StepRunsDecodedCommand := by
  intro s slot rest w i hi ha hh hd
  calc step s = perform slot.activity (s.takeSlot slot rest) :=
        step_of_waitsFor_none hi (ha ▸ waitsFor_command_idle hh w)
    _ = exec i (s.takeSlot slot rest) := ha ▸ perform_command hd _

/-- Settles O8: the entry is taken up, since a TICK finds its bank's renderer between ticks, and its word is legal. -/
theorem stepRunsDecodedStimulus : Obligations.StepRunsDecodedStimulus := by
  intro s slot rest w i hi ha hd htick
  have hidle : s.waitsFor (.stimulus w) = none :=
    waitsFor_stimulus_idle fun b hb => htick b (Except.ok.inj (hd.symm.trans hb))
  calc step s = perform slot.activity (s.takeSlot slot rest) := step_of_waitsFor_none hi (ha ▸ hidle)
    _ = exec i (s.takeSlot slot rest) := ha ▸ perform_stimulus hd _

/-! ### The words of the test vectors (95 section 2.1) -/

/-- Settles O1: twelve closed words, each decoded by evaluation. -/
theorem vectorWordsDecode : Obligations.VectorWordsDecode := by
  unfold Obligations.VectorWordsDecode
  decide

end Sys2Proof.Machine
